-- ==== Sys2Proof/Word.lean ====
section
/-! DEFINITION. The word sizes of the machine (00_scope.md R9). -/

namespace Sys2Proof

/-- A register, an address or an instruction word: 32 bits (R9). -/
abbrev Word := BitVec 32

/-- The unit of the Bus: 8 bits (R9, R60). -/
abbrev Byte := BitVec 8

/-- A general register's number, 0 to 31 (R20, R104). -/
abbrev RegIdx := BitVec 5

end Sys2Proof
end

