-- ==== Sys2Proof/Syntax.lean ====
section
/-! DEFINITION. The 42 instructions of opcode_table.json with their operands as the assembler writes them (30_encoding.md R104,
R123): an offset is the byte offset itself, with its even low bit. -/

namespace Sys2Proof

/-- One constructor per row of opcode_table.json, in the table's order. Operands stand destination first (R123), a store's data
register before its address register. -/
inductive Instr where
  /-- `LUI rd, imm20` (R130). -/
  | lui (rd : RegIdx) (imm : BitVec 20)
  /-- `AUIPC rd, imm20` (R131). -/
  | auipc (rd : RegIdx) (imm : BitVec 20)
  /-- `JAL rd, offset` (R140); the 21-bit offset is even. -/
  | jal (rd : RegIdx) (offset : BitVec 21)
  /-- `JALR rd, rs1, imm` (R141). -/
  | jalr (rd rs1 : RegIdx) (imm : BitVec 12)
  /-- `BEQ rs1, rs2, offset` (R151); the 13-bit offset of every branch is even. -/
  | beq (rs1 rs2 : RegIdx) (offset : BitVec 13)
  /-- `BNE rs1, rs2, offset` (R152). -/
  | bne (rs1 rs2 : RegIdx) (offset : BitVec 13)
  /-- `BLT rs1, rs2, offset` (R153). -/
  | blt (rs1 rs2 : RegIdx) (offset : BitVec 13)
  /-- `BGE rs1, rs2, offset` (R154). -/
  | bge (rs1 rs2 : RegIdx) (offset : BitVec 13)
  /-- `BLTU rs1, rs2, offset` (R155). -/
  | bltu (rs1 rs2 : RegIdx) (offset : BitVec 13)
  /-- `BGEU rs1, rs2, offset` (R156). -/
  | bgeu (rs1 rs2 : RegIdx) (offset : BitVec 13)
  /-- `LB rd, imm(rs1)` (R161). -/
  | lb (rd rs1 : RegIdx) (imm : BitVec 12)
  /-- `LH rd, imm(rs1)` (R162). -/
  | lh (rd rs1 : RegIdx) (imm : BitVec 12)
  /-- `LW rd, imm(rs1)` (R163). -/
  | lw (rd rs1 : RegIdx) (imm : BitVec 12)
  /-- `LBU rd, imm(rs1)` (R164). -/
  | lbu (rd rs1 : RegIdx) (imm : BitVec 12)
  /-- `LHU rd, imm(rs1)` (R165). -/
  | lhu (rd rs1 : RegIdx) (imm : BitVec 12)
  /-- `SB rs2, imm(rs1)` (R171). -/
  | sb (rs2 rs1 : RegIdx) (imm : BitVec 12)
  /-- `SH rs2, imm(rs1)` (R172). -/
  | sh (rs2 rs1 : RegIdx) (imm : BitVec 12)
  /-- `SW rs2, imm(rs1)` (R173). -/
  | sw (rs2 rs1 : RegIdx) (imm : BitVec 12)
  /-- `ADDI rd, rs1, imm` (R181). -/
  | addi (rd rs1 : RegIdx) (imm : BitVec 12)
  /-- `SLTI rd, rs1, imm` (R182). -/
  | slti (rd rs1 : RegIdx) (imm : BitVec 12)
  /-- `SLTIU rd, rs1, imm` (R183). -/
  | sltiu (rd rs1 : RegIdx) (imm : BitVec 12)
  /-- `XORI rd, rs1, imm` (R184). -/
  | xori (rd rs1 : RegIdx) (imm : BitVec 12)
  /-- `ORI rd, rs1, imm` (R185). -/
  | ori (rd rs1 : RegIdx) (imm : BitVec 12)
  /-- `ANDI rd, rs1, imm` (R186). -/
  | andi (rd rs1 : RegIdx) (imm : BitVec 12)
  /-- `SLLI rd, rs1, shamt` (R187). -/
  | slli (rd rs1 : RegIdx) (shamt : BitVec 5)
  /-- `SRLI rd, rs1, shamt` (R188). -/
  | srli (rd rs1 : RegIdx) (shamt : BitVec 5)
  /-- `SRAI rd, rs1, shamt` (R189). -/
  | srai (rd rs1 : RegIdx) (shamt : BitVec 5)
  /-- `ADD rd, rs1, rs2` (R201). -/
  | add (rd rs1 rs2 : RegIdx)
  /-- `SUB rd, rs1, rs2` (R202). -/
  | sub (rd rs1 rs2 : RegIdx)
  /-- `SLL rd, rs1, rs2` (R203). -/
  | sll (rd rs1 rs2 : RegIdx)
  /-- `SLT rd, rs1, rs2` (R204). -/
  | slt (rd rs1 rs2 : RegIdx)
  /-- `SLTU rd, rs1, rs2` (R205). -/
  | sltu (rd rs1 rs2 : RegIdx)
  /-- `XOR rd, rs1, rs2` (R206). -/
  | xor (rd rs1 rs2 : RegIdx)
  /-- `SRL rd, rs1, rs2` (R207). -/
  | srl (rd rs1 rs2 : RegIdx)
  /-- `SRA rd, rs1, rs2` (R208). -/
  | sra (rd rs1 rs2 : RegIdx)
  /-- `OR rd, rs1, rs2` (R209). -/
  | or (rd rs1 rs2 : RegIdx)
  /-- `AND rd, rs1, rs2` (R210). -/
  | and (rd rs1 rs2 : RegIdx)
  /-- `MUL rd, rs1, rs2` (R221). -/
  | mul (rd rs1 rs2 : RegIdx)
  /-- `DIV rd, rs1, rs2` (R222). -/
  | div (rd rs1 rs2 : RegIdx)
  /-- `DIVU rd, rs1, rs2` (R223). -/
  | divu (rd rs1 rs2 : RegIdx)
  /-- `REM rd, rs1, rs2` (R224). -/
  | rem (rd rs1 rs2 : RegIdx)
  /-- `REMU rd, rs1, rs2` (R225). -/
  | remu (rd rs1 rs2 : RegIdx)
deriving DecidableEq, Repr

end Sys2Proof
end

