-- ==== Sys2Proof/Decode.lean ====
section
/-! DEFINITION. The fields of an instruction word, the decoder (30_encoding.md R100 to R111, R120), the encoder, and the opcode
table as rows. The numeric codes are those of opcode_table.json (decisions D1, D2; entry 10). The decoder answers none for an
UNRECOGNISED word (R111, R120). -/

namespace Sys2Proof

/-! ## Fields (R100) -/

/-- `opcode`, bits 6:0. -/
def opcodeOf (w : Word) : BitVec 7 := w.extractLsb' 0 7

/-- `rd`, bits 11:7. -/
def rdOf (w : Word) : RegIdx := w.extractLsb' 7 5

/-- `f3`, the function code, bits 14:12. -/
def f3Of (w : Word) : BitVec 3 := w.extractLsb' 12 3

/-- `rs1`, bits 19:15. -/
def rs1Of (w : Word) : RegIdx := w.extractLsb' 15 5

/-- `rs2`, bits 24:20. -/
def rs2Of (w : Word) : RegIdx := w.extractLsb' 20 5

/-- `f7`, the function-extension code, bits 31:25. -/
def f7Of (w : Word) : BitVec 7 := w.extractLsb' 25 7

/-- `shamt`, bits 24:20 (R102). -/
def shamtOf (w : Word) : BitVec 5 := w.extractLsb' 20 5

/-- The twelve bits of immI before sign extension, bits 31:20 (R102). -/
def immIOf (w : Word) : BitVec 12 := w.extractLsb' 20 12

/-- The twelve bits of immS before sign extension (R103). -/
def immSOf (w : Word) : BitVec 12 := w.extractLsb' 25 7 ++ w.extractLsb' 7 5

/-- The thirteen bits of immB before sign extension: inst[31], inst[7], inst[30:25], inst[11:8], 0 (R103). -/
def immBOf (w : Word) : BitVec 13 :=
  w.extractLsb' 31 1 ++ w.extractLsb' 7 1 ++ w.extractLsb' 25 6 ++ w.extractLsb' 8 4 ++ 0#1

/-- The twenty bits of immU above its twelve zeros, bits 31:12 (R103). -/
def immUOf (w : Word) : BitVec 20 := w.extractLsb' 12 20

/-- The twenty-one bits of immJ before sign extension: inst[31], inst[19:12], inst[20], inst[30:21], 0 (R103). -/
def immJOf (w : Word) : BitVec 21 :=
  w.extractLsb' 31 1 ++ w.extractLsb' 12 8 ++ w.extractLsb' 20 1 ++ w.extractLsb' 21 10 ++ 0#1

/-! ## The decoder, class by class -/

/-- BRANCH by f3 (R107). -/
def decodeBranch (w : Word) : Option Instr :=
  if f3Of w = 0b000#3 then some (.beq (rs1Of w) (rs2Of w) (immBOf w))
  else if f3Of w = 0b001#3 then some (.bne (rs1Of w) (rs2Of w) (immBOf w))
  else if f3Of w = 0b100#3 then some (.blt (rs1Of w) (rs2Of w) (immBOf w))
  else if f3Of w = 0b101#3 then some (.bge (rs1Of w) (rs2Of w) (immBOf w))
  else if f3Of w = 0b110#3 then some (.bltu (rs1Of w) (rs2Of w) (immBOf w))
  else if f3Of w = 0b111#3 then some (.bgeu (rs1Of w) (rs2Of w) (immBOf w))
  else none

/-- LOAD by f3 (R108). -/
def decodeLoad (w : Word) : Option Instr :=
  if f3Of w = 0b000#3 then some (.lb (rdOf w) (rs1Of w) (immIOf w))
  else if f3Of w = 0b001#3 then some (.lh (rdOf w) (rs1Of w) (immIOf w))
  else if f3Of w = 0b010#3 then some (.lw (rdOf w) (rs1Of w) (immIOf w))
  else if f3Of w = 0b100#3 then some (.lbu (rdOf w) (rs1Of w) (immIOf w))
  else if f3Of w = 0b101#3 then some (.lhu (rdOf w) (rs1Of w) (immIOf w))
  else none

/-- STORE by f3 (R108). -/
def decodeStore (w : Word) : Option Instr :=
  if f3Of w = 0b000#3 then some (.sb (rs2Of w) (rs1Of w) (immSOf w))
  else if f3Of w = 0b001#3 then some (.sh (rs2Of w) (rs1Of w) (immSOf w))
  else if f3Of w = 0b010#3 then some (.sw (rs2Of w) (rs1Of w) (immSOf w))
  else none

/-- OP-IMM by f3, and by f7 for the shifts (R109). -/
def decodeOpImm (w : Word) : Option Instr :=
  if f3Of w = 0b000#3 then some (.addi (rdOf w) (rs1Of w) (immIOf w))
  else if f3Of w = 0b010#3 then some (.slti (rdOf w) (rs1Of w) (immIOf w))
  else if f3Of w = 0b011#3 then some (.sltiu (rdOf w) (rs1Of w) (immIOf w))
  else if f3Of w = 0b100#3 then some (.xori (rdOf w) (rs1Of w) (immIOf w))
  else if f3Of w = 0b110#3 then some (.ori (rdOf w) (rs1Of w) (immIOf w))
  else if f3Of w = 0b111#3 then some (.andi (rdOf w) (rs1Of w) (immIOf w))
  else if f3Of w = 0b001#3 ∧ f7Of w = 0b0000000#7 then some (.slli (rdOf w) (rs1Of w) (shamtOf w))
  else if f3Of w = 0b101#3 ∧ f7Of w = 0b0000000#7 then some (.srli (rdOf w) (rs1Of w) (shamtOf w))
  else if f3Of w = 0b101#3 ∧ f7Of w = 0b0100000#7 then some (.srai (rdOf w) (rs1Of w) (shamtOf w))
  else none

/-- OP with f7 = 0000000 (R110). -/
def decodeOpBase (w : Word) : Option Instr :=
  if f3Of w = 0b000#3 then some (.add (rdOf w) (rs1Of w) (rs2Of w))
  else if f3Of w = 0b001#3 then some (.sll (rdOf w) (rs1Of w) (rs2Of w))
  else if f3Of w = 0b010#3 then some (.slt (rdOf w) (rs1Of w) (rs2Of w))
  else if f3Of w = 0b011#3 then some (.sltu (rdOf w) (rs1Of w) (rs2Of w))
  else if f3Of w = 0b100#3 then some (.xor (rdOf w) (rs1Of w) (rs2Of w))
  else if f3Of w = 0b101#3 then some (.srl (rdOf w) (rs1Of w) (rs2Of w))
  else if f3Of w = 0b110#3 then some (.or (rdOf w) (rs1Of w) (rs2Of w))
  else some (.and (rdOf w) (rs1Of w) (rs2Of w))

/-- OP with f7 = 0100000 (R110, R211). -/
def decodeOpAlt (w : Word) : Option Instr :=
  if f3Of w = 0b000#3 then some (.sub (rdOf w) (rs1Of w) (rs2Of w))
  else if f3Of w = 0b101#3 then some (.sra (rdOf w) (rs1Of w) (rs2Of w))
  else none

/-- OP with f7 = 0000001 (R110, R226). -/
def decodeMulDiv (w : Word) : Option Instr :=
  if f3Of w = 0b000#3 then some (.mul (rdOf w) (rs1Of w) (rs2Of w))
  else if f3Of w = 0b100#3 then some (.div (rdOf w) (rs1Of w) (rs2Of w))
  else if f3Of w = 0b101#3 then some (.divu (rdOf w) (rs1Of w) (rs2Of w))
  else if f3Of w = 0b110#3 then some (.rem (rdOf w) (rs1Of w) (rs2Of w))
  else if f3Of w = 0b111#3 then some (.remu (rdOf w) (rs1Of w) (rs2Of w))
  else none

/-- OP by f7 (R110). -/
def decodeOp (w : Word) : Option Instr :=
  if f7Of w = 0b0000000#7 then decodeOpBase w
  else if f7Of w = 0b0100000#7 then decodeOpAlt w
  else if f7Of w = 0b0000001#7 then decodeMulDiv w
  else none

/-- The total decoder of R111: one of the 42 instructions, or none where the word is UNRECOGNISED. LUI, AUIPC, JAL and JALR are
selected by the opcode alone (R106). -/
def decode (w : Word) : Option Instr :=
  if opcodeOf w = 0b0110111#7 then some (.lui (rdOf w) (immUOf w))
  else if opcodeOf w = 0b0010111#7 then some (.auipc (rdOf w) (immUOf w))
  else if opcodeOf w = 0b1101111#7 then some (.jal (rdOf w) (immJOf w))
  else if opcodeOf w = 0b1100111#7 then some (.jalr (rdOf w) (rs1Of w) (immIOf w))
  else if opcodeOf w = 0b1100011#7 then decodeBranch w
  else if opcodeOf w = 0b0000011#7 then decodeLoad w
  else if opcodeOf w = 0b0100011#7 then decodeStore w
  else if opcodeOf w = 0b0010011#7 then decodeOpImm w
  else if opcodeOf w = 0b0110011#7 then decodeOp w
  else none

/-! ## The encoder: the six field arrangements of R101 -/

/-- R format. -/
def encodeR (f7 : BitVec 7) (rs2 rs1 : RegIdx) (f3 : BitVec 3) (rd : RegIdx) (opcode : BitVec 7) : Word :=
  f7 ++ rs2 ++ rs1 ++ f3 ++ rd ++ opcode

/-- I format. -/
def encodeI (imm : BitVec 12) (rs1 : RegIdx) (f3 : BitVec 3) (rd : RegIdx) (opcode : BitVec 7) : Word :=
  imm ++ rs1 ++ f3 ++ rd ++ opcode

/-- S format: imm[11:5] above, imm[4:0] below. -/
def encodeS (imm : BitVec 12) (rs2 rs1 : RegIdx) (f3 : BitVec 3) (opcode : BitVec 7) : Word :=
  imm.extractLsb' 5 7 ++ rs2 ++ rs1 ++ f3 ++ imm.extractLsb' 0 5 ++ opcode

/-- B format: imm[12], imm[10:5] above, imm[4:1], imm[11] below. -/
def encodeB (imm : BitVec 13) (rs2 rs1 : RegIdx) (f3 : BitVec 3) (opcode : BitVec 7) : Word :=
  imm.extractLsb' 12 1 ++ imm.extractLsb' 5 6 ++ rs2 ++ rs1 ++ f3 ++ imm.extractLsb' 1 4 ++ imm.extractLsb' 11 1 ++ opcode

/-- U format. -/
def encodeU (imm : BitVec 20) (rd : RegIdx) (opcode : BitVec 7) : Word := imm ++ rd ++ opcode

/-- J format: imm[20], imm[10:1], imm[11], imm[19:12]. -/
def encodeJ (imm : BitVec 21) (rd : RegIdx) (opcode : BitVec 7) : Word :=
  imm.extractLsb' 20 1 ++ imm.extractLsb' 1 10 ++ imm.extractLsb' 11 1 ++ imm.extractLsb' 12 8 ++ rd ++ opcode

/-- The word of a well-formed instruction; JALR in its canonical form with f3 = 000 (R106). -/
def encode : Instr → Word
  | .lui rd imm => encodeU imm rd 0b0110111#7
  | .auipc rd imm => encodeU imm rd 0b0010111#7
  | .jal rd offset => encodeJ offset rd 0b1101111#7
  | .jalr rd rs1 imm => encodeI imm rs1 0b000#3 rd 0b1100111#7
  | .beq rs1 rs2 offset => encodeB offset rs2 rs1 0b000#3 0b1100011#7
  | .bne rs1 rs2 offset => encodeB offset rs2 rs1 0b001#3 0b1100011#7
  | .blt rs1 rs2 offset => encodeB offset rs2 rs1 0b100#3 0b1100011#7
  | .bge rs1 rs2 offset => encodeB offset rs2 rs1 0b101#3 0b1100011#7
  | .bltu rs1 rs2 offset => encodeB offset rs2 rs1 0b110#3 0b1100011#7
  | .bgeu rs1 rs2 offset => encodeB offset rs2 rs1 0b111#3 0b1100011#7
  | .lb rd rs1 imm => encodeI imm rs1 0b000#3 rd 0b0000011#7
  | .lh rd rs1 imm => encodeI imm rs1 0b001#3 rd 0b0000011#7
  | .lw rd rs1 imm => encodeI imm rs1 0b010#3 rd 0b0000011#7
  | .lbu rd rs1 imm => encodeI imm rs1 0b100#3 rd 0b0000011#7
  | .lhu rd rs1 imm => encodeI imm rs1 0b101#3 rd 0b0000011#7
  | .sb rs2 rs1 imm => encodeS imm rs2 rs1 0b000#3 0b0100011#7
  | .sh rs2 rs1 imm => encodeS imm rs2 rs1 0b001#3 0b0100011#7
  | .sw rs2 rs1 imm => encodeS imm rs2 rs1 0b010#3 0b0100011#7
  | .addi rd rs1 imm => encodeI imm rs1 0b000#3 rd 0b0010011#7
  | .slti rd rs1 imm => encodeI imm rs1 0b010#3 rd 0b0010011#7
  | .sltiu rd rs1 imm => encodeI imm rs1 0b011#3 rd 0b0010011#7
  | .xori rd rs1 imm => encodeI imm rs1 0b100#3 rd 0b0010011#7
  | .ori rd rs1 imm => encodeI imm rs1 0b110#3 rd 0b0010011#7
  | .andi rd rs1 imm => encodeI imm rs1 0b111#3 rd 0b0010011#7
  | .slli rd rs1 shamt => encodeR 0b0000000#7 shamt rs1 0b001#3 rd 0b0010011#7
  | .srli rd rs1 shamt => encodeR 0b0000000#7 shamt rs1 0b101#3 rd 0b0010011#7
  | .srai rd rs1 shamt => encodeR 0b0100000#7 shamt rs1 0b101#3 rd 0b0010011#7
  | .add rd rs1 rs2 => encodeR 0b0000000#7 rs2 rs1 0b000#3 rd 0b0110011#7
  | .sub rd rs1 rs2 => encodeR 0b0100000#7 rs2 rs1 0b000#3 rd 0b0110011#7
  | .sll rd rs1 rs2 => encodeR 0b0000000#7 rs2 rs1 0b001#3 rd 0b0110011#7
  | .slt rd rs1 rs2 => encodeR 0b0000000#7 rs2 rs1 0b010#3 rd 0b0110011#7
  | .sltu rd rs1 rs2 => encodeR 0b0000000#7 rs2 rs1 0b011#3 rd 0b0110011#7
  | .xor rd rs1 rs2 => encodeR 0b0000000#7 rs2 rs1 0b100#3 rd 0b0110011#7
  | .srl rd rs1 rs2 => encodeR 0b0000000#7 rs2 rs1 0b101#3 rd 0b0110011#7
  | .sra rd rs1 rs2 => encodeR 0b0100000#7 rs2 rs1 0b101#3 rd 0b0110011#7
  | .or rd rs1 rs2 => encodeR 0b0000000#7 rs2 rs1 0b110#3 rd 0b0110011#7
  | .and rd rs1 rs2 => encodeR 0b0000000#7 rs2 rs1 0b111#3 rd 0b0110011#7
  | .mul rd rs1 rs2 => encodeR 0b0000001#7 rs2 rs1 0b000#3 rd 0b0110011#7
  | .div rd rs1 rs2 => encodeR 0b0000001#7 rs2 rs1 0b100#3 rd 0b0110011#7
  | .divu rd rs1 rs2 => encodeR 0b0000001#7 rs2 rs1 0b101#3 rd 0b0110011#7
  | .rem rd rs1 rs2 => encodeR 0b0000001#7 rs2 rs1 0b110#3 rd 0b0110011#7
  | .remu rd rs1 rs2 => encodeR 0b0000001#7 rs2 rs1 0b111#3 rd 0b0110011#7

/-! ## The opcode table as rows -/

/-- A row of opcode_table.json: a word w is the row's when `w &&& mask = pattern`. -/
structure OpcodeRow where
  mnemonic : String
  pattern : Word
  mask : Word
deriving DecidableEq, Repr

/-- The mnemonic of an instruction, as opcode_table.json spells it. -/
def mnemonicOf : Instr → String
  | .lui .. => "LUI" | .auipc .. => "AUIPC" | .jal .. => "JAL" | .jalr .. => "JALR"
  | .beq .. => "BEQ" | .bne .. => "BNE" | .blt .. => "BLT" | .bge .. => "BGE" | .bltu .. => "BLTU" | .bgeu .. => "BGEU"
  | .lb .. => "LB" | .lh .. => "LH" | .lw .. => "LW" | .lbu .. => "LBU" | .lhu .. => "LHU"
  | .sb .. => "SB" | .sh .. => "SH" | .sw .. => "SW"
  | .addi .. => "ADDI" | .slti .. => "SLTI" | .sltiu .. => "SLTIU" | .xori .. => "XORI" | .ori .. => "ORI" | .andi .. => "ANDI"
  | .slli .. => "SLLI" | .srli .. => "SRLI" | .srai .. => "SRAI"
  | .add .. => "ADD" | .sub .. => "SUB" | .sll .. => "SLL" | .slt .. => "SLT" | .sltu .. => "SLTU" | .xor .. => "XOR"
  | .srl .. => "SRL" | .sra .. => "SRA" | .or .. => "OR" | .and .. => "AND"
  | .mul .. => "MUL" | .div .. => "DIV" | .divu .. => "DIVU" | .rem .. => "REM" | .remu .. => "REMU"

/-- The rows of opcode_table.json with the match and mask each has there (and in its rule of files 40 to 47). -/
def opcodeTable : List OpcodeRow :=
  [⟨"LUI", 0x00000037, 0x0000007F⟩, ⟨"AUIPC", 0x00000017, 0x0000007F⟩, ⟨"JAL", 0x0000006F, 0x0000007F⟩,
    ⟨"JALR", 0x00000067, 0x0000007F⟩, ⟨"BEQ", 0x00000063, 0x0000707F⟩, ⟨"BNE", 0x00001063, 0x0000707F⟩,
    ⟨"BLT", 0x00004063, 0x0000707F⟩, ⟨"BGE", 0x00005063, 0x0000707F⟩, ⟨"BLTU", 0x00006063, 0x0000707F⟩,
    ⟨"BGEU", 0x00007063, 0x0000707F⟩] ++
  [⟨"LB", 0x00000003, 0x0000707F⟩, ⟨"LH", 0x00001003, 0x0000707F⟩, ⟨"LW", 0x00002003, 0x0000707F⟩,
    ⟨"LBU", 0x00004003, 0x0000707F⟩, ⟨"LHU", 0x00005003, 0x0000707F⟩, ⟨"SB", 0x00000023, 0x0000707F⟩,
    ⟨"SH", 0x00001023, 0x0000707F⟩, ⟨"SW", 0x00002023, 0x0000707F⟩] ++
  [⟨"ADDI", 0x00000013, 0x0000707F⟩, ⟨"SLTI", 0x00002013, 0x0000707F⟩, ⟨"SLTIU", 0x00003013, 0x0000707F⟩,
    ⟨"XORI", 0x00004013, 0x0000707F⟩, ⟨"ORI", 0x00006013, 0x0000707F⟩, ⟨"ANDI", 0x00007013, 0x0000707F⟩,
    ⟨"SLLI", 0x00001013, 0xFE00707F⟩, ⟨"SRLI", 0x00005013, 0xFE00707F⟩, ⟨"SRAI", 0x40005013, 0xFE00707F⟩] ++
  [⟨"ADD", 0x00000033, 0xFE00707F⟩, ⟨"SUB", 0x40000033, 0xFE00707F⟩, ⟨"SLL", 0x00001033, 0xFE00707F⟩,
    ⟨"SLT", 0x00002033, 0xFE00707F⟩, ⟨"SLTU", 0x00003033, 0xFE00707F⟩, ⟨"XOR", 0x00004033, 0xFE00707F⟩,
    ⟨"SRL", 0x00005033, 0xFE00707F⟩, ⟨"SRA", 0x40005033, 0xFE00707F⟩, ⟨"OR", 0x00006033, 0xFE00707F⟩,
    ⟨"AND", 0x00007033, 0xFE00707F⟩, ⟨"MUL", 0x02000033, 0xFE00707F⟩, ⟨"DIV", 0x02004033, 0xFE00707F⟩,
    ⟨"DIVU", 0x02005033, 0xFE00707F⟩, ⟨"REM", 0x02006033, 0xFE00707F⟩, ⟨"REMU", 0x02007033, 0xFE00707F⟩]

/-- The disassembler of R125: the mnemonic of the word's instruction, or ".word" (DESIGN CHOICE, entry 27). It reads the word alone. -/
def disassemble (w : Word) : String :=
  match decode w with
  | some i => mnemonicOf i
  | none => ".word"

/-! ## Bytes -/

/-- The four bytes of a word in memory order, the least significant first (R66, R68). -/
def wordBytes (w : Word) : List Byte :=
  [w.extractLsb' 0 8, w.extractLsb' 8 8, w.extractLsb' 16 8, w.extractLsb' 24 8]

/-- The word of four bytes in memory order. -/
def wordOfBytes (b0 b1 b2 b3 : Byte) : Word := b3 ++ b2 ++ b1 ++ b0

/-- The decoder on bytes in memory order; fewer than four bytes are no instruction (R122: the length is 4). -/
def decodeBytes : List Byte → Option (Instr × List Byte)
  | b0 :: b1 :: b2 :: b3 :: rest =>
    match decode (wordOfBytes b0 b1 b2 b3) with
    | some i => some (i, rest)
    | none => none
  | _ => none

/-- What the decoder reads from an instruction whose first nbits bits are w, the bits above being 0. -/
def decodeTableWord (nbits w : Nat) : Option Instr :=
  match decodeBytes (wordBytes (BitVec.ofNat 32 (w % 2 ^ nbits))) with
  | some (i, _) => some i
  | none => none

end Sys2Proof
end

