-- ==== Sys2Proof/Config.lean ====
section
/-! DEFINITION. What the spec leaves to a platform: the parameters of 00_scope.md R10, the constraints R11 puts on them, the
reference values, and the one free function, the noise waveform. -/

namespace Sys2Proof

/-- Bytes in each of ROM, RAM and VRAM: 16 MiB (R9). -/
abbrev arrayBytes : Nat := 0x1000000

/-- Bytes in each of the two I/O windows (R9). -/
abbrev ioBytes : Nat := 0x100

/-- Screen width in pixels, in every mode (R241). -/
abbrev screenWidth : Nat := 160

/-- Screen height in pixels, in every mode (R241). -/
abbrev screenHeight : Nat := 144

/-- Pixels of the framebuffer (R40). -/
abbrev screenPixels : Nat := 23040

/-- Samples per second of the APU (R9, R310). -/
abbrev sampleRate : Nat := 48000

/-- The parameters of R10, one field each. APU_BASE is no field, since it is always JOY_BASE + 0x100. -/
structure Config where
  romBase : Nat
  ramBase : Nat
  vramBase : Nat
  joyBase : Nat
  bridgeAddr : Nat
  romEntry : Word
  joyInputOff : Nat
  stepsPerFrame : Nat
  modeOff : Nat
  scrollXOff : Nat
  scrollYOff : Nat
  cmdOff : Nat
  vertOff : Nat
  colorOff : Nat
  tileAreaEnd : Nat
  tilemapOff : Nat
deriving DecidableEq, Repr

/-- APU_BASE, "a sub-window immediately after joypad I/O" (R10, R11). -/
def Config.apuBase (c : Config) : Nat := c.joyBase + ioBytes

/-- The six address windows of R11, each a base and a size. -/
def Config.windows (c : Config) : List (Nat × Nat) :=
  [(c.romBase, arrayBytes), (c.ramBase, arrayBytes), (c.vramBase, arrayBytes), (c.joyBase, ioBytes), (c.apuBase, ioBytes),
    (c.bridgeAddr, 1)]

/-- The control fields of the display-mode record, each an offset in VRAM and a size (R35). -/
def Config.controlFields (c : Config) : List (Nat × Nat) :=
  [(c.modeOff, 4), (c.scrollXOff, 4), (c.scrollYOff, 4), (c.cmdOff, 4), (c.vertOff, 12), (c.colorOff, 4)]

/-- Two windows, given as base and size, share no address. -/
abbrev Apart (a b : Nat × Nat) : Prop := a.1 + a.2 ≤ b.1 ∨ b.1 + b.2 ≤ a.1

/-- The constraints of R11 (and of R10, that STEPS_PER_FRAME is positive). R11 also calls MODE_OFF "near the end of the video region" and
does not say how near: DESIGN CHOICE, no condition stands for that clause (safe, entry 34). -/
abbrev Config.Valid (c : Config) : Prop :=
  c.windows.Pairwise Apart ∧ (∀ w ∈ c.windows, w.1 + w.2 ≤ 2 ^ 32) ∧ c.controlFields.Pairwise Apart ∧
    (∀ f ∈ c.controlFields, f.1 + f.2 ≤ arrayBytes) ∧ c.joyInputOff < ioBytes ∧ c.tilemapOff + 2400 ≤ arrayBytes ∧
    0 < c.stepsPerFrame

/-- The reference configuration of R10. STEPS_PER_FRAME has no reference value: DESIGN CHOICE 20 (unsafe, entry 3). -/
def Config.reference : Config where
  romBase := 0x00000000
  ramBase := 0x01000000
  vramBase := 0x02000000
  joyBase := 0x03000000
  bridgeAddr := 0x03000200
  romEntry := 0x00000000#32
  joyInputOff := 0
  stepsPerFrame := 20
  modeOff := 0xFFFF00
  scrollXOff := 0xFFFF04
  scrollYOff := 0xFFFF08
  cmdOff := 0xFFFF10
  vertOff := 0xFFFF14
  colorOff := 0xFFFF20
  tileAreaEnd := 0x800000
  tilemapOff := 0x800000

/-- NOISE_FN of R10 and R311 before it is held to [-1, 1]: a free value (entry 17). The argument is the phase's numerator over 48000. -/
noncomputable opaque Config.noiseFree : Fin sampleRate → ℝ

end Sys2Proof
end

