-- ==== Sys2Proof/Machine/State.lean ====
section
/-! DEFINITION. The state of the CORE (10_state.md), all of it plain data, and the state after reset (70_reset_and_hazards.md R380). -/

namespace Sys2Proof.Machine

/-- A sparse array of w-bit cells: the listed (index, value) pairs, index rising, no listed value 0; an unlisted index holds 0, which is
what every array holds at reset (R380; entries 4 and 5). A byte array is a list of `Host.Cell`. -/
abbrev Memory (w : Nat) := List (Nat × BitVec w)

/-- The waveform kinds (R38). -/
inductive Waveform where
  /-- selector 0 -/
  | square
  /-- selector 1 -/
  | sine
  /-- selector 2 -/
  | triangle
  /-- selector 3 -/
  | noise
deriving DecidableEq, Repr

/-- A phase in [0, 1) as its numerator over 48000: every phase of a run is such a number (R38; DEDUCED, entry 15). -/
abbrev Phase := Fin sampleRate

/-- One of the APU's four channel records (R38). -/
structure Channel where
  /-- `en[c]` -/
  en : Bool
  /-- `wave[c]` -/
  wave : Waveform
  /-- `freq[c]`, hertz -/
  freq : BitVec 16
  /-- `vol[c]`, in 255ths -/
  vol : Byte
  /-- `phase[c]` -/
  phase : Phase
deriving DecidableEq, Repr

/-- What one sounding channel puts into one sample (R310): waveform, phase before the advance, volume. -/
structure Voice where
  wave : Waveform
  phase : Phase
  vol : Byte
deriving DecidableEq, Repr

/-- One mono sample, exactly: its voices in channel order. A channel that is off puts in none. `sampleValue` gives the real number
(R312: the rules are over the reals; entry 16). -/
abbrev Sample := List Voice

/-- What the CORE hands to the host (R8). -/
inductive Output where
  /-- `present(fb, width, height)`: the pixels in row-major order (R243) -/
  | present (pixels : List Word) (width height : Nat)
  /-- the buffer of `generate(n)` (R310) -/
  | samples (buffer : List Sample)
  /-- the answer to a host `read8` (R83) -/
  | byteRead (v : Byte)
  /-- the answer to a host `read32` (R83) -/
  | wordRead (v : Word)
deriving DecidableEq, Repr

/-- One call the host makes on the CORE after the cartridge is loaded (R8). -/
inductive Action where
  /-- `step()`: one instruction -/
  | cpu
  /-- `render()`: one render pass (R240) -/
  | render
  /-- `generate(n)`: n samples (R310) -/
  | generate (n : Nat)
  /-- the host's `write8` (R83) -/
  | write8 (addr : Word) (v : Byte)
  /-- the host's `write32` (R83) -/
  | write32 (addr v : Word)
  /-- the host's `read8` (R83) -/
  | read8 (addr : Word)
  /-- the host's `read32` (R83) -/
  | read32 (addr : Word)
  /-- one turn of the driving loop with this input byte (R386) -/
  | frame (input : Byte)
deriving DecidableEq, Repr

/-- The state of the CORE, with the parameters and the host's schedule as plain data beside it. -/
structure State where
  /-- The parameters of R10, fixed for the machine (the MODEL's field; entry 1). -/
  cfg : Config
  /-- `x[0]` to `x[31]` (R20); slot 0 is never read, see `State.reg` (R21; entry 6). -/
  regs : Vector Word 32
  /-- The program counter (R22). -/
  pc : Word
  /-- The ROM array, by offset (R29). -/
  rom : Memory 8
  /-- The RAM array, by offset (R30). -/
  ram : Memory 8
  /-- The VRAM array, by offset, with the display-mode record, tiles and pixels in it (R31, R35 to R37). -/
  vram : Memory 8
  /-- The joypad array, by offset (R32). -/
  joy : Memory 8
  /-- The bridge byte (R34). -/
  bridge : Byte
  /-- The four channel records (R38). -/
  apu : Vector Channel 4
  /-- The framebuffer: pixel (x, y) at index 160 y + x (R40). -/
  fb : Memory 32
  /-- The host's coming calls, next first; with none listed the host calls `step()` (the MODEL's field; entry 12). -/
  agenda : List Action
  /-- The sample passes that fall in front of the coming APU register writes: each such write takes one entry, the sample counts of any
  number of passes in order; with none listed no pass falls there (the MODEL's field, R73, R80; entry 14). -/
  audioTurns : List (List Nat)
  /-- What has been handed to the host, oldest first (the MODEL's field; entry 18). -/
  out : List Output
deriving DecidableEq, Repr

/-- Nothing faults: the CPU has "no halt, interrupt, or fault state" (R24, R340). No constructor, so no meaning can answer a fault. -/
inductive Fault where
deriving DecidableEq, Repr

/-- Why an instruction has no meaning. -/
inductive Refusal where
  /-- Raised by an arm of `exec` whose instruction has no meaning yet; safe, since the machine stops. No arm does: every row of the
  table has its meaning. -/
  | notModelled (mnemonic : String)
deriving DecidableEq, Repr

/-- A channel at reset: disabled, square, frequency 0, volume 0, phase 0 (R38, R380). -/
def Channel.off : Channel := ⟨false, .square, 0#16, 0#8, 0⟩

/-- The state at reset of a machine with parameters c and no cartridge: every register 0, pc at ROM_ENTRY, every array 0, every
channel off, every pixel 0 (R380). -/
def State.initial (c : Config) : State where
  cfg := c
  regs := Vector.replicate 32 0#32
  pc := c.romEntry
  rom := []
  ram := []
  vram := []
  joy := []
  bridge := 0#8
  apu := Vector.replicate 4 Channel.off
  fb := []
  agenda := []
  audioTurns := []
  out := []

/-- The machine right after reset, in the reference configuration of R10, before a cartridge is loaded (R380; entry 13). -/
def State.reset : State := State.initial Config.reference

end Sys2Proof.Machine
end

