-- ==== Sys2Proof/Machine/Memory.lean ====
section
/-! DEFINITION. Reading and writing a sparse array, and the canonical form every array is kept in (entry 5). -/

namespace Sys2Proof.Machine

/-- The value at an index; an unlisted index holds 0. -/
def Memory.read {w : Nat} : Memory w → Nat → BitVec w
  | [], _ => 0#w
  | (k, x) :: rest, a => if a = k then x else Memory.read rest a

/-- Store a value at an index, keeping the canonical form: storing 0 removes the entry. -/
def Memory.write {w : Nat} : Memory w → Nat → BitVec w → Memory w
  | [], a, v => if v = 0#w then [] else [(a, v)]
  | (k, x) :: rest, a, v =>
    if a < k then (if v = 0#w then (k, x) :: rest else (a, v) :: (k, x) :: rest)
    else if a = k then (if v = 0#w then rest else (k, v) :: rest)
    else (k, x) :: Memory.write rest a v

/-- The canonical form of an array of n cells: indices strictly rising and below n, no listed value 0. -/
abbrev Memory.wf {w : Nat} (n : Nat) (m : Memory w) : Prop :=
  m.Pairwise (fun c d => c.1 < d.1) ∧ ∀ c ∈ m, c.1 < n ∧ c.2 ≠ 0#w

/-- The array of n cells that holds `f i` at each index i, in canonical form. -/
def Memory.ofFn {w : Nat} (n : Nat) (f : Nat → BitVec w) : Memory w :=
  (List.range n).filterMap fun i => if f i = 0#w then none else some (i, f i)

/-- The array that holds the listed values from index `start` on. -/
def Memory.ofList {w : Nat} (start : Nat) : List (BitVec w) → Memory w
  | [] => []
  | v :: rest => if v = 0#w then Memory.ofList (start + 1) rest else (start, v) :: Memory.ofList (start + 1) rest

/-- The little-endian 16-bit value at offset o of a byte array (R13, R35). -/
def Memory.read16 (m : Memory 8) (o : Nat) : BitVec 16 := m.read (o + 1) ++ m.read o

/-- The little-endian 32-bit value at offset o of a byte array (R13, R35). -/
def Memory.read32 (m : Memory 8) (o : Nat) : Word := m.read (o + 3) ++ m.read (o + 2) ++ m.read (o + 1) ++ m.read o

end Sys2Proof.Machine
end

