-- ==== Sys2Proof/Machine/Apu.lean ====
section
/-! DEFINITION. The APU: channel register writes, the sample generator, and the real number a sample stands for (49_apu.md). -/

namespace Sys2Proof.Machine

/-- CTRL bits 2:1 as a waveform (R302). -/
def waveformOf (v : BitVec 2) : Waveform :=
  if v = 0#2 then .square else if v = 1#2 then .sine else if v = 2#2 then .triangle else .noise

/-- Replace the low byte of a frequency (R301). -/
def withLowByte (f : BitVec 16) (v : Byte) : BitVec 16 := f.extractLsb' 8 8 ++ v

/-- Replace the high byte of a frequency (R301). -/
def withHighByte (f : BitVec 16) (v : Byte) : BitVec 16 := v ++ f.extractLsb' 0 8

/-- A write of FREQ_LO (R301). -/
def Channel.writeFreqLo (c : Channel) (v : Byte) : Channel := { c with freq := withLowByte c.freq v }

/-- A write of FREQ_HI (R301). -/
def Channel.writeFreqHi (c : Channel) (v : Byte) : Channel := { c with freq := withHighByte c.freq v }

/-- A write of CTRL: bit 0 enables, bits 2:1 select the waveform, bits 7:3 are ignored; enabling resets the phase, whether or not the
channel was enabled (R302). -/
def Channel.writeCtrl (c : Channel) (v : Byte) : Channel :=
  { c with
    en := v.getLsbD 0
    wave := waveformOf (v.extractLsb' 1 2)
    phase := if v.getLsbD 0 then 0 else c.phase }

/-- A write of VOL (R303). -/
def Channel.writeVol (c : Channel) (v : Byte) : Channel := { c with vol := v }

/-- A write of register r = 0, 1, 2, 3 of a channel (R300, R39). -/
def Channel.writeReg (c : Channel) (r : Nat) (v : Byte) : Channel :=
  match r with
  | 0 => c.writeFreqLo v
  | 1 => c.writeFreqHi v
  | 2 => c.writeCtrl v
  | 3 => c.writeVol v
  | _ => c

/-- A change of each channel record, by its number. -/
def onChannels (f : Nat → Channel → Channel) (apu : Vector Channel 4) : Vector Channel 4 :=
  #v[f 0 apu[0], f 1 apu[1], f 2 apu[2], f 3 apu[3]]

/-- The channel records after the register write of offset o < 16 (R300). -/
def apuSet (apu : Vector Channel 4) (o : Nat) (v : Byte) : Vector Channel 4 :=
  onChannels (fun c ch => if c = o / 4 then ch.writeReg (o % 4) v else ch) apu

/-! ## Sample generation -/

/-- The channel contributes and its phase moves: enabled with a non-zero frequency (R310). -/
def Channel.sounding (c : Channel) : Bool := c.en && decide (c.freq ≠ 0#16)

/-- The channel's part in the next sample, with the phase before the advance (R310). -/
def Channel.voice (c : Channel) : Option Voice := if c.sounding then some ⟨c.wave, c.phase, c.vol⟩ else none

/-- Advance a phase by freq / 48000 and wrap into [0, 1) (R310). -/
def advancePhase (p : Phase) (f : BitVec 16) : Phase :=
  ⟨(p.val + f.toNat) % sampleRate, Nat.mod_lt _ (by decide)⟩

/-- The channel after one sample; a channel that is not sounding keeps its phase (R310, D38). -/
def Channel.tick (c : Channel) : Channel := if c.sounding then { c with phase := advancePhase c.phase c.freq } else c

/-- The channel records after one sample (R310). -/
def apuTick (apu : Vector Channel 4) : Vector Channel 4 := onChannels (fun _ => Channel.tick) apu

/-- The next sample (R310). -/
def sampleNow (apu : Vector Channel 4) : Sample := apu.toList.filterMap Channel.voice

/-- The channel records after n samples (R310). -/
def apuAfter : Nat → Vector Channel 4 → Vector Channel 4
  | 0, apu => apu
  | n + 1, apu => apuAfter n (apuTick apu)

/-- The buffer of n samples (R310). -/
def samplesOf : Nat → Vector Channel 4 → List Sample
  | 0, _ => []
  | n + 1, apu => sampleNow apu :: samplesOf n (apuTick apu)

/-- `generate(n)`: the whole pass is one transition (R80, R310). The buffer is handed to the host. -/
def State.generate (s : State) (n : Nat) : State :=
  { s with apu := apuAfter n s.apu, out := s.out ++ [.samples (samplesOf n s.apu)] }

/-- Passes of these sample counts, one after the other (R80). -/
def State.generateAll (s : State) (ns : List Nat) : State := ns.foldl State.generate s

/-- The sample passes that fall in front of this register write, as the host's schedule has them (R73, R80; entry 14). -/
def State.audioTurn (s : State) : State :=
  match s.audioTurns with
  | [] => s
  | ns :: rest => ({ s with audioTurns := rest } : State).generateAll ns

/-- `apu_write8(o, v)` (R300): a register write at offsets 0 to 15, nothing at offsets 16 to 255 (R304). -/
def State.apuWrite8 (s : State) (o : Nat) (v : Byte) : State :=
  if o < 16 then
    let s' := s.audioTurn
    { s' with apu := apuSet s'.apu o v }
  else s

/-- `apu_read8(o)`: always 0 (R304, R64). -/
def apuRead8 (_o : Nat) : Byte := 0#8

/-! ## The real value of a sample -/

/-- The phase as a number in [0, 1). -/
def phaseValue (p : Phase) : ℚ := p.val / sampleRate

/-- NOISE_FN, held to [-1, 1] (R10, R311; the value is free, entry 17). -/
noncomputable def noiseValue (p : Phase) : ℝ := max (-1) (min 1 (Config.noiseFree p))

/-- `wave_value` (R311). -/
noncomputable def waveValue (k : Waveform) (p : Phase) : ℝ :=
  match k with
  | .square => if phaseValue p < 1 / 2 then 1 else -1
  | .sine => Real.sin (2 * Real.pi * (phaseValue p : ℝ))
  | .triangle => if phaseValue p < 1 / 2 then 4 * (phaseValue p : ℝ) - 1 else 3 - 4 * (phaseValue p : ℝ)
  | .noise => noiseValue p

/-- A voice's term of the sum: waveform value times volume times the mix attenuation 0.25 (R310). -/
noncomputable def voiceValue (v : Voice) : ℝ := waveValue v.wave v.phase * ((v.vol.toNat : ℝ) / 255) * (1 / 4)

/-- The real number a sample stands for (R310, R312). -/
noncomputable def sampleValue (s : Sample) : ℝ := (s.map voiceValue).sum

end Sys2Proof.Machine
end

