-- ==== Sys2Proof/Machine/Bus.lean ====
section
/-! DEFINITION. The Bus: region dispatch, the byte operations, and the wider ones built of them (20_memory.md). -/

namespace Sys2Proof.Machine

/-- Where an address leads: a window with the offset in it, or nowhere (R28). -/
inductive Region where
  | rom (o : Nat)
  | ram (o : Nat)
  | vram (o : Nat)
  | joy (o : Nat)
  | apu (o : Nat)
  | bridge
  | unmapped
deriving DecidableEq, Repr

/-- The dispatch of R60 and R61, tests in their order. The windows of a valid configuration are disjoint, so the order decides nothing (R11). -/
def regionAt (c : Config) (a : Nat) : Region :=
  if c.romBase ≤ a ∧ a < c.romBase + arrayBytes then .rom (a - c.romBase)
  else if c.ramBase ≤ a ∧ a < c.ramBase + arrayBytes then .ram (a - c.ramBase)
  else if c.vramBase ≤ a ∧ a < c.vramBase + arrayBytes then .vram (a - c.vramBase)
  else if c.joyBase ≤ a ∧ a < c.joyBase + ioBytes then .joy (a - c.joyBase)
  else if c.apuBase ≤ a ∧ a < c.apuBase + ioBytes then .apu (a - c.apuBase)
  else if a = c.bridgeAddr then .bridge
  else .unmapped

/-- The region of a 32-bit address, compared as an unsigned value (R60). -/
def State.region (s : State) (a : Word) : Region := regionAt s.cfg a.toNat

/-- The byte a region's cell holds (R60). -/
def State.readAt (s : State) (r : Region) : Byte :=
  match r with
  | .rom o => s.rom.read o
  | .ram o => s.ram.read o
  | .vram o => s.vram.read o
  | .joy o => s.joy.read o
  | .apu o => apuRead8 o
  | .bridge => s.bridge
  | .unmapped => 0#8

/-- A byte written to a region's cell (R61): ROM and unmapped writes are dropped (R62, R65). -/
def State.writeAt (s : State) (r : Region) (v : Byte) : State :=
  match r with
  | .rom _ => s
  | .ram o => { s with ram := s.ram.write o v }
  | .vram o => { s with vram := s.vram.write o v }
  | .joy o => { s with joy := s.joy.write o v }
  | .apu o => s.apuWrite8 o v
  | .bridge => { s with bridge := v }
  | .unmapped => s

/-- `read8` (R60): no side effect anywhere (R72). -/
def State.read8 (s : State) (a : Word) : Byte := s.readAt (s.region a)

/-- `write8` (R61). -/
def State.write8 (s : State) (a : Word) (v : Byte) : State := s.writeAt (s.region a) v

/-- `MemRead(a, 2)`: two byte reads, little-endian, addresses modulo 2^32 (R66, R70). -/
def State.read16 (s : State) (a : Word) : BitVec 16 := s.read8 (a + 1) ++ s.read8 a

/-- `MemRead(a, 4)`, the source's read32 (R66, R68, R70). -/
def State.read32 (s : State) (a : Word) : Word := s.read8 (a + 3) ++ s.read8 (a + 2) ++ s.read8 (a + 1) ++ s.read8 a

/-- `MemWrite(a, 2, v)`: two byte writes in ascending order (R67). -/
def State.write16 (s : State) (a : Word) (v : BitVec 16) : State :=
  (s.write8 a (v.extractLsb' 0 8)).write8 (a + 1) (v.extractLsb' 8 8)

/-- `MemWrite(a, 4, v)`, the source's write32: four byte writes in ascending order (R67). -/
def State.write32 (s : State) (a v : Word) : State :=
  (((s.write8 a (v.extractLsb' 0 8)).write8 (a + 1) (v.extractLsb' 8 8)).write8 (a + 2) (v.extractLsb' 16 8)).write8
    (a + 3) (v.extractLsb' 24 8)

end Sys2Proof.Machine
end

