-- ==== Sys2Proof/Machine/Ops.lean ====
section
/-! DEFINITION. The operations every meaning is made of: registers, the program counter, instruction fetch, and the no-op of an
unrecognised word. The hardware takes no exception and returns from none (60_exceptions.md R340, R348, R349), so none is defined. -/

namespace Sys2Proof.Machine

/-- The outcome of a step of this machine. -/
abbrev Result := Host.Outcome State Fault Refusal

/-- `x[r]`: register 0 reads as zero (R20, R21). -/
def State.reg (s : State) (r : RegIdx) : Word := if r = 0#5 then 0#32 else s.regs[r.toNat]'r.isLt

/-- `x[r] <- v`: a write of register 0 is dropped (R21). -/
def State.setReg (s : State) (r : RegIdx) (v : Word) : State :=
  if r = 0#5 then s else { s with regs := s.regs.set r.toNat v r.isLt }

/-- `pc4`: the address after this instruction, modulo 2^32 (R13, R23). -/
def State.pc4 (s : State) : Word := s.pc + 4#32

/-- `pc <- a`. -/
def State.setPc (s : State) (a : Word) : State := { s with pc := a }

/-- Go on to the next instruction in memory (R24). -/
def State.advance (s : State) : State := s.setPc s.pc4

/-- The end of an instruction that computes: `x[rd] <- v`, pc at pc4 (R24). -/
def State.writeBack (s : State) (rd : RegIdx) (v : Word) : State := (s.setReg rd v).advance

/-- The end of a jump: `x[rd] <- pc4`, then pc at the target (R140, R141). -/
def State.linkTo (s : State) (rd : RegIdx) (target : Word) : State := (s.setReg rd s.pc4).setPc target

/-- The end of a branch: to the target when taken, else to pc4 (R150). -/
def State.branchIf (s : State) (taken : Bool) (target : Word) : State := if taken then s.setPc target else s.advance

/-- The instruction word at pc: four byte reads through the Bus (R24, R66, R79). -/
def State.fetch (s : State) : Word := s.read32 s.pc

/-- An UNRECOGNISED word: pc to pc4 and nothing else (R120, R341). -/
def execUnrecognised (s : State) : Result := .next s.advance

end Sys2Proof.Machine
end

