-- ==== Sys2Proof/Machine/Operands.lean ====
section
/-! DEFINITION. The operand forms: widened immediates, effective addresses, jump targets, shift amounts (30_encoding.md R102, R103). -/

namespace Sys2Proof.Machine

/-- `immI` or `immS`: a 12-bit immediate sign-extended to 32 bits (R102, R103). -/
def signExtended (imm : BitVec 12) : Word := imm.signExtend 32

/-- `immU`: the 20 bits with twelve zeros below (R103). -/
def upperImmediate (imm : BitVec 20) : Word := imm ++ 0#12

/-- The effective address of a load or store, base register plus displacement modulo 2^32 (R160, R170). -/
def State.effectiveAddress (s : State) (rs1 : RegIdx) (imm : BitVec 12) : Word := s.reg rs1 + signExtended imm

/-- The target of a branch: the branch's own address plus immB (R150, C1). -/
def State.branchTarget (s : State) (offset : BitVec 13) : Word := s.pc + offset.signExtend 32

/-- The target of JAL: the jump's own address plus immJ (R140, R142, C1). -/
def State.jumpTarget (s : State) (offset : BitVec 21) : Word := s.pc + offset.signExtend 32

/-- The target of JALR: register plus immI with bit 0 cleared (R141). -/
def State.indirectTarget (s : State) (rs1 : RegIdx) (imm : BitVec 12) : Word :=
  (s.reg rs1 + signExtended imm) &&& 0xFFFFFFFE#32

/-- The amount of a register shift: the low five bits (R200). -/
def shiftAmount (b : Word) : Nat := (b.extractLsb' 0 5).toNat

end Sys2Proof.Machine
end

