-- ==== Sys2Proof/Machine/Flags.lean ====
section
/-! DEFINITION. The CPU has no flags (10_state.md R25). What stands in their place are the comparisons of the branches and of the
set-less-than instructions. -/

namespace Sys2Proof.Machine

/-- BEQ's condition (R151). -/
def isEqual (a b : Word) : Bool := decide (a = b)

/-- The signed comparison of BLT, SLT, SLTI; BGE is its negation (R153, R154, R204). -/
def isLessSigned (a b : Word) : Bool := decide (a.toInt < b.toInt)

/-- The unsigned comparison of BLTU, SLTU, SLTIU; BGEU is its negation (R155, R156, R205). -/
def isLessUnsigned (a b : Word) : Bool := decide (a.toNat < b.toNat)

/-- The 32-bit value 1 or 0 of a comparison (R182). -/
def boolWord (b : Bool) : Word := if b then 1#32 else 0#32

end Sys2Proof.Machine
end

