-- ==== Sys2Proof/Machine/Branches.lean ====
section
/-! DEFINITION. The six conditional branches (42_branches.md R150): no register is written, the target is never checked. -/

namespace Sys2Proof.Machine

/-- BEQ (R151). -/
def execBeq (rs1 rs2 : RegIdx) (offset : BitVec 13) (s : State) : Result :=
  .next (s.branchIf (isEqual (s.reg rs1) (s.reg rs2)) (s.branchTarget offset))

/-- BNE (R152). -/
def execBne (rs1 rs2 : RegIdx) (offset : BitVec 13) (s : State) : Result :=
  .next (s.branchIf (!isEqual (s.reg rs1) (s.reg rs2)) (s.branchTarget offset))

/-- BLT (R153). -/
def execBlt (rs1 rs2 : RegIdx) (offset : BitVec 13) (s : State) : Result :=
  .next (s.branchIf (isLessSigned (s.reg rs1) (s.reg rs2)) (s.branchTarget offset))

/-- BGE (R154). -/
def execBge (rs1 rs2 : RegIdx) (offset : BitVec 13) (s : State) : Result :=
  .next (s.branchIf (!isLessSigned (s.reg rs1) (s.reg rs2)) (s.branchTarget offset))

/-- BLTU (R155). -/
def execBltu (rs1 rs2 : RegIdx) (offset : BitVec 13) (s : State) : Result :=
  .next (s.branchIf (isLessUnsigned (s.reg rs1) (s.reg rs2)) (s.branchTarget offset))

/-- BGEU (R156). -/
def execBgeu (rs1 rs2 : RegIdx) (offset : BitVec 13) (s : State) : Result :=
  .next (s.branchIf (!isLessUnsigned (s.reg rs1) (s.reg rs2)) (s.branchTarget offset))

end Sys2Proof.Machine
end

