-- ==== Sys2Proof/Machine/Jumps.lean ====
section
/-! DEFINITION. JAL and JALR (41_jumps.md). -/

namespace Sys2Proof.Machine

/-- JAL (R140, R142). -/
def execJal (rd : RegIdx) (offset : BitVec 21) (s : State) : Result := .next (s.linkTo rd (s.jumpTarget offset))

/-- JALR: the target is computed from the old `x[rs1]`, before the link is written (R141, D4; entry 7). -/
def execJalr (rd rs1 : RegIdx) (imm : BitVec 12) (s : State) : Result := .next (s.linkTo rd (s.indirectTarget rs1 imm))

end Sys2Proof.Machine
end

