-- ==== Sys2Proof/Machine/Loads.lean ====
section
/-! DEFINITION. The five loads (43_loads.md R160): any address, no alignment, the widened value to `x[rd]`. -/

namespace Sys2Proof.Machine

/-- LB: one byte, sign-extended (R161). -/
def execLb (rd rs1 : RegIdx) (imm : BitVec 12) (s : State) : Result :=
  .next (s.writeBack rd ((s.read8 (s.effectiveAddress rs1 imm)).signExtend 32))

/-- LH: two bytes, sign-extended (R162). -/
def execLh (rd rs1 : RegIdx) (imm : BitVec 12) (s : State) : Result :=
  .next (s.writeBack rd ((s.read16 (s.effectiveAddress rs1 imm)).signExtend 32))

/-- LW: four bytes (R163). -/
def execLw (rd rs1 : RegIdx) (imm : BitVec 12) (s : State) : Result :=
  .next (s.writeBack rd (s.read32 (s.effectiveAddress rs1 imm)))

/-- LBU: one byte, zero-extended (R164). -/
def execLbu (rd rs1 : RegIdx) (imm : BitVec 12) (s : State) : Result :=
  .next (s.writeBack rd ((s.read8 (s.effectiveAddress rs1 imm)).zeroExtend 32))

/-- LHU: two bytes, zero-extended (R165). -/
def execLhu (rd rs1 : RegIdx) (imm : BitVec 12) (s : State) : Result :=
  .next (s.writeBack rd ((s.read16 (s.effectiveAddress rs1 imm)).zeroExtend 32))

end Sys2Proof.Machine
end

