-- ==== Sys2Proof/Machine/MulDiv.lean ====
section
/-! DEFINITION. Multiply, divide and remainder (47_muldiv.md). The zero divisor follows the policy R220 takes from the source's
recommendation (D7), the overflow case D8 (entry 8). -/

namespace Sys2Proof.Machine

/-- The value of DIV (R222): rounded toward zero. -/
def divSigned (a b : Word) : Word :=
  if b = 0#32 then 0xFFFFFFFF#32
  else if a = 0x80000000#32 ∧ b = 0xFFFFFFFF#32 then 0x80000000#32
  else BitVec.ofInt 32 (a.toInt.tdiv b.toInt)

/-- The value of DIVU (R223). -/
def divUnsigned (a b : Word) : Word := if b = 0#32 then 0xFFFFFFFF#32 else BitVec.ofNat 32 (a.toNat / b.toNat)

/-- The value of REM (R224): the sign of the dividend. -/
def remSigned (a b : Word) : Word :=
  if b = 0#32 then a
  else if a = 0x80000000#32 ∧ b = 0xFFFFFFFF#32 then 0#32
  else BitVec.ofInt 32 (a.toInt - b.toInt * a.toInt.tdiv b.toInt)

/-- The value of REMU (R225). -/
def remUnsigned (a b : Word) : Word := if b = 0#32 then a else BitVec.ofNat 32 (a.toNat % b.toNat)

/-- MUL, the low 32 bits of the product (R221). -/
def execMul (rd rs1 rs2 : RegIdx) (s : State) : Result :=
  .next (s.writeBack rd (s.reg rs1 * s.reg rs2))

/-- DIV, signed (R222). -/
def execDiv (rd rs1 rs2 : RegIdx) (s : State) : Result :=
  .next (s.writeBack rd (divSigned (s.reg rs1) (s.reg rs2)))

/-- DIVU, unsigned (R223). -/
def execDivu (rd rs1 rs2 : RegIdx) (s : State) : Result :=
  .next (s.writeBack rd (divUnsigned (s.reg rs1) (s.reg rs2)))

/-- REM, signed (R224). -/
def execRem (rd rs1 rs2 : RegIdx) (s : State) : Result :=
  .next (s.writeBack rd (remSigned (s.reg rs1) (s.reg rs2)))

/-- REMU, unsigned (R225). -/
def execRemu (rd rs1 rs2 : RegIdx) (s : State) : Result :=
  .next (s.writeBack rd (remUnsigned (s.reg rs1) (s.reg rs2)))

end Sys2Proof.Machine
end

