-- ==== Sys2Proof/Machine/Op.lean ====
section
/-! DEFINITION. The ten register-register operations of 46_op.md (R200). Shifts use the low five bits of `x[rs2]`. -/

namespace Sys2Proof.Machine

/-- ADD, modulo 2^32 (R201). -/
def execAdd (rd rs1 rs2 : RegIdx) (s : State) : Result :=
  .next (s.writeBack rd (s.reg rs1 + s.reg rs2))

/-- SUB, modulo 2^32 (R202). -/
def execSub (rd rs1 rs2 : RegIdx) (s : State) : Result :=
  .next (s.writeBack rd (s.reg rs1 - s.reg rs2))

/-- SLL, zeros enter at bit 0 (R203). -/
def execSll (rd rs1 rs2 : RegIdx) (s : State) : Result :=
  .next (s.writeBack rd (s.reg rs1 <<< shiftAmount (s.reg rs2)))

/-- SLT, signed (R204). -/
def execSlt (rd rs1 rs2 : RegIdx) (s : State) : Result :=
  .next (s.writeBack rd (boolWord (isLessSigned (s.reg rs1) (s.reg rs2))))

/-- SLTU, unsigned (R205). -/
def execSltu (rd rs1 rs2 : RegIdx) (s : State) : Result :=
  .next (s.writeBack rd (boolWord (isLessUnsigned (s.reg rs1) (s.reg rs2))))

/-- XOR, bitwise (R206). -/
def execXor (rd rs1 rs2 : RegIdx) (s : State) : Result :=
  .next (s.writeBack rd (s.reg rs1 ^^^ s.reg rs2))

/-- SRL, zeros enter at bit 31 (R207). -/
def execSrl (rd rs1 rs2 : RegIdx) (s : State) : Result :=
  .next (s.writeBack rd (s.reg rs1 >>> shiftAmount (s.reg rs2)))

/-- SRA, copies of bit 31 enter at bit 31 (R208). -/
def execSra (rd rs1 rs2 : RegIdx) (s : State) : Result :=
  .next (s.writeBack rd ((s.reg rs1).sshiftRight (shiftAmount (s.reg rs2))))

/-- OR, bitwise (R209). -/
def execOr (rd rs1 rs2 : RegIdx) (s : State) : Result :=
  .next (s.writeBack rd (s.reg rs1 ||| s.reg rs2))

/-- AND, bitwise (R210). -/
def execAnd (rd rs1 rs2 : RegIdx) (s : State) : Result :=
  .next (s.writeBack rd (s.reg rs1 &&& s.reg rs2))

end Sys2Proof.Machine
end

