-- ==== Sys2Proof/Machine/OpImm.lean ====
section
/-! DEFINITION. The nine register-immediate operations (45_op_imm.md R180). The immediate is sign-extended for every one of the six
(R102); arithmetic wraps, no flag is written. -/

namespace Sys2Proof.Machine

/-- ADDI, modulo 2^32 (R181). -/
def execAddi (rd rs1 : RegIdx) (imm : BitVec 12) (s : State) : Result :=
  .next (s.writeBack rd (s.reg rs1 + signExtended imm))

/-- SLTI, signed (R182). -/
def execSlti (rd rs1 : RegIdx) (imm : BitVec 12) (s : State) : Result :=
  .next (s.writeBack rd (boolWord (isLessSigned (s.reg rs1) (signExtended imm))))

/-- SLTIU, the sign-extended immediate read as unsigned (R183). -/
def execSltiu (rd rs1 : RegIdx) (imm : BitVec 12) (s : State) : Result :=
  .next (s.writeBack rd (boolWord (isLessUnsigned (s.reg rs1) (signExtended imm))))

/-- XORI, bitwise (R184). -/
def execXori (rd rs1 : RegIdx) (imm : BitVec 12) (s : State) : Result :=
  .next (s.writeBack rd (s.reg rs1 ^^^ signExtended imm))

/-- ORI, bitwise (R185). -/
def execOri (rd rs1 : RegIdx) (imm : BitVec 12) (s : State) : Result :=
  .next (s.writeBack rd (s.reg rs1 ||| signExtended imm))

/-- ANDI, bitwise (R186). -/
def execAndi (rd rs1 : RegIdx) (imm : BitVec 12) (s : State) : Result :=
  .next (s.writeBack rd (s.reg rs1 &&& signExtended imm))

/-- SLLI, zeros enter at bit 0 (R187). -/
def execSlli (rd rs1 : RegIdx) (shamt : BitVec 5) (s : State) : Result :=
  .next (s.writeBack rd (s.reg rs1 <<< shamt.toNat))

/-- SRLI, zeros enter at bit 31 (R188). -/
def execSrli (rd rs1 : RegIdx) (shamt : BitVec 5) (s : State) : Result :=
  .next (s.writeBack rd (s.reg rs1 >>> shamt.toNat))

/-- SRAI, copies of bit 31 enter at bit 31 (R189). -/
def execSrai (rd rs1 : RegIdx) (shamt : BitVec 5) (s : State) : Result :=
  .next (s.writeBack rd ((s.reg rs1).sshiftRight shamt.toNat))

end Sys2Proof.Machine
end

