-- ==== Sys2Proof/Machine/Stores.lean ====
section
/-! DEFINITION. The three stores (44_stores.md R170): the low bytes of `x[rs2]`, byte by byte in ascending order through the Bus. -/

namespace Sys2Proof.Machine

/-- SB: the low byte (R171). -/
def execSb (rs2 rs1 : RegIdx) (imm : BitVec 12) (s : State) : Result :=
  .next (s.write8 (s.effectiveAddress rs1 imm) ((s.reg rs2).extractLsb' 0 8)).advance

/-- SH: the low two bytes (R172). -/
def execSh (rs2 rs1 : RegIdx) (imm : BitVec 12) (s : State) : Result :=
  .next (s.write16 (s.effectiveAddress rs1 imm) ((s.reg rs2).extractLsb' 0 16)).advance

/-- SW: all four bytes (R173). -/
def execSw (rs2 rs1 : RegIdx) (imm : BitVec 12) (s : State) : Result :=
  .next (s.write32 (s.effectiveAddress rs1 imm) (s.reg rs2)).advance

end Sys2Proof.Machine
end

