-- ==== Sys2Proof/Machine/UpperImm.lean ====
section
/-! DEFINITION. LUI and AUIPC (40_upper_immediate.md). A meaning starts with pc at the instruction's own address, pc0. -/

namespace Sys2Proof.Machine

/-- LUI (R130). -/
def execLui (rd : RegIdx) (imm : BitVec 20) (s : State) : Result := .next (s.writeBack rd (upperImmediate imm))

/-- AUIPC: the base is pc0 (R131). -/
def execAuipc (rd : RegIdx) (imm : BitVec 20) (s : State) : Result := .next (s.writeBack rd (s.pc + upperImmediate imm))

end Sys2Proof.Machine
end

