-- ==== Sys2Proof/Machine/Raster.lean ====
section
/-! DEFINITION. The rasterizer: plot, line, filled triangle (48_gpu.md R270 to R273), over exact integers. -/

namespace Sys2Proof.Machine

/-- A point of the plane, x to the right, y downward. -/
abbrev Point := Int × Int

/-- The point is on the screen (R241). -/
def inBounds (p : Point) : Bool := decide (0 ≤ p.1 ∧ p.1 < screenWidth ∧ 0 ≤ p.2 ∧ p.2 < screenHeight)

/-- The framebuffer index of an on-screen point (R40). -/
def pixelIndex (p : Point) : Nat := screenWidth * p.2.toNat + p.1.toNat

/-- `plot` (R270): a point outside the screen is skipped. -/
def plot (fb : Memory 32) (p : Point) (col : Word) : Memory 32 := if inBounds p then fb.write (pixelIndex p) col else fb

/-- `plot` at each of the points in turn. -/
def plotAll (fb : Memory 32) (ps : List Point) (col : Word) : Memory 32 := ps.foldl (fun f p => plot f p col) fb

/-- The trace of R271 from (x, y) to (x1, y1), at most `fuel` points after this one. -/
def lineLoop (x1 y1 dx dy sx sy : Int) : Nat → Int → Int → Int → List Point
  | 0, x, y, _ => [(x, y)]
  | fuel + 1, x, y, err =>
    if x = x1 ∧ y = y1 then [(x, y)]
    else
      let e2 := 2 * err
      let stepX := decide (e2 ≥ dy)
      let stepY := decide (e2 ≤ dx)
      (x, y) :: lineLoop x1 y1 dx dy sx sy fuel (if stepX then x + sx else x) (if stepY then y + sy else y)
        (err + (if stepX then dy else 0) + (if stepY then dx else 0))

/-- The steps of a line's trace: the longer of its two extents (R271). -/
def lineSteps (p q : Point) : Nat := max (q.1 - p.1).natAbs (q.2 - p.2).natAbs

/-- The points of `line(p, q)` in the order of the trace (R271); the trace has one point more than steps, so the fuel never cuts it. -/
def linePoints (p q : Point) : List Point :=
  let dx : Int := (q.1 - p.1).natAbs
  let dy : Int := -(q.2 - p.2).natAbs
  lineLoop q.1 q.2 dx dy (if p.1 < q.1 then 1 else -1) (if p.2 < q.2 then 1 else -1) (lineSteps p q) p.1 p.2 (dx + dy)

/-- `line` (R271). -/
def drawLine (fb : Memory 32) (p q : Point) (col : Word) : Memory 32 := plotAll fb (linePoints p q) col

/-- `edge` (R272): the x of the edge from p to q on scanline y, rounded toward zero. -/
def edgeX (p q : Point) (y : Int) : Int := (p.1 * (q.2 - p.2) + (y - p.2) * (q.1 - p.1)).tdiv (q.2 - p.2)

/-- Insert a vertex below those of smaller or equal y: the stable order of R272. -/
def insertByY (v : Point) : List Point → List Point
  | [] => [v]
  | w :: rest => if w.2 ≤ v.2 then w :: insertByY v rest else v :: w :: rest

/-- The vertices in ascending order of y, equal ones in input order (R272). -/
def sortByY (vs : List Point) : List Point := vs.foldl (fun acc v => insertByY v acc) []

/-- A horizontal span: from xl to xs on scanline y. -/
structure Span where
  xl : Int
  xs : Int
  y : Int
deriving DecidableEq, Repr

/-- The span of scanline y of the triangle with vertices sorted by y (R272). -/
def spanAt (v0 v1 v2 : Point) (y : Int) : Span :=
  ⟨edgeX v0 v2 y, if y ≤ v1.2 ∧ v0.2 < v1.2 then edgeX v0 v1 y else edgeX v1 v2 y, y⟩

/-- The spans of the triangle with sorted vertices: one scanline from the least to the greatest x (R273), or one span for every
scanline from the top vertex to the bottom vertex (R272). -/
def spansSorted (v0 v1 v2 : Point) : List Span :=
  if v0.2 = v2.2 then [⟨min v0.1 (min v1.1 v2.1), max v0.1 (max v1.1 v2.1), v0.2⟩]
  else (List.range ((v2.2 - v0.2).toNat + 1)).map fun (k : Nat) => spanAt v0 v1 v2 (v0.2 + (k : Int))

/-- The spans of a triangle (R272, R273). -/
def triangleSpans (a b c : Point) : List Span :=
  match sortByY [a, b, c] with
  | [v0, v1, v2] => spansSorted v0 v1 v2
  | _ => []

/-- A span drawn with the line primitive (R272). -/
def drawSpan (fb : Memory 32) (sp : Span) (col : Word) : Memory 32 := drawLine fb (sp.xl, sp.y) (sp.xs, sp.y) col

/-- `triangle` (R272, R273). -/
def drawTriangle (fb : Memory 32) (a b c : Point) (col : Word) : Memory 32 :=
  (triangleSpans a b c).foldl (fun f sp => drawSpan f sp col) fb

end Sys2Proof.Machine
end

