-- ==== Sys2Proof/Machine/Gpu.lean ====
section
/-! DEFINITION. The GPU: the display-mode record and the render pass in its three modes (48_gpu.md). The GPU reads and writes the
vram array directly, not through the Bus (10_state.md R31). -/

namespace Sys2Proof.Machine

/-- MODE (R35). -/
def State.modeField (s : State) : Word := s.vram.read32 s.cfg.modeOff

/-- SCROLL_X, signed (R35). -/
def State.scrollX (s : State) : Int := (s.vram.read32 s.cfg.scrollXOff).toInt

/-- SCROLL_Y, signed (R35). -/
def State.scrollY (s : State) : Int := (s.vram.read32 s.cfg.scrollYOff).toInt

/-- CMD (R35). -/
def State.cmdField (s : State) : Word := s.vram.read32 s.cfg.cmdOff

/-- COLOR (R35). -/
def State.colorField (s : State) : Word := s.vram.read32 s.cfg.colorOff

/-- Vertex i = 0, 1, 2: a signed 16-bit x and, two bytes on, a signed 16-bit y (R35). -/
def State.vertex (s : State) (i : Nat) : Point :=
  ((s.vram.read16 (s.cfg.vertOff + 4 * i)).toInt, (s.vram.read16 (s.cfg.vertOff + 4 * i + 2)).toInt)

/-- Mode 0: the pixel at index 160 y + x is the word at VRAM offset four times that (R245). -/
def State.framebufferPixel (s : State) (i : Nat) : Word := s.vram.read32 (4 * i)

/-- The tile number of the plane position (px, py) (R36, R250). -/
def State.tileNumber (s : State) (px py : Nat) : Nat :=
  (s.vram.read16 (s.cfg.tilemapOff + 2 * (40 * (py / 8) + px / 8))).toNat

/-- The VRAM offset of the tile pixel that covers the plane position (px, py) (R36, R250). -/
def State.tileOffset (s : State) (px py : Nat) : Nat := 256 * s.tileNumber px py + 4 * (8 * (py % 8) + px % 8)

/-- The pixel of the logical plane: 0 where the tile pixel does not lie wholly below TILE_AREA_END (R250, R252). -/
def State.planePixel (s : State) (px py : Nat) : Word :=
  if s.tileOffset px py + 4 ≤ s.cfg.tileAreaEnd then s.vram.read32 (s.tileOffset px py) else 0#32

/-- Mode 1: the screen pixel (x, y) is the plane pixel at the scrolled position, wrapped to 320 x 240 (R250). -/
def State.tilemapPixel (s : State) (i : Nat) : Word :=
  s.planePixel (((i % screenWidth : Nat) + s.scrollX) % 320).toNat (((i / screenWidth : Nat) + s.scrollY) % 240).toNat

/-- The framebuffer whose pixel at index i is `f i`. -/
def picture (f : Nat → Word) : Memory 32 := Memory.ofFn screenPixels f

/-- The 23 040 pixels of a framebuffer in row-major order (R243). -/
def pixelBuffer (fb : Memory 32) : List Word := (List.range screenPixels).map fb.read

/-- Mode 0's pass (R245). -/
def State.renderFramebuffer (s : State) : State := { s with fb := picture s.framebufferPixel }

/-- Mode 1's pass (R250). -/
def State.renderTilemap (s : State) : State := { s with fb := picture s.tilemapPixel }

/-- What the primitive armed in CMD leaves in the framebuffer: 1 a line, 2 a filled triangle, any other code nothing (R260, R261). -/
def State.primitive (s : State) : Memory 32 :=
  if s.cmdField = 1#32 then drawLine s.fb (s.vertex 0) (s.vertex 1) s.colorField
  else if s.cmdField = 2#32 then drawTriangle s.fb (s.vertex 0) (s.vertex 1) (s.vertex 2) s.colorField
  else s.fb

/-- The four bytes of CMD set to 0: the GPU's only write to VRAM (R262). -/
def State.clearedCmd (s : State) : Memory 8 :=
  (((s.vram.write s.cfg.cmdOff 0#8).write (s.cfg.cmdOff + 1) 0#8).write (s.cfg.cmdOff + 2) 0#8).write (s.cfg.cmdOff + 3) 0#8

/-- Mode 2's pass: a non-zero CMD is acted on and cleared, a zero CMD does nothing (R260). -/
def State.renderCommand (s : State) : State :=
  if s.cmdField = 0#32 then s else { s with fb := s.primitive, vram := s.clearedCmd }

/-- Hand the 23 040 pixels to the host in row-major order (R243). -/
def State.present (s : State) : State :=
  { s with out := s.out ++ [.present (pixelBuffer s.fb) screenWidth screenHeight] }

/-- One render pass (R240): exactly one strategy, chosen by MODE at the start; any other MODE leaves everything (R244). -/
def State.render (s : State) : State :=
  (if s.modeField = 0#32 then s.renderFramebuffer
    else if s.modeField = 1#32 then s.renderTilemap
    else if s.modeField = 2#32 then s.renderCommand
    else s).present

end Sys2Proof.Machine
end

