-- ==== Sys2Proof/Machine/HostCalls.lean ====
section
/-! DEFINITION. What the host does to the CORE (00_scope.md R8): the cartridge load, the frame loop, and the calls between CPU steps. -/

namespace Sys2Proof.Machine

/-- `load_rom(image)` (R383): the image from offset 0, cut to 2^24 bytes, the rest of ROM 0. It happens once, before the first step. -/
def State.loadRom (s : State) (image : List Byte) : State := { s with rom := Memory.ofList 0 (image.take arrayBytes) }

/-- The machine at reset with parameters c and a cartridge (R380). -/
def State.boot (c : Config) (image : List Byte) : State := (State.initial c).loadRom image

/-- The address of the input byte (R32, R386). -/
def State.inputAddr (s : State) : Word := BitVec.ofNat 32 (s.cfg.joyBase + s.cfg.joyInputOff)

/-- What is left of a frame once its input byte is written: the CPU steps, then the render pass (R386). -/
def State.frameRest (s : State) : List Action := List.replicate s.cfg.stepsPerFrame Action.cpu ++ [Action.render]

/-- One host call other than `step()`, from a state whose agenda holds the calls after it. -/
def State.perform (s : State) (a : Action) : State :=
  match a with
  | .cpu => s
  | .render => s.render
  | .generate n => s.generate n
  | .write8 addr v => s.write8 addr v
  | .write32 addr v => s.write32 addr v
  | .read8 addr => { s with out := s.out ++ [.byteRead (s.read8 addr)] }
  | .read32 addr => { s with out := s.out ++ [.wordRead (s.read32 addr)] }
  | .frame input =>
    let s' := s.write8 s.inputAddr input
    { s' with agenda := s.frameRest ++ s'.agenda }

/-- A byte placed where the Bus reads it, ROM included: what `load_rom`, or an earlier store, would have left there. Used only to place a
program (entry 13). -/
def State.poke (s : State) (a : Word) (v : Byte) : State :=
  match s.region a with
  | .rom o => { s with rom := s.rom.write o v }
  | .ram o => { s with ram := s.ram.write o v }
  | .vram o => { s with vram := s.vram.write o v }
  | .joy o => { s with joy := s.joy.write o v }
  | .bridge => { s with bridge := v }
  | .apu _ => s
  | .unmapped => s

/-- A word placed at an address, little-endian. -/
def State.pokeWord (s : State) (a w : Word) : State :=
  (((s.poke a (w.extractLsb' 0 8)).poke (a + 1) (w.extractLsb' 8 8)).poke (a + 2) (w.extractLsb' 16 8)).poke (a + 3)
    (w.extractLsb' 24 8)

end Sys2Proof.Machine
end

