-- ==== Sys2Proof/Machine/Step.lean ====
section
/-! DEFINITION. One step of the machine: a CPU step (10_state.md R24), or the host's next call. -/

namespace Sys2Proof.Machine

/-- One CPU step (R24): fetch at pc, decode, run the meaning; an unrecognised word is a no-op (R120). -/
def cpuStep (s : State) : Host.Outcome State Fault Refusal :=
  match decode s.fetch with
  | some i => exec i s
  | none => execUnrecognised s

/-- One step: the host's next call, which is `step()` where the agenda lists none (R7, R8; entry 12). -/
def step (s : State) : Host.Outcome State Fault Refusal :=
  match s.agenda with
  | [] => cpuStep s
  | .cpu :: rest => cpuStep { s with agenda := rest }
  | a :: rest => .next (({ s with agenda := rest } : State).perform a)

/-- s with the word w (its first nbits bits, the rest 0) stored at pc and no host call waiting, so that the next step fetches and runs it. -/
def State.withFetchWord (s : State) (nbits w : Nat) : State :=
  { s with agenda := [] }.pokeWord s.pc (BitVec.ofNat 32 (w % 2 ^ nbits))

end Sys2Proof.Machine
end

