-- ==== Sys2Proof/Safety.lean ====
section
/-! DEFINITION. The terms statements are made in: the invariant of every state a run reaches, what it is to change nothing, and what it
is for an instruction to complete. Nothing can go wrong on this machine (R340: no fault, no refusal), so a safe run is one whose states
meet the invariant. -/

namespace Sys2Proof.Machine

/-- The invariant: parameters that meet R11, register slot 0 at 0 (R21), every array in canonical form and inside its size. -/
structure State.Inv (s : State) : Prop where
  /-- R11 -/
  cfg : s.cfg.Valid
  /-- R21, R24: `x[0] <- 0` -/
  zero : s.regs[0] = 0#32
  /-- R29 -/
  rom : s.rom.wf arrayBytes
  /-- R30 -/
  ram : s.ram.wf arrayBytes
  /-- R31 -/
  vram : s.vram.wf arrayBytes
  /-- R32 -/
  joy : s.joy.wf ioBytes
  /-- R40 -/
  fb : s.fb.wf screenPixels

/-- The window is plain storage: what is written reads back (R63). -/
def isStorage : Region → Bool
  | .ram _ | .vram _ | .joy _ | .bridge => true
  | .rom _ | .apu _ | .unmapped => false

/-- The window is the APU's (R64). -/
def isApu : Region → Bool
  | .apu _ => true
  | .rom _ | .ram _ | .vram _ | .joy _ | .bridge | .unmapped => false

/-- Everything but registers and pc is the same. -/
structure SameBeyondCpu (s t : State) : Prop where
  cfg : t.cfg = s.cfg
  rom : t.rom = s.rom
  ram : t.ram = s.ram
  vram : t.vram = s.vram
  joy : t.joy = s.joy
  bridge : t.bridge = s.bridge
  apu : t.apu = s.apu
  fb : t.fb = s.fb
  agenda : t.agenda = s.agenda
  audioTurns : t.audioTurns = s.audioTurns
  out : t.out = s.out

/-- At s the instruction completes: it goes on at `target` with `x[rd]` holding v (register 0 still reading 0, R21), every other register,
every byte of memory and every other piece of state unchanged. -/
def WritesRegister (i : Instr) (s : State) (rd : RegIdx) (v target : Word) : Prop :=
  ∃ t, exec i s = .next t ∧ t.pc = target ∧ t.reg rd = (if rd = 0#5 then 0#32 else v) ∧ (∀ r, r ≠ rd → t.reg r = s.reg r) ∧
    (∀ a, t.read8 a = s.read8 a) ∧ SameBeyondCpu s t

/-- At s the instruction completes: it goes on at `target` with every register, every byte of memory and every other piece of state
unchanged. -/
def OnlyGoesTo (i : Instr) (s : State) (target : Word) : Prop :=
  ∃ t, exec i s = .next t ∧ t.pc = target ∧ (∀ r, t.reg r = s.reg r) ∧ (∀ a, t.read8 a = s.read8 a) ∧ SameBeyondCpu s t

/-- Byte writes through the Bus to n ascending addresses from `a` on, byte k being `f k` (R67). -/
def State.writeFrom (s : State) (a : Word) (f : Nat → Byte) (n : Nat) : State :=
  (List.range n).foldl (fun t k => t.write8 (a + BitVec.ofNat 32 k) (f k)) s

/-- The APU's own byte writes at n ascending offsets from o on, byte k being `f k` (R300). -/
def State.apuWriteFrom (s : State) (o : Nat) (f : Nat → Byte) (n : Nat) : State :=
  (List.range n).foldl (fun t k => t.apuWrite8 (o + k) (f k)) s

/-- At s the instruction completes and stores n bytes from `addr` on, byte k of the address range being byte k of `v`: it goes on at pc + 4;
every register is unchanged; every byte outside the range is unchanged; a byte of the range that is plain storage reads as stored; ROM,
the framebuffer, the parameters and the host's schedule are unchanged; and where no byte of the range lies in the APU window, the APU and
what went to the host are unchanged. Whatever windows the range touches, the state is that of n byte writes through the Bus in ascending
order; where the whole range lies in the APU window, that of n writes of the APU's own. -/
def StoresBytes (i : Instr) (s : State) (addr : Word) (n : Nat) (v : Word) : Prop :=
  ∃ t, exec i s = .next t ∧ t.pc = s.pc + 4#32 ∧ (∀ r, t.reg r = s.reg r) ∧
    (∀ a, (∀ k < n, a ≠ addr + BitVec.ofNat 32 k) → t.read8 a = s.read8 a) ∧
    (∀ k < n, isStorage (s.region (addr + BitVec.ofNat 32 k)) → t.read8 (addr + BitVec.ofNat 32 k) = v.extractLsb' (8 * k) 8) ∧
    t.cfg = s.cfg ∧ t.rom = s.rom ∧ t.fb = s.fb ∧ t.agenda = s.agenda ∧
    ((∀ k < n, isApu (s.region (addr + BitVec.ofNat 32 k)) = false) →
      t.apu = s.apu ∧ t.audioTurns = s.audioTurns ∧ t.out = s.out) ∧
    t = { s.writeFrom addr (fun k => v.extractLsb' (8 * k) 8) n with pc := s.pc + 4#32 } ∧
    (∀ o, (∀ k < n, s.region (addr + BitVec.ofNat 32 k) = .apu (o + k)) →
      t = { s.apuWriteFrom o (fun k => v.extractLsb' (8 * k) 8) n with pc := s.pc + 4#32 })

/-- Bit k of the word is `f k`, for each k below 32. -/
def HasBits (v : Word) (f : Nat → Bool) : Prop := ∀ k < 32, v.getLsbD k = f k

/-- The two states agree in all that a program can see: parameters, registers, pc and the arrays of the Bus. They may differ in the
hidden state of R41 (APU channels, framebuffer, the host's schedule) and in what went to the host. -/
structure SameToProgram (s t : State) : Prop where
  cfg : t.cfg = s.cfg
  regs : ∀ r, t.reg r = s.reg r
  pc : t.pc = s.pc
  rom : t.rom = s.rom
  ram : t.ram = s.ram
  vram : t.vram = s.vram
  joy : t.joy = s.joy
  bridge : t.bridge = s.bridge

end Sys2Proof.Machine
end

