-- ==== Sys2Proof/Certificates/Slice0/Obligations.lean ====
section
/-! DEFINITION. The statements for the provers. A docstring names the rules of spec/ a statement rests on, and wherever the spec marks a
point as its own decision (D<n> of 92_eei_decisions.md) it names that decision, or the entry of the assumption log. -/

open Sys2Proof Sys2Proof.Machine

/-! ## Encoding -/

/-- Decoding an encoded well-formed instruction gives it back, with every operand at every value its encoding admits (30_encoding.md; the
numeric codes and layouts are the spec's decisions D1 and D2, entry 10). -/
def Obligations.DecodeEncodeRoundTrip : Prop :=
  ∀ i : Instr, i.wellFormed = true → decode (encode i) = some i

/-- The other direction: what the decoder answers is well-formed and encodes to the word it was read from, but for the three bits 14:12 that
JALR ignores (R106, decision D12). No other bit of a recognised word is dropped. -/
def Obligations.DecodedWordIsItsEncoding : Prop :=
  ∀ (w : Word) (i : Instr), decode w = some i →
    i.wellFormed = true ∧ encode i = (if opcodeOf w = 0x67#7 then w &&& 0xFFFF8FFF#32 else w)

/-- The decoder is the opcode table (R111; its codes are decision D1, entry 10; that JALR's row ignores bits 14:12 and that the extension-code
rows are strict are D12, D10 and D11, entry 9): a word that matches a row decodes to an instruction of that row, a decoded word matches the
row of its instruction, and no word matches two rows. That the disassembler answers the row's bare mnemonic is the model's choice, entry 27. -/
def Obligations.DecoderIsTheOpcodeTable : Prop :=
  ∀ w : Word,
    (∀ r ∈ opcodeTable, w &&& r.mask = r.pattern →
      (∃ i, decode w = some i ∧ mnemonicOf i = r.mnemonic) ∧ disassemble w = r.mnemonic) ∧
    (∀ i, decode w = some i → ∃ r ∈ opcodeTable, r.mnemonic = mnemonicOf i ∧ w &&& r.mask = r.pattern) ∧
    (∀ r ∈ opcodeTable, ∀ r' ∈ opcodeTable, w &&& r.mask = r.pattern → w &&& r'.mask = r'.pattern → r = r')

/-- The immediates of R102 and R103 as numbers made of the word's digits (the S, B and J layouts are decision D2). -/
def Obligations.ImmediatesAreTheWordsDigits : Prop :=
  ∀ w : Word, let n := w.toNat
    (immIOf w).toNat = n / 2 ^ 20 ∧
    (immUOf w).toNat = n / 2 ^ 12 ∧
    (immSOf w).toNat = n / 2 ^ 25 * 32 + n / 2 ^ 7 % 32 ∧
    (immBOf w).toNat = n / 2 ^ 31 * 4096 + n / 2 ^ 7 % 2 * 2048 + n / 2 ^ 25 % 64 * 32 + n / 2 ^ 8 % 16 * 2 ∧
    (immJOf w).toNat = n / 2 ^ 31 * 1048576 + n / 2 ^ 12 % 256 * 4096 + n / 2 ^ 20 % 2 * 2048 + n / 2 ^ 21 % 1024 * 2

/-- The unrecognised space of R121, cases (a) to (f), is exactly what the decoder rejects (R105 to R110; the strictness of (e) and (f) is
decisions D10 and D11, entry 9). -/
def Obligations.UnrecognisedSpace : Prop :=
  ∀ w : Word, decode w = none ↔
    (opcodeOf w ∉ [0x37#7, 0x17#7, 0x6F#7, 0x67#7, 0x63#7, 0x03#7, 0x23#7, 0x13#7, 0x33#7] ∨
      (opcodeOf w = 0x63#7 ∧ f3Of w ∈ [2#3, 3#3]) ∨
      (opcodeOf w = 0x03#7 ∧ f3Of w ∈ [3#3, 6#3, 7#3]) ∨
      (opcodeOf w = 0x23#7 ∧ f3Of w ∈ [3#3, 4#3, 5#3, 6#3, 7#3]) ∨
      (opcodeOf w = 0x13#7 ∧ f3Of w = 1#3 ∧ f7Of w ≠ 0x00#7) ∨
      (opcodeOf w = 0x13#7 ∧ f3Of w = 5#3 ∧ f7Of w ∉ [0x00#7, 0x20#7]) ∨
      (opcodeOf w = 0x33#7 ∧ f7Of w ∉ [0x00#7, 0x20#7, 0x01#7]) ∨
      (opcodeOf w = 0x33#7 ∧ f7Of w = 0x20#7 ∧ f3Of w ∉ [0#3, 5#3]) ∨
      (opcodeOf w = 0x33#7 ∧ f7Of w = 0x01#7 ∧ f3Of w ∈ [1#3, 2#3, 3#3]))

/-- One word of each class, as the examples of the class's rules and the vectors of 95_test_vectors.md write it out, decodes to the
instruction they give it. The codes and layouts are decisions D1 and D2 (entry 10). -/
def Obligations.SpecWordsDecode : Prop :=
  decode 0x123450B7#32 = some (.lui 1#5 0x12345#20) ∧ decode 0x00001117#32 = some (.auipc 2#5 1#20) ∧
  decode 0xFFDFF0EF#32 = some (.jal 1#5 (BitVec.ofInt 21 (-4))) ∧
  decode 0xFFD280E7#32 = some (.jalr 1#5 5#5 (BitVec.ofInt 12 (-3))) ∧
  decode 0xFE209CE3#32 = some (.bne 1#5 2#5 (BitVec.ofInt 13 (-8))) ∧ decode 0x00211183#32 = some (.lh 3#5 2#5 2#12) ∧
  decode 0xFE312E23#32 = some (.sw 3#5 2#5 (BitVec.ofInt 12 (-4))) ∧ decode 0x80008193#32 = some (.addi 3#5 1#5 0x800#12) ∧
  decode 0x4040D193#32 = some (.srai 3#5 1#5 4#5) ∧ decode 0x402081B3#32 = some (.sub 3#5 1#5 2#5) ∧
  decode 0x0220E1B3#32 = some (.rem 3#5 1#5 2#5) ∧ decode 0x00000073#32 = none ∧ decode 0x00000000#32 = none

/-! ## The step -/

/-- A step runs the decoded instruction: with no host call waiting the step is exec at the same state; where the host's schedule lists
`step()` next, it is exec at the state with that entry taken off the schedule (R24; the schedule is the model's, entry 12). -/
def Obligations.StepRunsDecodedInstruction : Prop :=
  ∀ (s : State) (i : Instr), decode s.fetch = some i →
    (s.agenda = [] → step s = exec i s) ∧
    (∀ rest, s.agenda = .cpu :: rest → step s = exec i { s with agenda := rest })

/-- A step at which the host's schedule lists another call is that call on the state with the call taken off the schedule: a render pass
(R240), a sample pass (R310), a byte or word write through the Bus, or a byte or word read whose answer goes to the host and changes nothing
else (R8, R83). That the calls stand in the state as a list, and the answers in a log, is the model's choice (entries 12 and 18). The frame
turn is FrameIsInputStepsRender. -/
def Obligations.HostCallsAtTheStep : Prop :=
  ∀ (s : State) (rest : List Action), let u : State := { s with agenda := rest }
    (s.agenda = .render :: rest → step s = .next u.render) ∧
    (∀ n, s.agenda = .generate n :: rest → step s = .next (u.generate n)) ∧
    (∀ a v, s.agenda = .write8 a v :: rest → step s = .next (u.write8 a v)) ∧
    (∀ a v, s.agenda = .write32 a v :: rest → step s = .next (u.write32 a v)) ∧
    (∀ a, s.agenda = .read8 a :: rest → step s = .next { u with out := s.out ++ [.byteRead (s.read8 a)] }) ∧
    (∀ a, s.agenda = .read32 a :: rest → step s = .next { u with out := s.out ++ [.wordRead (s.read32 a)] })

/-- R120: an unrecognised word moves pc on by 4 and does nothing else, at a step of the CPU alone and at a `step()` the host's schedule lists,
as inside a frame; register 0 reads 0 as always. The schedule is the model's choice (entry 12). -/
def Obligations.UnrecognisedWordIsNoOp : Prop :=
  ∀ s : State, decode s.fetch = none →
    (s.agenda = [] → step s = .next { s with pc := s.pc + 4#32 }) ∧
    (∀ rest, s.agenda = .cpu :: rest → step s = .next { s with agenda := rest, pc := s.pc + 4#32 }) ∧
    State.reg { s with pc := s.pc + 4#32 } 0#5 = 0#32

/-- Every step completes, and so does every instruction at every state: no fault, no refusal (R24, R340). -/
def Obligations.EveryStepCompletes : Prop :=
  (∀ s : State, ∃ t, step s = .next t) ∧ (∀ (i : Instr) (s : State), ∃ t, exec i s = .next t)

/-- R21: register 0 reads as zero in every state, so also after every instruction; a write of it changes nothing at all; and an
instruction whose rd is 0 still performs its other effects (a jump's target is reached). That no transient value is read is decision D4
(entry 6). -/
def Obligations.RegisterZeroReadsZero : Prop :=
  (∀ s : State, s.reg 0#5 = 0#32) ∧
  (∀ (i : Instr) (s t : State), exec i s = .next t → t.reg 0#5 = 0#32) ∧
  (∀ (s : State) (v : Word), s.setReg 0#5 v = s) ∧
  (∀ (s : State) (offset : BitVec 21), OnlyGoesTo (.jal 0#5 offset) s (s.jumpTarget offset)) ∧
  (∀ (s : State) (rs1 : RegIdx) (imm : BitVec 12), OnlyGoesTo (.jalr 0#5 rs1 imm) s (s.indirectTarget rs1 imm))

/-- The invariant holds at reset, in the reference configuration (entry 1); and at the start of any run, for any parameters that meet R11 and any
cartridge image (R380, R383; the values other than the CPU's are decision D15, entry 4). -/
def Obligations.ResetMeetsInvariant : Prop :=
  State.reset.Inv ∧ ∀ (c : Config) (image : List Byte), c.Valid → (State.boot c image).Inv

/-- Every step keeps the invariant: the parameters keep R11, register slot 0 stays 0, every array stays canonical and inside its size,
whatever runs: an instruction, an unrecognised word, a render pass, a sample pass or a bus call of the host. -/
def Obligations.StepKeepsInvariant : Prop :=
  ∀ s t : State, s.Inv → step s = .next t → t.Inv

/-- From an even pc the pc stays even (R23). -/
def Obligations.PcStaysEven : Prop :=
  ∀ s t : State, s.pc.toNat % 2 = 0 → step s = .next t → t.pc.toNat % 2 = 0

/-- R62: a byte written to an address of the ROM window is dropped, and no step of any agent changes a byte of ROM. -/
def Obligations.RomIsReadOnly : Prop :=
  (∀ (s : State) (a : Word) (v : Byte), s.cfg.romBase ≤ a.toNat → a.toNat < s.cfg.romBase + arrayBytes → s.write8 a v = s) ∧
  (∀ s t : State, step s = .next t → t.rom = s.rom ∧ t.cfg = s.cfg)

/-- The framebuffer is written only by render passes (R40): a step that changes it is a render pass, which the
host's schedule lists (the schedule is the model's, entry 12). -/
def Obligations.OnlyRenderPassesChangeTheFramebuffer : Prop :=
  ∀ s t : State, step s = .next t → t.fb ≠ s.fb → ∃ rest, s.agenda = .render :: rest

/-- The hidden state of R41 is hidden: two states that agree on all a program can see still do after a CPU step of each, whatever the APU
channels, the framebuffer, the audio schedule and the host's log hold in the two. -/
def Obligations.ProgramCannotSeeHiddenState : Prop :=
  ∀ s t s' t' : State, SameToProgram s t → cpuStep s = .next s' → cpuStep t = .next t' → SameToProgram s' t'

/-- What reset leaves of the CPU: every register 0 and pc at the ROM entry address (R20, R22, R42), for any parameters and image; and what
it leaves elsewhere, which is decision D15 (entry 4): RAM, VRAM, joypad, bridge and framebuffer all 0, every channel off. The last two
clauses are of the one reset state the host's interface asks for: it takes the reference parameters (entry 1), among them ROM_ENTRY = 0
(D14, entry 2), and no cartridge (entry 13). -/
def Obligations.ResetState : Prop :=
  ∀ (c : Config) (image : List Byte), let s := State.boot c image
    (∀ r, s.reg r = 0#32) ∧ s.pc = c.romEntry ∧
    (∀ o, s.ram.read o = 0#8 ∧ s.vram.read o = 0#8 ∧ s.joy.read o = 0#8 ∧ s.fb.read o = 0#32) ∧ s.bridge = 0#8 ∧
    (∀ k : Fin 4, s.apu[k] = ⟨false, .square, 0#16, 0#8, 0⟩) ∧ State.reset.pc = 0#32 ∧ State.reset = State.boot Config.reference []

/-- load_rom (R383): byte k of ROM is byte k of the image below 2^24, and 0 past the image; longer images are cut. The placement at offset
0 and the zeros are decision D15. -/
def Obligations.LoadRomPlacesTheImage : Prop :=
  ∀ (s : State) (image : List Byte) (k : Nat), (s.loadRom image).rom.read k = if k < arrayBytes then image.getD k 0#8 else 0#8

/-! ## Instructions: upper immediates and jumps -/

/-- LUI and AUIPC complete: `x[rd]` is imm20 times 4096 (R130), or that plus the instruction's own address, modulo 2^32 (R131, D5). -/
def Obligations.UpperImmediateResults : Prop :=
  ∀ (s : State) (rd : RegIdx) (imm : BitVec 20),
    WritesRegister (.lui rd imm) s rd (BitVec.ofNat 32 (imm.toNat * 4096)) (s.pc + 4#32) ∧
    WritesRegister (.auipc rd imm) s rd (BitVec.ofNat 32 (s.pc.toNat + imm.toNat * 4096)) (s.pc + 4#32)

/-- JAL completes: `x[rd]` is the return address, and pc is the jump's own address plus the signed offset modulo 2^32 (R140; the base is
decision D3, 90_conflicts.md C1, entry 11). -/
def Obligations.JumpAndLinkResult : Prop :=
  ∀ (s : State) (rd : RegIdx) (offset : BitVec 21),
    WritesRegister (.jal rd offset) s rd (s.pc + 4#32) (BitVec.ofInt 32 (s.pc.toNat + offset.toInt))

/-- JALR completes: `x[rd]` is the return address, and pc is the old `x[rs1]` plus the signed immediate, modulo 2^32, with bit 0 cleared (R141;
that the old value is used where rd = rs1 is decision D4, entry 7). -/
def Obligations.JumpAndLinkRegisterResult : Prop :=
  ∀ (s : State) (rd rs1 : RegIdx) (imm : BitVec 12),
    WritesRegister (.jalr rd rs1 imm) s rd (s.pc + 4#32)
      (BitVec.ofNat 32 ((((s.reg rs1).toNat + imm.toInt) % 2 ^ 32).toNat / 2 * 2))

/-! ## Branches -/

/-- BEQ and BNE complete: to the branch's own address plus the signed offset when taken, else to the next instruction; nothing else
changes (R150 to R152; the base is decision D3, the wrap D5, entry 11). -/
def Obligations.EqualityBranches : Prop :=
  ∀ (s : State) (rs1 rs2 : RegIdx) (offset : BitVec 13), let target : Word := BitVec.ofInt 32 (s.pc.toNat + offset.toInt)
    OnlyGoesTo (.beq rs1 rs2 offset) s (if s.reg rs1 = s.reg rs2 then target else s.pc + 4#32) ∧
    OnlyGoesTo (.bne rs1 rs2 offset) s (if s.reg rs1 = s.reg rs2 then s.pc + 4#32 else target)

/-- BLT and BGE complete by the signed values, BLTU and BGEU by the unsigned ones (R150, R153 to R156; base D3, wrap D5, entry 11). -/
def Obligations.OrderBranches : Prop :=
  ∀ (s : State) (rs1 rs2 : RegIdx) (offset : BitVec 13), let target : Word := BitVec.ofInt 32 (s.pc.toNat + offset.toInt)
    OnlyGoesTo (.blt rs1 rs2 offset) s (if (s.reg rs1).toInt < (s.reg rs2).toInt then target else s.pc + 4#32) ∧
    OnlyGoesTo (.bge rs1 rs2 offset) s (if (s.reg rs1).toInt ≥ (s.reg rs2).toInt then target else s.pc + 4#32) ∧
    OnlyGoesTo (.bltu rs1 rs2 offset) s (if (s.reg rs1).toNat < (s.reg rs2).toNat then target else s.pc + 4#32) ∧
    OnlyGoesTo (.bgeu rs1 rs2 offset) s (if (s.reg rs1).toNat ≥ (s.reg rs2).toNat then target else s.pc + 4#32)

/-! ## Loads and stores -/

/-- The effective address of a load or store as a number: base register plus signed displacement, modulo 2^32 (R160, R170; the wrap is
decision D5). -/
def Obligations.EffectiveAddressWraps : Prop :=
  ∀ (s : State) (rs1 : RegIdx) (imm : BitVec 12),
    ((s.effectiveAddress rs1 imm).toNat : Int) = ((s.reg rs1).toNat + imm.toInt) % 2 ^ 32

/-- LB, LBU, LH and LHU complete at every address, odd ones too: the byte at the effective address, or the two bytes from it on, low byte
first, sign-extended or zero-extended (R160 to R162, R164, R165; that a halfword is two byte reads is decision D6). -/
def Obligations.NarrowLoads : Prop :=
  ∀ (s : State) (rd rs1 : RegIdx) (imm : BitVec 12), let a := s.effectiveAddress rs1 imm
    let b := (s.read8 a).toNat
    let h := (s.read8 a).toNat + 256 * (s.read8 (a + 1#32)).toNat
    WritesRegister (.lb rd rs1 imm) s rd (BitVec.ofInt 32 (if b < 128 then (b : Int) else b - 256)) (s.pc + 4#32) ∧
    WritesRegister (.lbu rd rs1 imm) s rd (BitVec.ofNat 32 b) (s.pc + 4#32) ∧
    WritesRegister (.lh rd rs1 imm) s rd (BitVec.ofInt 32 (if h < 32768 then (h : Int) else h - 65536)) (s.pc + 4#32) ∧
    WritesRegister (.lhu rd rs1 imm) s rd (BitVec.ofNat 32 h) (s.pc + 4#32)

/-- LW completes at every address: the four bytes from the effective address on, least significant first (R160, R163). -/
def Obligations.WordLoad : Prop :=
  ∀ (s : State) (rd rs1 : RegIdx) (imm : BitVec 12), let a := s.effectiveAddress rs1 imm
    WritesRegister (.lw rd rs1 imm) s rd
      (BitVec.ofNat 32 ((s.read8 a).toNat + 256 * (s.read8 (a + 1#32)).toNat + 65536 * (s.read8 (a + 2#32)).toNat +
        16777216 * (s.read8 (a + 3#32)).toNat)) (s.pc + 4#32)

/-- SB, SH and SW complete at every address, whatever windows their bytes fall in, and store the low one, two or four bytes of `x[rs2]` from
the effective address on (R170 to R173; that a halfword is two byte writes and that the bytes go in ascending order are decision D6). Bytes
that fall in the APU window are the APU's own register writes in that order (R64), which ApuRegisterWrites spells out. -/
def Obligations.Stores : Prop :=
  ∀ (s : State) (rs2 rs1 : RegIdx) (imm : BitVec 12), s.Inv →
    StoresBytes (.sb rs2 rs1 imm) s (s.effectiveAddress rs1 imm) 1 (s.reg rs2) ∧
    StoresBytes (.sh rs2 rs1 imm) s (s.effectiveAddress rs1 imm) 2 (s.reg rs2) ∧
    StoresBytes (.sw rs2 rs1 imm) s (s.effectiveAddress rs1 imm) 4 (s.reg rs2)

/-! ## Arithmetic and logic -/

/-- ADDI, ADD and SUB complete, modulo 2^32 (R180, R181, R200 to R202). -/
def Obligations.AddAndSubtract : Prop :=
  ∀ (s : State) (rd rs1 rs2 : RegIdx) (imm : BitVec 12),
    WritesRegister (.addi rd rs1 imm) s rd (BitVec.ofInt 32 ((s.reg rs1).toInt + imm.toInt)) (s.pc + 4#32) ∧
    WritesRegister (.add rd rs1 rs2) s rd (BitVec.ofNat 32 ((s.reg rs1).toNat + (s.reg rs2).toNat)) (s.pc + 4#32) ∧
    WritesRegister (.sub rd rs1 rs2) s rd (BitVec.ofInt 32 ((s.reg rs1).toInt - (s.reg rs2).toInt)) (s.pc + 4#32)

/-- SLTI, SLTIU, SLT and SLTU complete with 1 or 0; SLTIU compares with the sign-extended immediate read as unsigned, which is the 12-bit
value, plus 2^32 - 2^12 where its bit 11 is set (R182, R183, R204, R205). -/
def Obligations.SetLessThan : Prop :=
  ∀ (s : State) (rd rs1 rs2 : RegIdx) (imm : BitVec 12),
    WritesRegister (.slti rd rs1 imm) s rd (if (s.reg rs1).toInt < imm.toInt then 1#32 else 0#32) (s.pc + 4#32) ∧
    WritesRegister (.sltiu rd rs1 imm) s rd
      (if (s.reg rs1).toNat < (if imm.toNat < 2048 then imm.toNat else imm.toNat + 4294963200) then 1#32 else 0#32) (s.pc + 4#32) ∧
    WritesRegister (.slt rd rs1 rs2) s rd (if (s.reg rs1).toInt < (s.reg rs2).toInt then 1#32 else 0#32) (s.pc + 4#32) ∧
    WritesRegister (.sltu rd rs1 rs2) s rd (if (s.reg rs1).toNat < (s.reg rs2).toNat then 1#32 else 0#32) (s.pc + 4#32)

/-- XORI, ORI, ANDI, XOR, OR and AND complete, bit by bit; bits 31 to 11 of an immediate are copies of its bit 11 (R184 to R186, R206, R209,
R210). -/
def Obligations.BitwiseLogic : Prop :=
  ∀ (s : State) (rd rs1 rs2 : RegIdx) (imm : BitVec 12),
    let a := (s.reg rs1).getLsbD; let b := (s.reg rs2).getLsbD; let m := fun k => imm.getLsbD (min k 11)
    (∃ v, HasBits v (fun k => a k ^^ m k) ∧ WritesRegister (.xori rd rs1 imm) s rd v (s.pc + 4#32)) ∧
    (∃ v, HasBits v (fun k => a k || m k) ∧ WritesRegister (.ori rd rs1 imm) s rd v (s.pc + 4#32)) ∧
    (∃ v, HasBits v (fun k => a k && m k) ∧ WritesRegister (.andi rd rs1 imm) s rd v (s.pc + 4#32)) ∧
    (∃ v, HasBits v (fun k => a k ^^ b k) ∧ WritesRegister (.xor rd rs1 rs2) s rd v (s.pc + 4#32)) ∧
    (∃ v, HasBits v (fun k => a k || b k) ∧ WritesRegister (.or rd rs1 rs2) s rd v (s.pc + 4#32)) ∧
    (∃ v, HasBits v (fun k => a k && b k) ∧ WritesRegister (.and rd rs1 rs2) s rd v (s.pc + 4#32))

/-- SLLI, SRLI and SRAI complete: times a power of two modulo 2^32, the unsigned value divided by it, the signed value divided by it and
rounded down (R187 to R189). -/
def Obligations.ImmediateShifts : Prop :=
  ∀ (s : State) (rd rs1 : RegIdx) (shamt : BitVec 5), let k := shamt.toNat
    WritesRegister (.slli rd rs1 shamt) s rd (BitVec.ofNat 32 ((s.reg rs1).toNat * 2 ^ k)) (s.pc + 4#32) ∧
    WritesRegister (.srli rd rs1 shamt) s rd (BitVec.ofNat 32 ((s.reg rs1).toNat / 2 ^ k)) (s.pc + 4#32) ∧
    WritesRegister (.srai rd rs1 shamt) s rd (BitVec.ofInt 32 ((s.reg rs1).toInt / 2 ^ k)) (s.pc + 4#32)

/-- SLL, SRL and SRA complete, by the amount in `x[rs2]` modulo 32 (R200, R203, R207, R208). -/
def Obligations.RegisterShifts : Prop :=
  ∀ (s : State) (rd rs1 rs2 : RegIdx), let k := (s.reg rs2).toNat % 32
    WritesRegister (.sll rd rs1 rs2) s rd (BitVec.ofNat 32 ((s.reg rs1).toNat * 2 ^ k)) (s.pc + 4#32) ∧
    WritesRegister (.srl rd rs1 rs2) s rd (BitVec.ofNat 32 ((s.reg rs1).toNat / 2 ^ k)) (s.pc + 4#32) ∧
    WritesRegister (.sra rd rs1 rs2) s rd (BitVec.ofInt 32 ((s.reg rs1).toInt / 2 ^ k)) (s.pc + 4#32)

/-! ## Multiply and divide -/

/-- MUL completes with the low 32 bits of the product, whether the operands are read as signed or as unsigned (R220, R221). -/
def Obligations.Multiply : Prop :=
  ∀ (s : State) (rd rs1 rs2 : RegIdx),
    WritesRegister (.mul rd rs1 rs2) s rd (BitVec.ofInt 32 ((s.reg rs1).toInt * (s.reg rs2).toInt)) (s.pc + 4#32) ∧
    WritesRegister (.mul rd rs1 rs2) s rd (BitVec.ofNat 32 ((s.reg rs1).toNat * (s.reg rs2).toNat)) (s.pc + 4#32)

/-- DIV and REM complete for every pair of operands (R222, R224). The values for a zero divisor, for -2^31 by -1, and the rounding toward
zero are the spec's decisions D7, D8 and D9 (entry 8). -/
def Obligations.SignedDivision : Prop :=
  ∀ (s : State) (rd rs1 rs2 : RegIdx), let a := s.reg rs1; let b := s.reg rs2
    WritesRegister (.div rd rs1 rs2) s rd
      (if b = 0#32 then 0xFFFFFFFF#32 else BitVec.ofInt 32 (a.toInt.sign * b.toInt.sign * (a.toInt.natAbs / b.toInt.natAbs : Nat)))
      (s.pc + 4#32) ∧
    WritesRegister (.rem rd rs1 rs2) s rd
      (if b = 0#32 then a else BitVec.ofInt 32 (a.toInt.sign * (a.toInt.natAbs % b.toInt.natAbs : Nat))) (s.pc + 4#32)

/-- DIVU and REMU complete for every pair of operands (R223, R225); the values for a zero divisor are decision D7 (entry 8). -/
def Obligations.UnsignedDivision : Prop :=
  ∀ (s : State) (rd rs1 rs2 : RegIdx), let a := s.reg rs1; let b := s.reg rs2
    WritesRegister (.divu rd rs1 rs2) s rd (if b = 0#32 then 0xFFFFFFFF#32 else BitVec.ofNat 32 (a.toNat / b.toNat)) (s.pc + 4#32) ∧
    WritesRegister (.remu rd rs1 rs2) s rd (if b = 0#32 then a else BitVec.ofNat 32 (a.toNat % b.toNat)) (s.pc + 4#32)

/-- The dividend is the divisor times the quotient plus the remainder modulo 2^32, for every pair of operands, signed and unsigned, zero
divisors and the overflow case included (R224, R225; decisions D7, D8). -/
def Obligations.DivisionIdentity : Prop :=
  ∀ a b : Word, a = b * divSigned a b + remSigned a b ∧ a = b * divUnsigned a b + remUnsigned a b

/-! ## The Bus -/

/-- `read8` by windows (R60): whichever window of R28 the address is in decides, tested in any order, since valid parameters keep the windows
apart (R11); outside every window 0. -/
def Obligations.ReadByteDispatch : Prop :=
  ∀ (s : State) (a : Word), s.cfg.Valid → let n := a.toNat
    (s.cfg.romBase ≤ n → n < s.cfg.romBase + 0x1000000 → s.read8 a = s.rom.read (n - s.cfg.romBase)) ∧
    (s.cfg.ramBase ≤ n → n < s.cfg.ramBase + 0x1000000 → s.read8 a = s.ram.read (n - s.cfg.ramBase)) ∧
    (s.cfg.vramBase ≤ n → n < s.cfg.vramBase + 0x1000000 → s.read8 a = s.vram.read (n - s.cfg.vramBase)) ∧
    (s.cfg.joyBase ≤ n → n < s.cfg.joyBase + 0x100 → s.read8 a = s.joy.read (n - s.cfg.joyBase)) ∧
    (s.cfg.joyBase + 0x100 ≤ n → n < s.cfg.joyBase + 0x200 → s.read8 a = 0#8) ∧
    (n = s.cfg.bridgeAddr → s.read8 a = s.bridge) ∧
    ((∀ w ∈ s.cfg.windows, n < w.1 ∨ w.1 + w.2 ≤ n) → s.read8 a = 0#8)

/-- `write8` by windows (R61): a byte of RAM, VRAM, joypad or the bridge is stored, an APU byte goes to the APU, any other is dropped. -/
def Obligations.WriteByteDispatch : Prop :=
  ∀ (s : State) (a : Word) (v : Byte), s.cfg.Valid → let n := a.toNat
    (s.cfg.romBase ≤ n → n < s.cfg.romBase + 0x1000000 → s.write8 a v = s) ∧
    (s.cfg.ramBase ≤ n → n < s.cfg.ramBase + 0x1000000 →
      s.write8 a v = { s with ram := s.ram.write (n - s.cfg.ramBase) v }) ∧
    (s.cfg.vramBase ≤ n → n < s.cfg.vramBase + 0x1000000 →
      s.write8 a v = { s with vram := s.vram.write (n - s.cfg.vramBase) v }) ∧
    (s.cfg.joyBase ≤ n → n < s.cfg.joyBase + 0x100 → s.write8 a v = { s with joy := s.joy.write (n - s.cfg.joyBase) v }) ∧
    (s.cfg.joyBase + 0x100 ≤ n → n < s.cfg.joyBase + 0x200 → s.write8 a v = s.apuWrite8 (n - (s.cfg.joyBase + 0x100)) v) ∧
    (n = s.cfg.bridgeAddr → s.write8 a v = { s with bridge := v }) ∧
    ((∀ w ∈ s.cfg.windows, n < w.1 ∨ w.1 + w.2 ≤ n) → s.write8 a v = s)

/-- R63: in RAM, VRAM, the joypad region and the bridge byte a byte written reads back; a byte written to VRAM is in the vram array at once;
and no other address reads differently. The property is these four's alone: a ROM byte reads as before, a byte of the APU window as 0. -/
def Obligations.PlainStorageReadsBack : Prop :=
  ∀ (s : State) (a : Word) (v : Byte), s.Inv →
    (isStorage (s.region a) = true → (s.write8 a v).read8 a = v) ∧ (∀ b, b ≠ a → (s.write8 a v).read8 b = s.read8 b) ∧
    (∀ o, s.region a = .vram o → (s.write8 a v).vram.read o = v) ∧
    (∀ o, s.region a = .rom o → (s.write8 a v).read8 a = s.read8 a) ∧ (∀ o, s.region a = .apu o → (s.write8 a v).read8 a = 0#8)

/-- R65: outside every defined region a read gives 0 and a write changes nothing whatever, for data and for instruction fetch alike; a ROM
write changes nothing either. -/
def Obligations.UnmappedReadsZeroAndDropsWrites : Prop :=
  ∀ s : State,
    (∀ (a : Word) (v : Byte), s.region a = .unmapped → s.read8 a = 0#8 ∧ s.write8 a v = s) ∧
    (∀ (a : Word) (v : Byte) (o : Nat), s.region a = .rom o → s.write8 a v = s) ∧
    ((∀ k < 4, s.region (s.pc + BitVec.ofNat 32 k) = .unmapped) → s.fetch = 0#32)

/-- R64: a read from the APU window yields 0; a write goes to the APU's own `write8` with the offset in the window. -/
def Obligations.ApuWindowDelegates : Prop :=
  ∀ (s : State) (a : Word) (o : Nat) (v : Byte), s.region a = .apu o → s.read8 a = 0#8 ∧ s.write8 a v = s.apuWrite8 o v

/-- R68: a word written to plain storage reads back, its least significant byte at the lowest address; narrower reads see its bytes, a
fetch sees it as data does, and in video memory the GPU's fields see it in the same byte order. -/
def Obligations.WordRoundTrip : Prop :=
  ∀ (s : State) (a v : Word), s.Inv → (∀ k < 4, isStorage (s.region (a + BitVec.ofNat 32 k)) = true) →
    let t := s.write32 a v
    t.read32 a = v ∧ (t.read8 a).toNat = v.toNat % 256 ∧ (t.read8 (a + 1#32)).toNat = v.toNat / 256 % 256 ∧
    (t.read16 a).toNat = v.toNat % 65536 ∧ (t.read16 (a + 1#32)).toNat = v.toNat / 256 % 65536 ∧
    (t.read16 (a + 2#32)).toNat = v.toNat / 65536 ∧ (t.setPc a).fetch = v ∧
    (∀ o, (∀ k < 4, s.region (a + BitVec.ofNat 32 k) = .vram (o + k)) → t.vram.read32 o = v)

/-- A program reads a control field where the GPU reads it: a word load at VRAM_BASE + o is the GPU's field at offset o (R31, R35). -/
def Obligations.ControlFieldsAreVideoMemory : Prop :=
  ∀ (s : State) (o : Nat), s.cfg.Valid → o + 4 ≤ arrayBytes → s.read32 (BitVec.ofNat 32 (s.cfg.vramBase + o)) = s.vram.read32 o

/-! ## The GPU -/

/-- Mode 0 (R245; the screen size is decision D20, the pixel format D21): after the pass the pixel (x, y) is the little-endian word at VRAM
offset 4 (160 y + x), and beyond the framebuffer only the log of what was presented has changed. -/
def Obligations.FramebufferModeCopiesVideoMemory : Prop :=
  ∀ s : State, s.vram.read32 s.cfg.modeOff = 0#32 →
    (∀ x y, x < 160 → y < 144 → s.render.fb.read (160 * y + x) = s.vram.read32 (4 * (160 * y + x))) ∧
    s.render = { s with fb := s.render.fb, out := s.render.out }

/-- Mode 1 (R250, R252; plane wrap D25, tile format D24, tiles past the area D26, entries 20 and 29): the screen pixel is the tile pixel at
the scrolled position of the 320 x 240 plane, or 0 where that does not lie wholly in the tile area. -/
def Obligations.TilemapModeShowsThePlane : Prop :=
  ∀ s : State, s.vram.read32 s.cfg.modeOff = 1#32 →
    (∀ x y : Nat, x < 160 → y < 144 → ∀ px py : Nat,
      (px : Int) = (x + (s.vram.read32 s.cfg.scrollXOff).toInt) % 320 →
      (py : Int) = (y + (s.vram.read32 s.cfg.scrollYOff).toInt) % 240 →
      let n := (s.vram.read16 (s.cfg.tilemapOff + 2 * (40 * (py / 8) + px / 8))).toNat
      let o := 256 * n + 4 * (8 * (py % 8) + px % 8)
      s.render.fb.read (160 * y + x) = if o + 4 ≤ s.cfg.tileAreaEnd then s.vram.read32 o else 0#32) ∧
    s.render = { s with fb := s.render.fb, out := s.render.out }

/-- Mode 2 (R260, R261; the codes are decision D28, entry 21): CMD 0 draws nothing, 1 draws the line of vertices 0 and 1, 2 the filled
triangle, any other code nothing; vertices and colour are what VRAM holds at the pass. -/
def Obligations.CommandModeDrawsOnePrimitive : Prop :=
  ∀ s : State, s.vram.read32 s.cfg.modeOff = 2#32 →
    let cmd := s.vram.read32 s.cfg.cmdOff
    let col := s.vram.read32 s.cfg.colorOff
    let p : Nat → Point := fun i =>
      ((s.vram.read16 (s.cfg.vertOff + 4 * i)).toInt, (s.vram.read16 (s.cfg.vertOff + 4 * i + 2)).toInt)
    (cmd = 1#32 → s.render.fb = drawLine s.fb (p 0) (p 1) col) ∧
    (cmd = 2#32 → s.render.fb = drawTriangle s.fb (p 0) (p 1) (p 2) col) ∧
    (cmd ≠ 1#32 → cmd ≠ 2#32 → s.render.fb = s.fb)

/-- R262: after a pass that acted on a non-zero CMD the four bytes of CMD are 0, for the GPU and for a program's load; no other byte of VRAM
changes, so vertices and colour stay; and no other pass writes VRAM at all. That a code other than 1 and 2 is cleared too is decision D28
(entry 21), that no pass in another mode clears it D27 (entry 19). -/
def Obligations.CommandIsAcknowledged : Prop :=
  ∀ s : State, s.Inv →
    (s.vram.read32 s.cfg.modeOff = 2#32 → s.vram.read32 s.cfg.cmdOff ≠ 0#32 →
      s.render.vram.read32 s.cfg.cmdOff = 0#32 ∧ s.render.read32 (BitVec.ofNat 32 (s.cfg.vramBase + s.cfg.cmdOff)) = 0#32 ∧
      (∀ o, o < s.cfg.cmdOff ∨ s.cfg.cmdOff + 4 ≤ o → s.render.vram.read o = s.vram.read o)) ∧
    (s.vram.read32 s.cfg.modeOff ≠ 2#32 ∨ s.vram.read32 s.cfg.cmdOff = 0#32 → s.render.vram = s.vram)

/-- R243: at the end of every pass, whatever the mode, the host is handed the 23 040 pixels of the framebuffer in row-major order, with
width 160 and height 144 (the size is decision D20, entry 23), and nothing else. In every mode the state written is the framebuffer and
video memory (R240), beside the log of what was handed over (entry 18); a MODE above 2 writes neither (R244, decision D27, entry 19). -/
def Obligations.EveryPassPresentsTheFramebuffer : Prop :=
  ∀ s : State,
    (∃ px, s.render.out = s.out ++ [.present px 160 144] ∧ px.length = 23040 ∧
      ∀ x y, x < 160 → y < 144 → px[160 * y + x]? = some (s.render.fb.read (160 * y + x))) ∧
    s.render = { s with vram := s.render.vram, fb := s.render.fb, out := s.render.out } ∧
    ((s.vram.read32 s.cfg.modeOff).toNat > 2 → s.render.fb = s.fb ∧ s.render.vram = s.vram)

/-- The line's trace is a Bresenham trace (R271; the formulation is decision D31, entry 22): max(dx, dy) + 1 points from p to q, one step at
a time along the major axis, each within half a pixel of the ideal line along the minor axis. -/
def Obligations.LineTraceIsBresenham : Prop :=
  ∀ p q : Point, let dx := (q.1 - p.1).natAbs; let dy := (q.2 - p.2).natAbs
    (linePoints p q).length = max dx dy + 1 ∧ (linePoints p q)[0]? = some p ∧ (linePoints p q)[max dx dy]? = some q ∧
    ∀ (k : Nat) (pt : Point), (linePoints p q)[k]? = some pt →
      ∃ i j : Nat, i ≤ dx ∧ j ≤ dy ∧ pt = (p.1 + (q.1 - p.1).sign * i, p.2 + (q.2 - p.2).sign * j) ∧
        (dy ≤ dx → i = k) ∧ (dx ≤ dy → j = k) ∧ 2 * ((j : Int) * dx - i * dy).natAbs ≤ max dx dy

/-- A line writes its colour to exactly the pixels of its trace that are on the screen (R270, R271; the screen size is decision D20,
entry 23). -/
def Obligations.LineWritesItsTrace : Prop :=
  ∀ (fb : Memory 32) (p q : Point) (col : Word), fb.wf screenPixels → ∀ x y : Nat, x < 160 → y < 144 →
    (((x : Int), (y : Int)) ∈ linePoints p q → (drawLine fb p q col).read (160 * y + x) = col) ∧
    (((x : Int), (y : Int)) ∉ linePoints p q → (drawLine fb p q col).read (160 * y + x) = fb.read (160 * y + x))

/-- A triangle writes its colour to exactly the on-screen pixels of its spans, each span covering both its ends (R272, R273; decision D32,
entry 22; the screen size is D20, entry 23). -/
def Obligations.TriangleFillsItsSpans : Prop :=
  ∀ (fb : Memory 32) (a b c : Point) (col : Word), fb.wf screenPixels → ∀ x y : Nat, x < 160 → y < 144 →
    let covered := ∃ sp ∈ triangleSpans a b c, sp.y = y ∧ min sp.xl sp.xs ≤ x ∧ x ≤ max sp.xl sp.xs
    (covered → (drawTriangle fb a b c col).read (160 * y + x) = col) ∧
    (¬ covered → (drawTriangle fb a b c col).read (160 * y + x) = fb.read (160 * y + x))

/-- The spans of a triangle (R272, R273, decision D32, entry 22), for any vertices, v0, v1, v2 being the vertices sorted by y with equal ones in
their input order: on one scanline a single span over the x extent; else exactly one span for each scanline from the top vertex to the bottom
one, from the long edge to the short edge of that scanline, flat tops and flat bottoms included. At three different heights the order the
vertices are given in does not matter. An edge's x is the exact interpolation rounded toward zero: within one of it, and no farther from 0. -/
def Obligations.TriangleSpansFollowTheEdges : Prop :=
  (∀ v0 v1 v2 : Point, v0.2 < v1.2 → v1.2 < v2.2 →
    (∀ a b c : Point, List.Perm [a, b, c] [v0, v1, v2] → triangleSpans a b c = triangleSpans v0 v1 v2) ∧
    (∀ sp : Span, sp ∈ triangleSpans v0 v1 v2 ↔
      v0.2 ≤ sp.y ∧ sp.y ≤ v2.2 ∧ sp.xl = edgeX v0 v2 sp.y ∧
        sp.xs = if sp.y ≤ v1.2 then edgeX v0 v1 sp.y else edgeX v1 v2 sp.y)) ∧
  (∀ a b c v0 v1 v2 : Point, [a, b, c].insertionSort (fun p q => p.2 ≤ q.2) = [v0, v1, v2] →
    (v0.2 = v2.2 → triangleSpans a b c = [⟨min v0.1 (min v1.1 v2.1), max v0.1 (max v1.1 v2.1), v0.2⟩]) ∧
    (v0.2 ≠ v2.2 →
      (triangleSpans a b c).Pairwise (fun sp sp' => sp.y < sp'.y) ∧
      ∀ sp : Span, sp ∈ triangleSpans a b c ↔
        v0.2 ≤ sp.y ∧ sp.y ≤ v2.2 ∧ sp.xl = edgeX v0 v2 sp.y ∧
          sp.xs = if sp.y ≤ v1.2 ∧ v0.2 < v1.2 then edgeX v0 v1 sp.y else edgeX v1 v2 sp.y)) ∧
  (∀ (p q : Point) (y : Int), p.2 ≠ q.2 →
    let height := q.2 - p.2
    let exact := p.1 * height + (y - p.2) * (q.1 - p.1)
    (exact - edgeX p q y * height).natAbs < height.natAbs ∧ (edgeX p q y * height).natAbs ≤ exact.natAbs)

/-! ## The APU -/

/-- The sixteen registers (R300 to R303; their order and the control bits are decision D33, the phase reset D34, entry 24), and the unused
offsets (R304, D16). Sample passes that the audio schedule puts in front of the write come first: none where nothing is scheduled, else
all those of the first entry, in order, each whole, and the entry leaves the schedule (R73, R80, D40; the schedule is the model's choice,
entry 14). -/
def Obligations.ApuRegisterWrites : Prop :=
  ∀ (s : State) (v : Byte),
    (∀ c r : Nat, ∀ hc : c < 4, r < 4 → let t := s.apuWrite8 (4 * c + r) v; let ch := s.audioTurn.apu[c]
      t.apu[c] = (if r = 0 then { ch with freq := BitVec.ofNat 16 (ch.freq.toNat / 256 * 256 + v.toNat) }
        else if r = 1 then { ch with freq := BitVec.ofNat 16 (v.toNat * 256 + ch.freq.toNat % 256) }
        else if r = 2 then
          { ch with
            en := v.getLsbD 0
            wave := [Waveform.square, .sine, .triangle, .noise].getD (v.toNat / 2 % 4) .square
            phase := if v.toNat % 2 = 1 then 0 else ch.phase }
        else { ch with vol := v }) ∧
      (∀ d, ∀ hd : d < 4, d ≠ c → t.apu[d] = s.audioTurn.apu[d]) ∧ t = { s.audioTurn with apu := t.apu }) ∧
    (∀ o, 16 ≤ o → s.apuWrite8 o v = s) ∧
    (s.audioTurns = [] → s.audioTurn = s) ∧
    (∀ (ns : List Nat) (rest : List (List Nat)), s.audioTurns = ns :: rest →
      s.audioTurn = ns.foldl State.generate { s with audioTurns := rest })

/-- One SW to a channel's sub-block programs the whole channel (R173, R300; layout D33): frequency in bits 15:0, control in 23:16, volume in
31:24. -/
def Obligations.StoreWordProgramsAChannel : Prop :=
  ∀ (s : State) (rs2 rs1 : RegIdx) (imm : BitVec 12) (c : Nat) (hc : c < 4), s.Inv → s.audioTurns = [] →
    (s.effectiveAddress rs1 imm).toNat = s.cfg.joyBase + 0x100 + 4 * c → let v := s.reg rs2
    ∃ t, exec (.sw rs2 rs1 imm) s = .next t ∧
      t.apu[c] = ⟨v.getLsbD 16, [Waveform.square, .sine, .triangle, .noise].getD (v.toNat / 131072 % 4) .square, v.extractLsb' 0 16,
        v.extractLsb' 24 8, if v.getLsbD 16 then 0 else s.apu[c].phase⟩ ∧
      (∀ d, ∀ hd : d < 4, d ≠ c → t.apu[d] = s.apu[d]) ∧ t = { s with pc := s.pc + 4#32, apu := t.apu }

/-- After n samples the phase of a sounding channel is the fraction of its old phase plus n f / 48000; a channel that is off keeps its
phase (R310; D37, D38, entries 15 and 16); nothing else of any channel changes. -/
def Obligations.PhaseAfterSamples : Prop :=
  ∀ (s : State) (n : Nat) (c : Nat) (hc : c < 4), let ch := s.apu[c]; let ch' := (s.generate n).apu[c]
    (ch.en = true → 0 < ch.freq.toNat → phaseValue ch'.phase = Int.fract (phaseValue ch.phase + n * ch.freq.toNat / 48000)) ∧
    (ch.en = false ∨ ch.freq.toNat = 0 → ch' = ch) ∧ ch' = { ch with phase := ch'.phase }

/-- A pass of n samples hands over n samples, the k-th made from the channels as k samples have left them, and changes phases and the host's
log only (R310). -/
def Obligations.GeneratePassMakesSamples : Prop :=
  ∀ (s : State) (n : Nat), ∃ buf, (s.generate n).out = s.out ++ [.samples buf] ∧ buf.length = n ∧
    (∀ k, k < n → buf[k]? = some (sampleNow (s.generate k).apu)) ∧
    s.generate n = { s with apu := (s.generate n).apu, out := (s.generate n).out }

/-- A sample is the sum over the four channels of waveform value times volume times 1/4, where a disabled or zero-frequency channel
contributes exactly 0 (R303, R310). At phase x the square is 1 below 1/2 and -1 from there on, the sine is sin(2 pi x), the triangle is
4x - 1 below 1/2 and 3 - 4x from there on (R311; the square's value at 1/2 and the triangle's formula are decision D35, entry 24), and the
noise is some value in [-1, 1] (D36, entry 17). That a sample is an exact real number is decision D37 and the model's choice, entry 16. -/
def Obligations.SampleIsTheMix : Prop :=
  (∀ apu : Vector Channel 4,
    sampleValue (sampleNow apu) = ∑ c : Fin 4,
      if apu[c].en = true ∧ 0 < apu[c].freq.toNat then waveValue apu[c].wave apu[c].phase * ((apu[c].vol.toNat : ℝ) / 255) * (1 / 4) else 0) ∧
  (∀ p : Phase, let x : ℝ := (p.val : ℝ) / 48000
    waveValue .square p = (if x < 1 / 2 then 1 else -1) ∧ waveValue .sine p = Real.sin (2 * Real.pi * x) ∧
    waveValue .triangle p = (if x < 1 / 2 then 4 * x - 1 else 3 - 4 * x) ∧ |waveValue .noise p| ≤ 1)

/-- Every sample lies in [-1, 1] (R310, R311), whatever the noise function is, which is held to [-1, 1] (D36, entry 17). The sample is the
exact real number, before the rounding the spec leaves open, which is decision D37 and the model's choice (entry 16). -/
def Obligations.SamplesStayInRange : Prop :=
  ∀ apu : Vector Channel 4, |sampleValue (sampleNow apu)| ≤ 1

/-! ## The frame loop -/

/-- One turn of the driving loop (R386): the input byte is written and then, before anything the host calls later, come STEPS_PER_FRAME CPU
steps and one render pass. That the loop stands in the state as a list of calls is the model's choice (entry 12), where the byte lies
is decision D17. -/
def Obligations.FrameIsInputStepsRender : Prop :=
  ∀ (s : State) (input : Byte) (rest : List Action), s.Inv → s.agenda = .frame input :: rest →
    ∃ t, step s = .next t ∧ t.agenda = List.replicate s.cfg.stepsPerFrame .cpu ++ .render :: rest ∧
      t.read8 (BitVec.ofNat 32 (s.cfg.joyBase + s.cfg.joyInputOff)) = input ∧
      (∀ a : Word, a.toNat ≠ s.cfg.joyBase + s.cfg.joyInputOff → t.read8 a = s.read8 a) ∧
      t.pc = s.pc ∧ t.regs = s.regs ∧ t.apu = s.apu ∧ t.fb = s.fb ∧ t.out = s.out
end

