-- ==== Sys2Proof/Laws/State.lean ====
section
/-! SUPPORT. What each update of the state leaves in each field: one lemma per field, so that no later proof unfolds an update. -/

namespace Sys2Proof.Machine

/-- Two states with the same fields are the same state. -/
theorem State.eq_of_fields {s t : State} (cfg : s.cfg = t.cfg) (regs : s.regs = t.regs) (pc : s.pc = t.pc) (rom : s.rom = t.rom)
    (ram : s.ram = t.ram) (vram : s.vram = t.vram) (joy : s.joy = t.joy) (bridge : s.bridge = t.bridge) (apu : s.apu = t.apu)
    (fb : s.fb = t.fb) (agenda : s.agenda = t.agenda) (audioTurns : s.audioTurns = t.audioTurns) (out : s.out = t.out) : s = t := by
  obtain ⟨⟩ := s
  obtain ⟨⟩ := t
  simp_all

/-! ## Program counter and registers -/

@[simp] theorem State.setPc_cfg (s : State) (a : Word) : (s.setPc a).cfg = s.cfg := rfl
@[simp] theorem State.setPc_regs (s : State) (a : Word) : (s.setPc a).regs = s.regs := rfl
@[simp] theorem State.setPc_rom (s : State) (a : Word) : (s.setPc a).rom = s.rom := rfl
@[simp] theorem State.setPc_ram (s : State) (a : Word) : (s.setPc a).ram = s.ram := rfl
@[simp] theorem State.setPc_vram (s : State) (a : Word) : (s.setPc a).vram = s.vram := rfl
@[simp] theorem State.setPc_joy (s : State) (a : Word) : (s.setPc a).joy = s.joy := rfl
@[simp] theorem State.setPc_bridge (s : State) (a : Word) : (s.setPc a).bridge = s.bridge := rfl
@[simp] theorem State.setPc_apu (s : State) (a : Word) : (s.setPc a).apu = s.apu := rfl
@[simp] theorem State.setPc_fb (s : State) (a : Word) : (s.setPc a).fb = s.fb := rfl
@[simp] theorem State.setPc_agenda (s : State) (a : Word) : (s.setPc a).agenda = s.agenda := rfl
@[simp] theorem State.setPc_audioTurns (s : State) (a : Word) : (s.setPc a).audioTurns = s.audioTurns := rfl
@[simp] theorem State.setPc_out (s : State) (a : Word) : (s.setPc a).out = s.out := rfl
@[simp] theorem State.setPc_pc (s : State) (a : Word) : (s.setPc a).pc = a := rfl

@[simp] theorem State.setReg_cfg (s : State) (r : RegIdx) (v : Word) : (s.setReg r v).cfg = s.cfg := by
  unfold State.setReg; split <;> rfl
@[simp] theorem State.setReg_pc (s : State) (r : RegIdx) (v : Word) : (s.setReg r v).pc = s.pc := by
  unfold State.setReg; split <;> rfl
@[simp] theorem State.setReg_rom (s : State) (r : RegIdx) (v : Word) : (s.setReg r v).rom = s.rom := by
  unfold State.setReg; split <;> rfl
@[simp] theorem State.setReg_ram (s : State) (r : RegIdx) (v : Word) : (s.setReg r v).ram = s.ram := by
  unfold State.setReg; split <;> rfl
@[simp] theorem State.setReg_vram (s : State) (r : RegIdx) (v : Word) : (s.setReg r v).vram = s.vram := by
  unfold State.setReg; split <;> rfl
@[simp] theorem State.setReg_joy (s : State) (r : RegIdx) (v : Word) : (s.setReg r v).joy = s.joy := by
  unfold State.setReg; split <;> rfl
@[simp] theorem State.setReg_bridge (s : State) (r : RegIdx) (v : Word) : (s.setReg r v).bridge = s.bridge := by
  unfold State.setReg; split <;> rfl
@[simp] theorem State.setReg_apu (s : State) (r : RegIdx) (v : Word) : (s.setReg r v).apu = s.apu := by
  unfold State.setReg; split <;> rfl
@[simp] theorem State.setReg_fb (s : State) (r : RegIdx) (v : Word) : (s.setReg r v).fb = s.fb := by
  unfold State.setReg; split <;> rfl
@[simp] theorem State.setReg_agenda (s : State) (r : RegIdx) (v : Word) : (s.setReg r v).agenda = s.agenda := by
  unfold State.setReg; split <;> rfl
@[simp] theorem State.setReg_audioTurns (s : State) (r : RegIdx) (v : Word) : (s.setReg r v).audioTurns = s.audioTurns := by
  unfold State.setReg; split <;> rfl
@[simp] theorem State.setReg_out (s : State) (r : RegIdx) (v : Word) : (s.setReg r v).out = s.out := by
  unfold State.setReg; split <;> rfl

@[simp] theorem State.advance_cfg (s : State) : (s.advance).cfg = s.cfg := rfl
@[simp] theorem State.advance_regs (s : State) : (s.advance).regs = s.regs := rfl
@[simp] theorem State.advance_rom (s : State) : (s.advance).rom = s.rom := rfl
@[simp] theorem State.advance_ram (s : State) : (s.advance).ram = s.ram := rfl
@[simp] theorem State.advance_vram (s : State) : (s.advance).vram = s.vram := rfl
@[simp] theorem State.advance_joy (s : State) : (s.advance).joy = s.joy := rfl
@[simp] theorem State.advance_bridge (s : State) : (s.advance).bridge = s.bridge := rfl
@[simp] theorem State.advance_apu (s : State) : (s.advance).apu = s.apu := rfl
@[simp] theorem State.advance_fb (s : State) : (s.advance).fb = s.fb := rfl
@[simp] theorem State.advance_agenda (s : State) : (s.advance).agenda = s.agenda := rfl
@[simp] theorem State.advance_audioTurns (s : State) : (s.advance).audioTurns = s.audioTurns := rfl
@[simp] theorem State.advance_out (s : State) : (s.advance).out = s.out := rfl
@[simp] theorem State.advance_pc (s : State) : s.advance.pc = s.pc4 := rfl

@[simp] theorem State.writeBack_cfg (s : State) (rd : RegIdx) (v : Word) : (s.writeBack rd v).cfg = s.cfg := by
  simp [State.writeBack]
@[simp] theorem State.writeBack_rom (s : State) (rd : RegIdx) (v : Word) : (s.writeBack rd v).rom = s.rom := by
  simp [State.writeBack]
@[simp] theorem State.writeBack_ram (s : State) (rd : RegIdx) (v : Word) : (s.writeBack rd v).ram = s.ram := by
  simp [State.writeBack]
@[simp] theorem State.writeBack_vram (s : State) (rd : RegIdx) (v : Word) : (s.writeBack rd v).vram = s.vram := by
  simp [State.writeBack]
@[simp] theorem State.writeBack_joy (s : State) (rd : RegIdx) (v : Word) : (s.writeBack rd v).joy = s.joy := by
  simp [State.writeBack]
@[simp] theorem State.writeBack_bridge (s : State) (rd : RegIdx) (v : Word) : (s.writeBack rd v).bridge = s.bridge := by
  simp [State.writeBack]
@[simp] theorem State.writeBack_apu (s : State) (rd : RegIdx) (v : Word) : (s.writeBack rd v).apu = s.apu := by
  simp [State.writeBack]
@[simp] theorem State.writeBack_fb (s : State) (rd : RegIdx) (v : Word) : (s.writeBack rd v).fb = s.fb := by
  simp [State.writeBack]
@[simp] theorem State.writeBack_agenda (s : State) (rd : RegIdx) (v : Word) : (s.writeBack rd v).agenda = s.agenda := by
  simp [State.writeBack]
@[simp] theorem State.writeBack_audioTurns (s : State) (rd : RegIdx) (v : Word) : (s.writeBack rd v).audioTurns = s.audioTurns := by
  simp [State.writeBack]
@[simp] theorem State.writeBack_out (s : State) (rd : RegIdx) (v : Word) : (s.writeBack rd v).out = s.out := by
  simp [State.writeBack]
@[simp] theorem State.writeBack_pc (s : State) (rd : RegIdx) (v : Word) : (s.writeBack rd v).pc = s.pc4 := by
  simp [State.writeBack, State.pc4]

@[simp] theorem State.linkTo_cfg (s : State) (rd : RegIdx) (a : Word) : (s.linkTo rd a).cfg = s.cfg := by
  simp [State.linkTo]
@[simp] theorem State.linkTo_rom (s : State) (rd : RegIdx) (a : Word) : (s.linkTo rd a).rom = s.rom := by
  simp [State.linkTo]
@[simp] theorem State.linkTo_ram (s : State) (rd : RegIdx) (a : Word) : (s.linkTo rd a).ram = s.ram := by
  simp [State.linkTo]
@[simp] theorem State.linkTo_vram (s : State) (rd : RegIdx) (a : Word) : (s.linkTo rd a).vram = s.vram := by
  simp [State.linkTo]
@[simp] theorem State.linkTo_joy (s : State) (rd : RegIdx) (a : Word) : (s.linkTo rd a).joy = s.joy := by
  simp [State.linkTo]
@[simp] theorem State.linkTo_bridge (s : State) (rd : RegIdx) (a : Word) : (s.linkTo rd a).bridge = s.bridge := by
  simp [State.linkTo]
@[simp] theorem State.linkTo_apu (s : State) (rd : RegIdx) (a : Word) : (s.linkTo rd a).apu = s.apu := by
  simp [State.linkTo]
@[simp] theorem State.linkTo_fb (s : State) (rd : RegIdx) (a : Word) : (s.linkTo rd a).fb = s.fb := by
  simp [State.linkTo]
@[simp] theorem State.linkTo_agenda (s : State) (rd : RegIdx) (a : Word) : (s.linkTo rd a).agenda = s.agenda := by
  simp [State.linkTo]
@[simp] theorem State.linkTo_audioTurns (s : State) (rd : RegIdx) (a : Word) : (s.linkTo rd a).audioTurns = s.audioTurns := by
  simp [State.linkTo]
@[simp] theorem State.linkTo_out (s : State) (rd : RegIdx) (a : Word) : (s.linkTo rd a).out = s.out := by
  simp [State.linkTo]
@[simp] theorem State.linkTo_pc (s : State) (rd : RegIdx) (a : Word) : (s.linkTo rd a).pc = a := rfl

@[simp] theorem State.branchIf_cfg (s : State) (b : Bool) (a : Word) : (s.branchIf b a).cfg = s.cfg := by
  cases b <;> rfl
@[simp] theorem State.branchIf_regs (s : State) (b : Bool) (a : Word) : (s.branchIf b a).regs = s.regs := by
  cases b <;> rfl
@[simp] theorem State.branchIf_rom (s : State) (b : Bool) (a : Word) : (s.branchIf b a).rom = s.rom := by
  cases b <;> rfl
@[simp] theorem State.branchIf_ram (s : State) (b : Bool) (a : Word) : (s.branchIf b a).ram = s.ram := by
  cases b <;> rfl
@[simp] theorem State.branchIf_vram (s : State) (b : Bool) (a : Word) : (s.branchIf b a).vram = s.vram := by
  cases b <;> rfl
@[simp] theorem State.branchIf_joy (s : State) (b : Bool) (a : Word) : (s.branchIf b a).joy = s.joy := by
  cases b <;> rfl
@[simp] theorem State.branchIf_bridge (s : State) (b : Bool) (a : Word) : (s.branchIf b a).bridge = s.bridge := by
  cases b <;> rfl
@[simp] theorem State.branchIf_apu (s : State) (b : Bool) (a : Word) : (s.branchIf b a).apu = s.apu := by
  cases b <;> rfl
@[simp] theorem State.branchIf_fb (s : State) (b : Bool) (a : Word) : (s.branchIf b a).fb = s.fb := by
  cases b <;> rfl
@[simp] theorem State.branchIf_agenda (s : State) (b : Bool) (a : Word) : (s.branchIf b a).agenda = s.agenda := by
  cases b <;> rfl
@[simp] theorem State.branchIf_audioTurns (s : State) (b : Bool) (a : Word) : (s.branchIf b a).audioTurns = s.audioTurns := by
  cases b <;> rfl
@[simp] theorem State.branchIf_out (s : State) (b : Bool) (a : Word) : (s.branchIf b a).out = s.out := by
  cases b <;> rfl
@[simp] theorem State.branchIf_pc (s : State) (b : Bool) (a : Word) : (s.branchIf b a).pc = if b then a else s.pc4 := by
  cases b <;> rfl

/-! ## Reading registers -/

/-- Register 0 reads as zero in every state (R21). -/
@[simp] theorem State.reg_zero (s : State) : s.reg 0#5 = 0#32 := rfl

theorem State.reg_congr {s t : State} (h : t.regs = s.regs) (r : RegIdx) : t.reg r = s.reg r := by
  unfold State.reg; rw [h]

/-- Reading a register after a write: the written value at that register, unless it is register 0. -/
theorem State.reg_setReg (s : State) (rd r : RegIdx) (v : Word) :
    (s.setReg rd v).reg r = if r = rd ∧ rd ≠ 0#5 then v else s.reg r := by
  unfold State.setReg
  by_cases h0 : rd = 0#5
  · simp [h0]
  · rw [if_neg h0]
    by_cases hr : r = rd
    · subst hr; simp [State.reg, h0]
    · have hn : rd.toNat ≠ r.toNat := fun h => hr (BitVec.eq_of_toNat_eq h.symm)
      simp [State.reg, hr, hn]

@[simp] theorem State.reg_setReg_same (s : State) (rd : RegIdx) (v : Word) :
    (s.setReg rd v).reg rd = if rd = 0#5 then 0#32 else v := by
  rw [State.reg_setReg]; split_ifs <;> simp_all

theorem State.reg_setReg_other (s : State) {rd r : RegIdx} (v : Word) (h : r ≠ rd) : (s.setReg rd v).reg r = s.reg r := by
  rw [State.reg_setReg, if_neg (fun hh => h hh.1)]

@[simp] theorem State.reg_setPc (s : State) (a : Word) (r : RegIdx) : (s.setPc a).reg r = s.reg r := rfl

@[simp] theorem State.reg_advance (s : State) (r : RegIdx) : s.advance.reg r = s.reg r := rfl

@[simp] theorem State.reg_writeBack (s : State) (rd r : RegIdx) (v : Word) : (s.writeBack rd v).reg r = (s.setReg rd v).reg r := rfl

@[simp] theorem State.reg_linkTo (s : State) (rd r : RegIdx) (a : Word) : (s.linkTo rd a).reg r = (s.setReg rd s.pc4).reg r := rfl

@[simp] theorem State.reg_branchIf (s : State) (b : Bool) (a : Word) (r : RegIdx) : (s.branchIf b a).reg r = s.reg r := by
  cases b <;> rfl

/-- A register write keeps slot 0 of the register file. -/
theorem State.setReg_slot_zero (s : State) (rd : RegIdx) (v : Word) : (s.setReg rd v).regs[0] = s.regs[0] := by
  unfold State.setReg
  by_cases h0 : rd = 0#5
  · rw [if_pos h0]
  · rw [if_neg h0]
    have : rd.toNat ≠ 0 := fun h => h0 (BitVec.eq_of_toNat_eq h)
    simp [this]

@[simp] theorem State.writeBack_regs (s : State) (rd : RegIdx) (v : Word) : (s.writeBack rd v).regs = (s.setReg rd v).regs := rfl

@[simp] theorem State.linkTo_regs (s : State) (rd : RegIdx) (a : Word) : (s.linkTo rd a).regs = (s.setReg rd s.pc4).regs := rfl

/-! ## The APU -/

@[simp] theorem State.generate_cfg (s : State) (n : Nat) : (s.generate n).cfg = s.cfg := rfl
@[simp] theorem State.generate_regs (s : State) (n : Nat) : (s.generate n).regs = s.regs := rfl
@[simp] theorem State.generate_pc (s : State) (n : Nat) : (s.generate n).pc = s.pc := rfl
@[simp] theorem State.generate_rom (s : State) (n : Nat) : (s.generate n).rom = s.rom := rfl
@[simp] theorem State.generate_ram (s : State) (n : Nat) : (s.generate n).ram = s.ram := rfl
@[simp] theorem State.generate_vram (s : State) (n : Nat) : (s.generate n).vram = s.vram := rfl
@[simp] theorem State.generate_joy (s : State) (n : Nat) : (s.generate n).joy = s.joy := rfl
@[simp] theorem State.generate_bridge (s : State) (n : Nat) : (s.generate n).bridge = s.bridge := rfl
@[simp] theorem State.generate_fb (s : State) (n : Nat) : (s.generate n).fb = s.fb := rfl
@[simp] theorem State.generate_agenda (s : State) (n : Nat) : (s.generate n).agenda = s.agenda := rfl
@[simp] theorem State.generate_audioTurns (s : State) (n : Nat) : (s.generate n).audioTurns = s.audioTurns := rfl
@[simp] theorem State.generate_apu (s : State) (n : Nat) : (s.generate n).apu = apuAfter n s.apu := rfl
@[simp] theorem State.generate_out (s : State) (n : Nat) : (s.generate n).out = s.out ++ [.samples (samplesOf n s.apu)] := rfl

/-- What passes can change: the channels and the log. -/
theorem State.generateAll_eq (s : State) (ns : List Nat) :
    s.generateAll ns = { s with apu := (s.generateAll ns).apu, out := (s.generateAll ns).out } := by
  induction ns generalizing s with
  | nil => rfl
  | cons n ns ih => exact ih (s.generate n)

@[simp] theorem State.generateAll_nil (s : State) : s.generateAll [] = s := rfl
@[simp] theorem State.generateAll_cons (s : State) (n : Nat) (ns : List Nat) :
    s.generateAll (n :: ns) = (s.generate n).generateAll ns := rfl
@[simp] theorem State.generateAll_cfg (s : State) (ns : List Nat) : (s.generateAll ns).cfg = s.cfg := by
  rw [State.generateAll_eq]
@[simp] theorem State.generateAll_regs (s : State) (ns : List Nat) : (s.generateAll ns).regs = s.regs := by
  rw [State.generateAll_eq]
@[simp] theorem State.generateAll_pc (s : State) (ns : List Nat) : (s.generateAll ns).pc = s.pc := by
  rw [State.generateAll_eq]
@[simp] theorem State.generateAll_rom (s : State) (ns : List Nat) : (s.generateAll ns).rom = s.rom := by
  rw [State.generateAll_eq]
@[simp] theorem State.generateAll_ram (s : State) (ns : List Nat) : (s.generateAll ns).ram = s.ram := by
  rw [State.generateAll_eq]
@[simp] theorem State.generateAll_vram (s : State) (ns : List Nat) : (s.generateAll ns).vram = s.vram := by
  rw [State.generateAll_eq]
@[simp] theorem State.generateAll_joy (s : State) (ns : List Nat) : (s.generateAll ns).joy = s.joy := by
  rw [State.generateAll_eq]
@[simp] theorem State.generateAll_bridge (s : State) (ns : List Nat) : (s.generateAll ns).bridge = s.bridge := by
  rw [State.generateAll_eq]
@[simp] theorem State.generateAll_fb (s : State) (ns : List Nat) : (s.generateAll ns).fb = s.fb := by
  rw [State.generateAll_eq]
@[simp] theorem State.generateAll_agenda (s : State) (ns : List Nat) : (s.generateAll ns).agenda = s.agenda := by
  rw [State.generateAll_eq]
@[simp] theorem State.generateAll_audioTurns (s : State) (ns : List Nat) : (s.generateAll ns).audioTurns = s.audioTurns := by
  rw [State.generateAll_eq]

/-- With no sample pass waiting, a register write finds the state as it is. -/
theorem State.audioTurn_of_nil {s : State} (h : s.audioTurns = []) : s.audioTurn = s := by
  unfold State.audioTurn; rw [h]

/-- Waiting passes run first, and their entry leaves the schedule. -/
theorem State.audioTurn_of_cons {s : State} {ns : List Nat} {rest : List (List Nat)} (h : s.audioTurns = ns :: rest) :
    s.audioTurn = ({ s with audioTurns := rest } : State).generateAll ns := by
  unfold State.audioTurn; rw [h]

@[simp] theorem State.audioTurn_cfg (s : State) : s.audioTurn.cfg = s.cfg := by
  unfold State.audioTurn; split <;> simp
@[simp] theorem State.audioTurn_regs (s : State) : s.audioTurn.regs = s.regs := by
  unfold State.audioTurn; split <;> simp
@[simp] theorem State.audioTurn_pc (s : State) : s.audioTurn.pc = s.pc := by
  unfold State.audioTurn; split <;> simp
@[simp] theorem State.audioTurn_rom (s : State) : s.audioTurn.rom = s.rom := by
  unfold State.audioTurn; split <;> simp
@[simp] theorem State.audioTurn_ram (s : State) : s.audioTurn.ram = s.ram := by
  unfold State.audioTurn; split <;> simp
@[simp] theorem State.audioTurn_vram (s : State) : s.audioTurn.vram = s.vram := by
  unfold State.audioTurn; split <;> simp
@[simp] theorem State.audioTurn_joy (s : State) : s.audioTurn.joy = s.joy := by
  unfold State.audioTurn; split <;> simp
@[simp] theorem State.audioTurn_bridge (s : State) : s.audioTurn.bridge = s.bridge := by
  unfold State.audioTurn; split <;> simp
@[simp] theorem State.audioTurn_fb (s : State) : s.audioTurn.fb = s.fb := by
  unfold State.audioTurn; split <;> simp
@[simp] theorem State.audioTurn_agenda (s : State) : s.audioTurn.agenda = s.agenda := by
  unfold State.audioTurn; split <;> simp
@[simp] theorem State.audioTurn_audioTurns (s : State) : s.audioTurn.audioTurns = s.audioTurns.tail := by
  unfold State.audioTurn; split <;> simp_all

@[simp] theorem State.apuWrite8_cfg (s : State) (o : Nat) (v : Byte) : (s.apuWrite8 o v).cfg = s.cfg := by
  unfold State.apuWrite8; split <;> simp
@[simp] theorem State.apuWrite8_regs (s : State) (o : Nat) (v : Byte) : (s.apuWrite8 o v).regs = s.regs := by
  unfold State.apuWrite8; split <;> simp
@[simp] theorem State.apuWrite8_pc (s : State) (o : Nat) (v : Byte) : (s.apuWrite8 o v).pc = s.pc := by
  unfold State.apuWrite8; split <;> simp
@[simp] theorem State.apuWrite8_rom (s : State) (o : Nat) (v : Byte) : (s.apuWrite8 o v).rom = s.rom := by
  unfold State.apuWrite8; split <;> simp
@[simp] theorem State.apuWrite8_ram (s : State) (o : Nat) (v : Byte) : (s.apuWrite8 o v).ram = s.ram := by
  unfold State.apuWrite8; split <;> simp
@[simp] theorem State.apuWrite8_vram (s : State) (o : Nat) (v : Byte) : (s.apuWrite8 o v).vram = s.vram := by
  unfold State.apuWrite8; split <;> simp
@[simp] theorem State.apuWrite8_joy (s : State) (o : Nat) (v : Byte) : (s.apuWrite8 o v).joy = s.joy := by
  unfold State.apuWrite8; split <;> simp
@[simp] theorem State.apuWrite8_bridge (s : State) (o : Nat) (v : Byte) : (s.apuWrite8 o v).bridge = s.bridge := by
  unfold State.apuWrite8; split <;> simp
@[simp] theorem State.apuWrite8_fb (s : State) (o : Nat) (v : Byte) : (s.apuWrite8 o v).fb = s.fb := by
  unfold State.apuWrite8; split <;> simp
@[simp] theorem State.apuWrite8_agenda (s : State) (o : Nat) (v : Byte) : (s.apuWrite8 o v).agenda = s.agenda := by
  unfold State.apuWrite8; split <;> simp

/-! ## The Bus -/

@[simp] theorem State.write8_cfg (s : State) (a : Word) (v : Byte) : (s.write8 a v).cfg = s.cfg := by
  unfold State.write8 State.writeAt; split <;> simp
@[simp] theorem State.write8_regs (s : State) (a : Word) (v : Byte) : (s.write8 a v).regs = s.regs := by
  unfold State.write8 State.writeAt; split <;> simp
@[simp] theorem State.write8_pc (s : State) (a : Word) (v : Byte) : (s.write8 a v).pc = s.pc := by
  unfold State.write8 State.writeAt; split <;> simp
@[simp] theorem State.write8_rom (s : State) (a : Word) (v : Byte) : (s.write8 a v).rom = s.rom := by
  unfold State.write8 State.writeAt; split <;> simp
@[simp] theorem State.write8_fb (s : State) (a : Word) (v : Byte) : (s.write8 a v).fb = s.fb := by
  unfold State.write8 State.writeAt; split <;> simp
@[simp] theorem State.write8_agenda (s : State) (a : Word) (v : Byte) : (s.write8 a v).agenda = s.agenda := by
  unfold State.write8 State.writeAt; split <;> simp
@[simp] theorem State.reg_write8 (s : State) (a : Word) (v : Byte) (r : RegIdx) : (s.write8 a v).reg r = s.reg r := State.reg_congr (by simp) r

@[simp] theorem State.write16_cfg (s : State) (a : Word) (v : BitVec 16) : (s.write16 a v).cfg = s.cfg := by
  simp [State.write16]
@[simp] theorem State.write16_regs (s : State) (a : Word) (v : BitVec 16) : (s.write16 a v).regs = s.regs := by
  simp [State.write16]
@[simp] theorem State.write16_pc (s : State) (a : Word) (v : BitVec 16) : (s.write16 a v).pc = s.pc := by
  simp [State.write16]
@[simp] theorem State.write16_rom (s : State) (a : Word) (v : BitVec 16) : (s.write16 a v).rom = s.rom := by
  simp [State.write16]
@[simp] theorem State.write16_fb (s : State) (a : Word) (v : BitVec 16) : (s.write16 a v).fb = s.fb := by
  simp [State.write16]
@[simp] theorem State.write16_agenda (s : State) (a : Word) (v : BitVec 16) : (s.write16 a v).agenda = s.agenda := by
  simp [State.write16]
@[simp] theorem State.reg_write16 (s : State) (a : Word) (v : BitVec 16) (r : RegIdx) : (s.write16 a v).reg r = s.reg r := State.reg_congr (by simp) r

@[simp] theorem State.write32_cfg (s : State) (a v : Word) : (s.write32 a v).cfg = s.cfg := by
  simp [State.write32]
@[simp] theorem State.write32_regs (s : State) (a v : Word) : (s.write32 a v).regs = s.regs := by
  simp [State.write32]
@[simp] theorem State.write32_pc (s : State) (a v : Word) : (s.write32 a v).pc = s.pc := by
  simp [State.write32]
@[simp] theorem State.write32_rom (s : State) (a v : Word) : (s.write32 a v).rom = s.rom := by
  simp [State.write32]
@[simp] theorem State.write32_fb (s : State) (a v : Word) : (s.write32 a v).fb = s.fb := by
  simp [State.write32]
@[simp] theorem State.write32_agenda (s : State) (a v : Word) : (s.write32 a v).agenda = s.agenda := by
  simp [State.write32]
@[simp] theorem State.reg_write32 (s : State) (a v : Word) (r : RegIdx) : (s.write32 a v).reg r = s.reg r := State.reg_congr (by simp) r

end Sys2Proof.Machine
end

