-- ==== Sys2Proof/Laws/Apu.lean ====
section
/-! SUPPORT. The laws of the APU's records: which channel a register write changes, and how a pass unfolds. -/

namespace Sys2Proof.Machine

/-- Channel c after a change of each. -/
theorem onChannels_get (f : Nat → Channel → Channel) (apu : Vector Channel 4) (c : Nat) (hc : c < 4) :
    (onChannels f apu)[c] = f c apu[c] := by
  match c, hc with
  | 0, _ => rfl
  | 1, _ => rfl
  | 2, _ => rfl
  | 3, _ => rfl

/-- A register write changes the channel its offset selects, and no other (R300). -/
theorem apuSet_get (apu : Vector Channel 4) (o : Nat) (v : Byte) (c : Nat) (hc : c < 4) :
    (apuSet apu o v)[c] = if c = o / 4 then apu[c].writeReg (o % 4) v else apu[c] :=
  onChannels_get _ apu c hc

@[simp] theorem apuAfter_zero (apu : Vector Channel 4) : apuAfter 0 apu = apu := rfl

theorem apuAfter_succ (n : Nat) (apu : Vector Channel 4) : apuAfter (n + 1) apu = apuAfter n (apuTick apu) := rfl

@[simp] theorem samplesOf_zero (apu : Vector Channel 4) : samplesOf 0 apu = [] := rfl

theorem samplesOf_succ (n : Nat) (apu : Vector Channel 4) :
    samplesOf (n + 1) apu = sampleNow apu :: samplesOf n (apuTick apu) := rfl

/-- A pass of n samples makes n samples. -/
@[simp] theorem samplesOf_length (n : Nat) (apu : Vector Channel 4) : (samplesOf n apu).length = n := by
  induction n generalizing apu with
  | zero => rfl
  | succ n ih => simp [samplesOf_succ, ih]

/-- One sample changes the phase of a channel and nothing else of it. -/
@[simp] theorem Channel.tick_en (c : Channel) : c.tick.en = c.en := by unfold Channel.tick; split <;> rfl
@[simp] theorem Channel.tick_wave (c : Channel) : c.tick.wave = c.wave := by unfold Channel.tick; split <;> rfl
@[simp] theorem Channel.tick_freq (c : Channel) : c.tick.freq = c.freq := by unfold Channel.tick; split <;> rfl
@[simp] theorem Channel.tick_vol (c : Channel) : c.tick.vol = c.vol := by unfold Channel.tick; split <;> rfl

/-- A channel that sounds goes on sounding. -/
@[simp] theorem Channel.tick_sounding (c : Channel) : c.tick.sounding = c.sounding := by simp [Channel.sounding]

/-- The channel c after n samples is its own n-fold advance. -/
theorem apuAfter_get (n : Nat) (apu : Vector Channel 4) (c : Nat) (hc : c < 4) :
    (apuAfter n apu)[c] = (Channel.tick^[n]) apu[c] := by
  induction n generalizing apu with
  | zero => rfl
  | succ n ih => rw [apuAfter_succ, ih, Function.iterate_succ_apply, apuTick, onChannels_get]

/-- The k-th sample of a pass is made from the channels as k samples have left them. -/
theorem samplesOf_get (n : Nat) (apu : Vector Channel 4) (k : Nat) (hk : k < n) :
    (samplesOf n apu)[k]? = some (sampleNow (apuAfter k apu)) := by
  induction n generalizing apu k with
  | zero => omega
  | succ n ih =>
    rw [samplesOf_succ]
    cases k with
    | zero => rfl
    | succ k => rw [List.getElem?_cons_succ, ih _ _ (by omega)]; rfl

/-- A channel after n samples, in closed form. -/
theorem Channel.tick_iterate (n : Nat) (ch : Channel) :
    Channel.tick^[n] ch = if ch.sounding then
      { ch with phase := ⟨(ch.phase.val + n * ch.freq.toNat) % sampleRate, Nat.mod_lt _ (by decide)⟩ } else ch := by
  induction n generalizing ch with
  | zero =>
    simp only [Function.iterate_zero, id, Nat.zero_mul, Nat.add_zero]
    split_ifs
    · have := ch.phase.isLt
      obtain ⟨a, b, c, d, p⟩ := ch
      congr 1
      exact Fin.ext (Nat.mod_eq_of_lt this).symm
    · rfl
  | succ n ih =>
    rw [Function.iterate_succ_apply, ih, Channel.tick_sounding]
    split_ifs with h
    · unfold Channel.tick
      rw [if_pos h]
      dsimp only
      congr 1
      apply Fin.ext
      show ((ch.phase.val + ch.freq.toNat) % sampleRate + n * ch.freq.toNat) % sampleRate = _
      rw [Nat.mod_add_mod]
      congr 1
      ring
    · unfold Channel.tick
      rw [if_neg h]

/-- A channel sounds when it is enabled and its frequency is not zero (R310). -/
theorem Channel.sounding_iff (ch : Channel) : ch.sounding = true ↔ ch.en = true ∧ 0 < ch.freq.toNat := by
  simp only [Channel.sounding, Bool.and_eq_true, decide_eq_true_eq, Nat.pos_iff_ne_zero, ne_eq, and_congr_right_iff]
  exact fun _ => not_iff_not.mpr ⟨fun h => by rw [h]; rfl, fun h => BitVec.eq_of_toNat_eq h⟩

/-- A phase lies in [0, 1) (R38). -/
theorem phaseValue_mem (p : Phase) : 0 ≤ phaseValue p ∧ phaseValue p < 1 := by
  unfold phaseValue
  refine ⟨by positivity, ?_⟩
  rw [div_lt_one (by norm_num [sampleRate])]
  exact_mod_cast p.isLt

/-- A register write with no sample pass waiting in front of it (R300). -/
theorem State.apuWrite8_eq {s : State} {o : Nat} (v : Byte) (ho : o < 16) (h : s.audioTurns = []) :
    s.apuWrite8 o v = { s with apu := apuSet s.apu o v } := by
  unfold State.apuWrite8
  rw [if_pos ho, State.audioTurn_of_nil h]

end Sys2Proof.Machine
end

