-- ==== Sys2Proof/Laws/Encoding.lean ====
section
/-! SUPPORT. Words as numbers: the fields of a word are its digits, and each field arrangement is the sum of its fields. The decoder's
fields of an encoded word follow by arithmetic. -/

namespace Sys2Proof

/-- Concatenation as a number. -/
theorem toNat_append_eq {m n : Nat} (x : BitVec m) (y : BitVec n) : (x ++ y).toNat = x.toNat * 2 ^ n + y.toNat := by
  rw [BitVec.toNat_append, ← Nat.shiftLeft_add_eq_or_of_lt y.isLt, Nat.shiftLeft_eq]

/-- A field as a number. -/
theorem toNat_field {n : Nat} (x : BitVec n) (lo len : Nat) : (x.extractLsb' lo len).toNat = x.toNat / 2 ^ lo % 2 ^ len := by
  rw [BitVec.extractLsb'_toNat, Nat.shiftRight_eq_div_pow]

theorem opcodeOf_toNat (w : Word) : (opcodeOf w).toNat = w.toNat % 128 := by simp [opcodeOf]
theorem rdOf_toNat (w : Word) : (rdOf w).toNat = w.toNat / 128 % 32 := toNat_field w 7 5
theorem f3Of_toNat (w : Word) : (f3Of w).toNat = w.toNat / 4096 % 8 := toNat_field w 12 3
theorem rs1Of_toNat (w : Word) : (rs1Of w).toNat = w.toNat / 32768 % 32 := toNat_field w 15 5
theorem rs2Of_toNat (w : Word) : (rs2Of w).toNat = w.toNat / 1048576 % 32 := toNat_field w 20 5
theorem shamtOf_toNat (w : Word) : (shamtOf w).toNat = w.toNat / 1048576 % 32 := toNat_field w 20 5
theorem f7Of_toNat (w : Word) : (f7Of w).toNat = w.toNat / 33554432 % 128 := toNat_field w 25 7
theorem immIOf_toNat (w : Word) : (immIOf w).toNat = w.toNat / 1048576 % 4096 := toNat_field w 20 12
theorem immUOf_toNat (w : Word) : (immUOf w).toNat = w.toNat / 4096 % 1048576 := toNat_field w 12 20

/-! ## Encoded words as sums -/

theorem encodeR_toNat (f7 : BitVec 7) (rs2 rs1 : RegIdx) (f3 : BitVec 3) (rd : RegIdx) (op : BitVec 7) :
    (encodeR f7 rs2 rs1 f3 rd op).toNat =
      ((((f7.toNat * 32 + rs2.toNat) * 32 + rs1.toNat) * 8 + f3.toNat) * 32 + rd.toNat) * 128 + op.toNat := by
  have h1 := toNat_append_eq f7 rs2
  have h2 := toNat_append_eq (f7 ++ rs2) rs1
  have h3 := toNat_append_eq (f7 ++ rs2 ++ rs1) f3
  have h4 := toNat_append_eq (f7 ++ rs2 ++ rs1 ++ f3) rd
  have h5 := toNat_append_eq (f7 ++ rs2 ++ rs1 ++ f3 ++ rd) op
  rw [h4, h3, h2, h1] at h5
  exact h5

theorem encodeI_toNat (imm : BitVec 12) (rs1 : RegIdx) (f3 : BitVec 3) (rd : RegIdx) (op : BitVec 7) :
    (encodeI imm rs1 f3 rd op).toNat = (((imm.toNat * 32 + rs1.toNat) * 8 + f3.toNat) * 32 + rd.toNat) * 128 + op.toNat := by
  have h2 := toNat_append_eq imm rs1
  have h3 := toNat_append_eq (imm ++ rs1) f3
  have h4 := toNat_append_eq (imm ++ rs1 ++ f3) rd
  have h5 := toNat_append_eq (imm ++ rs1 ++ f3 ++ rd) op
  rw [h4, h3, h2] at h5
  exact h5

theorem encodeU_toNat (imm : BitVec 20) (rd : RegIdx) (op : BitVec 7) :
    (encodeU imm rd op).toNat = (imm.toNat * 32 + rd.toNat) * 128 + op.toNat := by
  have h1 := toNat_append_eq imm rd
  have h2 := toNat_append_eq (imm ++ rd) op
  rw [h1] at h2
  exact h2

theorem encodeS_eq (imm : BitVec 12) (rs2 rs1 : RegIdx) (f3 : BitVec 3) (op : BitVec 7) :
    encodeS imm rs2 rs1 f3 op = encodeR (imm.extractLsb' 5 7) rs2 rs1 f3 (imm.extractLsb' 0 5) op := rfl

/-- A branch is laid out as an R word whose f7 and rd hold the offset's bits. -/
theorem encodeB_eq (imm : BitVec 13) (rs2 rs1 : RegIdx) (f3 : BitVec 3) (op : BitVec 7) :
    encodeB imm rs2 rs1 f3 op =
      encodeR (imm.extractLsb' 12 1 ++ imm.extractLsb' 5 6) rs2 rs1 f3 (imm.extractLsb' 1 4 ++ imm.extractLsb' 11 1) op := by
  unfold encodeB
  generalize imm.extractLsb' 12 1 = a, imm.extractLsb' 5 6 = b, imm.extractLsb' 1 4 = c, imm.extractLsb' 11 1 = d
  have h1 := toNat_append_eq a b
  have h2 := toNat_append_eq (a ++ b) rs2
  have h3 := toNat_append_eq (a ++ b ++ rs2) rs1
  have h4 := toNat_append_eq (a ++ b ++ rs2 ++ rs1) f3
  have h5 := toNat_append_eq (a ++ b ++ rs2 ++ rs1 ++ f3) c
  have h6 := toNat_append_eq (a ++ b ++ rs2 ++ rs1 ++ f3 ++ c) d
  have h7 := toNat_append_eq (a ++ b ++ rs2 ++ rs1 ++ f3 ++ c ++ d) op
  have h8 := toNat_append_eq c d
  refine BitVec.eq_of_toNat_eq (h7.trans ?_)
  rw [encodeR_toNat, h6, h5, h4, h3, h2]
  erw [h1, h8]
  omega

/-- A jump is laid out as a U word whose immediate holds the offset's bits. -/
theorem encodeJ_eq (imm : BitVec 21) (rd : RegIdx) (op : BitVec 7) :
    encodeJ imm rd op =
      encodeU (imm.extractLsb' 20 1 ++ imm.extractLsb' 1 10 ++ imm.extractLsb' 11 1 ++ imm.extractLsb' 12 8) rd op := rfl

/-! ## The fields of an encoded word -/

section R
variable (f7 : BitVec 7) (rs2 rs1 : RegIdx) (f3 : BitVec 3) (rd : RegIdx) (op : BitVec 7)

@[simp] theorem opcodeOf_encodeR : opcodeOf (encodeR f7 rs2 rs1 f3 rd op) = op :=
  BitVec.eq_of_toNat_eq (by rw [opcodeOf_toNat, encodeR_toNat]; omega)
@[simp] theorem rdOf_encodeR : rdOf (encodeR f7 rs2 rs1 f3 rd op) = rd :=
  BitVec.eq_of_toNat_eq (by rw [rdOf_toNat, encodeR_toNat]; omega)
@[simp] theorem f3Of_encodeR : f3Of (encodeR f7 rs2 rs1 f3 rd op) = f3 :=
  BitVec.eq_of_toNat_eq (by rw [f3Of_toNat, encodeR_toNat]; omega)
@[simp] theorem rs1Of_encodeR : rs1Of (encodeR f7 rs2 rs1 f3 rd op) = rs1 :=
  BitVec.eq_of_toNat_eq (by rw [rs1Of_toNat, encodeR_toNat]; omega)
@[simp] theorem rs2Of_encodeR : rs2Of (encodeR f7 rs2 rs1 f3 rd op) = rs2 :=
  BitVec.eq_of_toNat_eq (by rw [rs2Of_toNat, encodeR_toNat]; omega)
@[simp] theorem shamtOf_encodeR : shamtOf (encodeR f7 rs2 rs1 f3 rd op) = rs2 :=
  BitVec.eq_of_toNat_eq (by rw [shamtOf_toNat, encodeR_toNat]; omega)
@[simp] theorem f7Of_encodeR : f7Of (encodeR f7 rs2 rs1 f3 rd op) = f7 :=
  BitVec.eq_of_toNat_eq (by rw [f7Of_toNat, encodeR_toNat]; omega)
end R

section I
variable (imm : BitVec 12) (rs1 : RegIdx) (f3 : BitVec 3) (rd : RegIdx) (op : BitVec 7)

@[simp] theorem opcodeOf_encodeI : opcodeOf (encodeI imm rs1 f3 rd op) = op :=
  BitVec.eq_of_toNat_eq (by rw [opcodeOf_toNat, encodeI_toNat]; omega)
@[simp] theorem rdOf_encodeI : rdOf (encodeI imm rs1 f3 rd op) = rd :=
  BitVec.eq_of_toNat_eq (by rw [rdOf_toNat, encodeI_toNat]; omega)
@[simp] theorem f3Of_encodeI : f3Of (encodeI imm rs1 f3 rd op) = f3 :=
  BitVec.eq_of_toNat_eq (by rw [f3Of_toNat, encodeI_toNat]; omega)
@[simp] theorem rs1Of_encodeI : rs1Of (encodeI imm rs1 f3 rd op) = rs1 :=
  BitVec.eq_of_toNat_eq (by rw [rs1Of_toNat, encodeI_toNat]; omega)
@[simp] theorem immIOf_encodeI : immIOf (encodeI imm rs1 f3 rd op) = imm :=
  BitVec.eq_of_toNat_eq (by rw [immIOf_toNat, encodeI_toNat]; omega)
end I

section U
variable (imm : BitVec 20) (rd : RegIdx) (op : BitVec 7)

@[simp] theorem opcodeOf_encodeU : opcodeOf (encodeU imm rd op) = op :=
  BitVec.eq_of_toNat_eq (by rw [opcodeOf_toNat, encodeU_toNat]; omega)
@[simp] theorem rdOf_encodeU : rdOf (encodeU imm rd op) = rd :=
  BitVec.eq_of_toNat_eq (by rw [rdOf_toNat, encodeU_toNat]; omega)
@[simp] theorem immUOf_encodeU : immUOf (encodeU imm rd op) = imm :=
  BitVec.eq_of_toNat_eq (by rw [immUOf_toNat, encodeU_toNat]; omega)
end U

section B
variable (imm : BitVec 13) (rs2 rs1 : RegIdx) (f3 : BitVec 3) (op : BitVec 7)

@[simp] theorem opcodeOf_encodeB : opcodeOf (encodeB imm rs2 rs1 f3 op) = op := by rw [encodeB_eq]; simp
@[simp] theorem f3Of_encodeB : f3Of (encodeB imm rs2 rs1 f3 op) = f3 := by rw [encodeB_eq]; simp
@[simp] theorem rs1Of_encodeB : rs1Of (encodeB imm rs2 rs1 f3 op) = rs1 := by rw [encodeB_eq]; simp
@[simp] theorem rs2Of_encodeB : rs2Of (encodeB imm rs2 rs1 f3 op) = rs2 := by rw [encodeB_eq]; simp
end B

section J
variable (imm : BitVec 21) (rd : RegIdx) (op : BitVec 7)

@[simp] theorem opcodeOf_encodeJ : opcodeOf (encodeJ imm rd op) = op := by rw [encodeJ_eq]; simp
@[simp] theorem rdOf_encodeJ : rdOf (encodeJ imm rd op) = rd := by rw [encodeJ_eq]; simp
end J

section S
variable (imm : BitVec 12) (rs2 rs1 : RegIdx) (f3 : BitVec 3) (op : BitVec 7)

@[simp] theorem opcodeOf_encodeS : opcodeOf (encodeS imm rs2 rs1 f3 op) = op := by rw [encodeS_eq]; simp
@[simp] theorem f3Of_encodeS : f3Of (encodeS imm rs2 rs1 f3 op) = f3 := by rw [encodeS_eq]; simp
@[simp] theorem rs1Of_encodeS : rs1Of (encodeS imm rs2 rs1 f3 op) = rs1 := by rw [encodeS_eq]; simp
@[simp] theorem rs2Of_encodeS : rs2Of (encodeS imm rs2 rs1 f3 op) = rs2 := by rw [encodeS_eq]; simp
end S

/-! ## The scattered immediates: as numbers, and read back from an encoded word -/

theorem immSOf_toNat (w : Word) : (immSOf w).toNat = (f7Of w).toNat * 32 + (rdOf w).toNat := toNat_append_eq (f7Of w) (rdOf w)

theorem immBOf_toNat (w : Word) :
    (immBOf w).toNat = w.toNat / 2 ^ 31 * 4096 + w.toNat / 2 ^ 7 % 2 * 2048 + w.toNat / 2 ^ 25 % 64 * 32 + w.toNat / 2 ^ 8 % 16 * 2 := by
  have h1 := toNat_append_eq (w.extractLsb' 31 1) (w.extractLsb' 7 1)
  have h2 := toNat_append_eq (w.extractLsb' 31 1 ++ w.extractLsb' 7 1) (w.extractLsb' 25 6)
  have h3 := toNat_append_eq (w.extractLsb' 31 1 ++ w.extractLsb' 7 1 ++ w.extractLsb' 25 6) (w.extractLsb' 8 4)
  have h4 := toNat_append_eq (w.extractLsb' 31 1 ++ w.extractLsb' 7 1 ++ w.extractLsb' 25 6 ++ w.extractLsb' 8 4) (0#1)
  rw [h3, h2, h1] at h4
  refine h4.trans ?_
  simp only [toNat_field, BitVec.toNat_ofNat]
  have := w.isLt
  omega

theorem immJOf_toNat (w : Word) :
    (immJOf w).toNat =
      w.toNat / 2 ^ 31 * 1048576 + w.toNat / 2 ^ 12 % 256 * 4096 + w.toNat / 2 ^ 20 % 2 * 2048 + w.toNat / 2 ^ 21 % 1024 * 2 := by
  have h1 := toNat_append_eq (w.extractLsb' 31 1) (w.extractLsb' 12 8)
  have h2 := toNat_append_eq (w.extractLsb' 31 1 ++ w.extractLsb' 12 8) (w.extractLsb' 20 1)
  have h3 := toNat_append_eq (w.extractLsb' 31 1 ++ w.extractLsb' 12 8 ++ w.extractLsb' 20 1) (w.extractLsb' 21 10)
  have h4 := toNat_append_eq (w.extractLsb' 31 1 ++ w.extractLsb' 12 8 ++ w.extractLsb' 20 1 ++ w.extractLsb' 21 10) (0#1)
  rw [h3, h2, h1] at h4
  refine h4.trans ?_
  simp only [toNat_field, BitVec.toNat_ofNat]
  have := w.isLt
  omega

/-- A branch's offset lies in the two fields f7 and rd. -/
theorem immBOf_toNat_fields (w : Word) :
    (immBOf w).toNat =
      (f7Of w).toNat / 64 * 4096 + (rdOf w).toNat % 2 * 2048 + (f7Of w).toNat % 64 * 32 + (rdOf w).toNat / 2 * 2 := by
  rw [immBOf_toNat, f7Of_toNat, rdOf_toNat]
  have := w.isLt
  omega

/-- A jump's offset lies in the field of the upper immediate. -/
theorem immJOf_toNat_fields (w : Word) :
    (immJOf w).toNat = (immUOf w).toNat / 2 ^ 19 * 1048576 + (immUOf w).toNat % 256 * 4096 + (immUOf w).toNat / 256 % 2 * 2048 +
      (immUOf w).toNat / 512 % 1024 * 2 := by
  rw [immJOf_toNat, immUOf_toNat]
  have := w.isLt
  omega

theorem toNat_even_of_evenOffset {w : Nat} {x : BitVec w} (h : evenOffset x = true) : x.toNat % 2 = 0 := by
  simp [evenOffset, BitVec.getLsbD, Nat.testBit_zero] at h
  omega

theorem evenOffset_of_toNat_even {w : Nat} {x : BitVec w} (h : x.toNat % 2 = 0) : evenOffset x = true := by
  simp [evenOffset, BitVec.getLsbD, Nat.testBit_zero]
  omega

theorem evenOffset_immBOf (w : Word) : evenOffset (immBOf w) = true := evenOffset_of_toNat_even (by rw [immBOf_toNat]; omega)

theorem evenOffset_immJOf (w : Word) : evenOffset (immJOf w) = true := evenOffset_of_toNat_even (by rw [immJOf_toNat]; omega)

@[simp] theorem immSOf_encodeS (imm : BitVec 12) (rs2 rs1 : RegIdx) (f3 : BitVec 3) (op : BitVec 7) :
    immSOf (encodeS imm rs2 rs1 f3 op) = imm := by
  refine BitVec.eq_of_toNat_eq ?_
  rw [immSOf_toNat, encodeS_eq, f7Of_encodeR, rdOf_encodeR, toNat_field, toNat_field]
  have := imm.isLt
  omega

/-- Two digits read back from the number they make. -/
theorem two_digits (a b m : Nat) (h : b < m) : (a * m + b) / m = a ∧ (a * m + b) % m = b := by
  constructor
  · rw [Nat.mul_comm, Nat.mul_add_div (by omega), Nat.div_eq_of_lt h, Nat.add_zero]
  · rw [Nat.mul_comm, Nat.mul_add_mod, Nat.mod_eq_of_lt h]

theorem immBOf_encodeB {imm : BitVec 13} (h : evenOffset imm = true) (rs2 rs1 : RegIdx) (f3 : BitVec 3) (op : BitVec 7) :
    immBOf (encodeB imm rs2 rs1 f3 op) = imm := by
  refine BitVec.eq_of_toNat_eq ?_
  have he := toNat_even_of_evenOffset h
  have hi := imm.isLt
  rw [immBOf_toNat_fields, encodeB_eq, f7Of_encodeR, rdOf_encodeR]
  have h1 := toNat_append_eq (imm.extractLsb' 12 1) (imm.extractLsb' 5 6)
  have h2 := toNat_append_eq (imm.extractLsb' 1 4) (imm.extractLsb' 11 1)
  have b1 := (imm.extractLsb' 5 6).isLt
  have b2 := (imm.extractLsb' 11 1).isLt
  have d1 := two_digits (imm.extractLsb' 12 1).toNat _ _ b1
  have d2 := two_digits (imm.extractLsb' 1 4).toNat _ _ b2
  rw [← h1] at d1
  rw [← h2] at d2
  erw [d1.1, d1.2, d2.1, d2.2]
  simp only [toNat_field]
  omega

theorem immJOf_encodeJ {imm : BitVec 21} (h : evenOffset imm = true) (rd : RegIdx) (op : BitVec 7) :
    immJOf (encodeJ imm rd op) = imm := by
  refine BitVec.eq_of_toNat_eq ?_
  have he := toNat_even_of_evenOffset h
  have hi := imm.isLt
  rw [immJOf_toNat_fields, encodeJ_eq, immUOf_encodeU]
  have h1 := toNat_append_eq (imm.extractLsb' 20 1) (imm.extractLsb' 1 10)
  have h2 := toNat_append_eq (imm.extractLsb' 20 1 ++ imm.extractLsb' 1 10) (imm.extractLsb' 11 1)
  have h3 := toNat_append_eq (imm.extractLsb' 20 1 ++ imm.extractLsb' 1 10 ++ imm.extractLsb' 11 1) (imm.extractLsb' 12 8)
  rw [h2, h1] at h3
  have b1 := (imm.extractLsb' 20 1).isLt
  have b2 := (imm.extractLsb' 1 10).isLt
  have b3 := (imm.extractLsb' 11 1).isLt
  have b4 := (imm.extractLsb' 12 8).isLt
  have hm : imm.toNat = (imm.extractLsb' 20 1).toNat * 1048576 + (imm.extractLsb' 12 8).toNat * 4096 +
      (imm.extractLsb' 11 1).toNat * 2048 + (imm.extractLsb' 1 10).toNat * 2 := by
    simp only [toNat_field]
    omega
  generalize (imm.extractLsb' 20 1).toNat = a, (imm.extractLsb' 1 10).toNat = b, (imm.extractLsb' 11 1).toNat = c,
    (imm.extractLsb' 12 8).toNat = d at *
  rw [hm]
  generalize (BitVec.toNat (_ : BitVec (1 + 10 + 1 + 8))) = u at *
  have e1 : u / 2 ^ 19 = a := by omega
  have e2 : u % 256 = d := by omega
  have e3 : u / 256 = (a * 2 ^ 10 + b) * 2 ^ 1 + c := by omega
  have e4 : u / 512 = a * 1024 + b := by omega
  have e5 : ((a * 2 ^ 10 + b) * 2 ^ 1 + c) % 2 = c := by omega
  have e6 : (a * 1024 + b) % 1024 = b := by omega
  erw [e1, e2, e3, e4, e5, e6]

/-! ## A word is made of its fields -/

theorem encodeR_fields (w : Word) : encodeR (f7Of w) (rs2Of w) (rs1Of w) (f3Of w) (rdOf w) (opcodeOf w) = w := by
  refine BitVec.eq_of_toNat_eq ?_
  rw [encodeR_toNat, f7Of_toNat, rs2Of_toNat, rs1Of_toNat, f3Of_toNat, rdOf_toNat, opcodeOf_toNat]
  have := w.isLt
  omega

theorem encodeI_fields (w : Word) : encodeI (immIOf w) (rs1Of w) (f3Of w) (rdOf w) (opcodeOf w) = w := by
  refine BitVec.eq_of_toNat_eq ?_
  rw [encodeI_toNat, immIOf_toNat, rs1Of_toNat, f3Of_toNat, rdOf_toNat, opcodeOf_toNat]
  have := w.isLt
  omega

theorem encodeU_fields (w : Word) : encodeU (immUOf w) (rdOf w) (opcodeOf w) = w := by
  refine BitVec.eq_of_toNat_eq ?_
  rw [encodeU_toNat, immUOf_toNat, rdOf_toNat, opcodeOf_toNat]
  have := w.isLt
  omega

theorem encodeS_fields (w : Word) : encodeS (immSOf w) (rs2Of w) (rs1Of w) (f3Of w) (opcodeOf w) = w := by
  have h1 : (immSOf w).extractLsb' 5 7 = f7Of w :=
    BitVec.eq_of_toNat_eq (by rw [toNat_field, immSOf_toNat]; have := (f7Of w).isLt; have := (rdOf w).isLt; omega)
  have h2 : (immSOf w).extractLsb' 0 5 = rdOf w :=
    BitVec.eq_of_toNat_eq (by rw [toNat_field, immSOf_toNat]; have := (f7Of w).isLt; have := (rdOf w).isLt; omega)
  rw [encodeS_eq, h1, h2, encodeR_fields]

/-- The four digits of a branch offset. -/
theorem offset_digits (p x q r : Nat) (hp : p < 2) (hx : x < 2) (hq : q < 64) (hr : r < 16) :
    (p * 4096 + x * 2048 + q * 32 + r * 2) / 2 ^ 12 % 2 ^ 1 = p ∧ (p * 4096 + x * 2048 + q * 32 + r * 2) / 2 ^ 5 % 2 ^ 6 = q ∧
      (p * 4096 + x * 2048 + q * 32 + r * 2) / 2 ^ 1 % 2 ^ 4 = r ∧ (p * 4096 + x * 2048 + q * 32 + r * 2) / 2 ^ 11 % 2 ^ 1 = x := by
  have h1 : p * 4096 + x * 2048 + q * 32 + r * 2 = ((p * 2 + x) * 64 + q) * 32 + r * 2 := by ring
  have h2 : (p * 4096 + x * 2048 + q * 32 + r * 2) / 2 ^ 5 = (p * 2 + x) * 64 + q := by omega
  have h3 : (p * 4096 + x * 2048 + q * 32 + r * 2) / 2 ^ 11 = p * 2 + x := by omega
  refine ⟨by omega, by rw [h2]; omega, by omega, by rw [h3]; omega⟩

theorem encodeB_fields (w : Word) : encodeB (immBOf w) (rs2Of w) (rs1Of w) (f3Of w) (opcodeOf w) = w := by
  have g1 := toNat_append_eq ((immBOf w).extractLsb' 12 1) ((immBOf w).extractLsb' 5 6)
  have g2 := toNat_append_eq ((immBOf w).extractLsb' 1 4) ((immBOf w).extractLsb' 11 1)
  have hm := immBOf_toNat_fields w
  have f1 : (f7Of w).toNat = (f7Of w).toNat / 64 * 64 + (f7Of w).toNat % 64 := by omega
  have f2 : (rdOf w).toNat = (rdOf w).toNat / 2 * 2 + (rdOf w).toNat % 2 := by omega
  have b1 : (f7Of w).toNat / 64 < 2 := by have := (f7Of w).isLt; omega
  have b2 : (f7Of w).toNat % 64 < 64 := by omega
  have b3 : (rdOf w).toNat / 2 < 16 := by have := (rdOf w).isLt; omega
  have b4 : (rdOf w).toNat % 2 < 2 := by omega
  simp only [toNat_field] at g1 g2
  rw [encodeB_eq]
  have h1 : (immBOf w).extractLsb' 12 1 ++ (immBOf w).extractLsb' 5 6 = f7Of w := by
    refine BitVec.eq_of_toNat_eq (g1.trans (Eq.trans ?_ f1.symm))
    rw [hm]
    obtain ⟨d1, d2, d3, d4⟩ := offset_digits _ _ _ _ b1 b4 b2 b3
    rw [d1, d2, show 2 ^ 6 = 64 from rfl]
  have h2 : (immBOf w).extractLsb' 1 4 ++ (immBOf w).extractLsb' 11 1 = rdOf w := by
    refine BitVec.eq_of_toNat_eq (g2.trans (Eq.trans ?_ f2.symm))
    rw [hm]
    obtain ⟨d1, d2, d3, d4⟩ := offset_digits _ _ _ _ b1 b4 b2 b3
    rw [d3, d4, show 2 ^ 1 = 2 from rfl]
  rw [h1, h2, encodeR_fields]

/-- The four digits of a jump offset. -/
theorem jump_digits (p y x q : Nat) (hp : p < 2) (hy : y < 256) (hx : x < 2) (hq : q < 1024) :
    (p * 1048576 + y * 4096 + x * 2048 + q * 2) / 2 ^ 20 % 2 ^ 1 = p ∧ (p * 1048576 + y * 4096 + x * 2048 + q * 2) / 2 ^ 1 % 2 ^ 10 = q ∧
      (p * 1048576 + y * 4096 + x * 2048 + q * 2) / 2 ^ 11 % 2 ^ 1 = x ∧
      (p * 1048576 + y * 4096 + x * 2048 + q * 2) / 2 ^ 12 % 2 ^ 8 = y := by
  have h2 : (p * 1048576 + y * 4096 + x * 2048 + q * 2) / 2 ^ 11 = (p * 256 + y) * 2 + x := by omega
  have h3 : (p * 1048576 + y * 4096 + x * 2048 + q * 2) / 2 ^ 12 = p * 256 + y := by omega
  have h4 : (p * 1048576 + y * 4096 + x * 2048 + q * 2) / 2 ^ 1 = ((p * 256 + y) * 2 + x) * 1024 + q := by omega
  refine ⟨by omega, by rw [h4]; omega, by rw [h2]; omega, by rw [h3]; omega⟩

/-- The digits of an upper immediate that a jump offset is made of. -/
theorem upper_digits (u : Nat) :
    u = ((u / 2 ^ 19 * 2 ^ 10 + u / 512 % 1024) * 2 ^ 1 + u / 256 % 2) * 2 ^ 8 + u % 256 := by
  have h1 : u / 512 = u / 2 ^ 19 * 1024 + u / 512 % 1024 := by omega
  have h2 : u / 256 = u / 512 * 2 + u / 256 % 2 := by omega
  omega

theorem encodeJ_fields (w : Word) : encodeJ (immJOf w) (rdOf w) (opcodeOf w) = w := by
  have g1 := toNat_append_eq ((immJOf w).extractLsb' 20 1) ((immJOf w).extractLsb' 1 10)
  have g2 := toNat_append_eq ((immJOf w).extractLsb' 20 1 ++ (immJOf w).extractLsb' 1 10) ((immJOf w).extractLsb' 11 1)
  have g3 := toNat_append_eq ((immJOf w).extractLsb' 20 1 ++ (immJOf w).extractLsb' 1 10 ++ (immJOf w).extractLsb' 11 1)
    ((immJOf w).extractLsb' 12 8)
  rw [g2, g1] at g3
  have hu := (immUOf w).isLt
  obtain ⟨d1, d2, d3, d4⟩ := jump_digits ((immUOf w).toNat / 2 ^ 19) ((immUOf w).toNat % 256) ((immUOf w).toNat / 256 % 2)
    ((immUOf w).toNat / 512 % 1024) (by omega) (by omega) (by omega) (by omega)
  simp only [toNat_field, immJOf_toNat_fields, d1, d2, d3, d4] at g3
  have h1 : (immJOf w).extractLsb' 20 1 ++ (immJOf w).extractLsb' 1 10 ++ (immJOf w).extractLsb' 11 1 ++ (immJOf w).extractLsb' 12 8 =
      immUOf w := BitVec.eq_of_toNat_eq (g3.trans (upper_digits _).symm)
  rw [encodeJ_eq, h1, encodeU_fields]

/-! ## Masks: a row of the opcode table says which fields hold which numbers -/

/-- A word under a mask of consecutive low bits. -/
theorem and_low_eq_iff (w p : Word) : w &&& 0x0000007F#32 = p ↔ p.toNat = w.toNat % 128 := by
  rw [← BitVec.toNat_inj, BitVec.toNat_and, eq_comm (a := _ &&& _)]
  exact Iff.of_eq (congrArg _ (Nat.and_two_pow_sub_one_eq_mod w.toNat 7))

end Sys2Proof
end

