-- ==== Sys2Proof/Laws/Memory.lean ====
section
/-! SUPPORT. The laws of sparse arrays: read after write, the canonical form, and that a canonical array is determined by what it reads. -/

namespace Sys2Proof.Machine

variable {w : Nat}

@[simp] theorem Memory.read_nil (a : Nat) : Memory.read ([] : Memory w) a = 0#w := rfl

theorem Memory.read_cons (k : Nat) (x : BitVec w) (m : Memory w) (a : Nat) :
    Memory.read ((k, x) :: m) a = if a = k then x else Memory.read m a := rfl

/-- An index that the array does not list reads as 0. -/
theorem Memory.read_eq_zero_of_not_mem {m : Memory w} {a : Nat} (h : ∀ c ∈ m, c.1 ≠ a) : m.read a = 0#w := by
  induction m with
  | nil => rfl
  | cons c m ih =>
    rw [Memory.read_cons, if_neg (Ne.symm (h c (by simp)))]
    exact ih fun d hd => h d (by simp [hd])

/-- A write leaves every other index alone, whatever the form of the array. -/
theorem Memory.read_write_other {m : Memory w} {a b : Nat} (v : BitVec w) (h : b ≠ a) : (m.write a v).read b = m.read b := by
  induction m with
  | nil => unfold Memory.write; split <;> simp [Memory.read_cons, h]
  | cons c m ih =>
    obtain ⟨k, x⟩ := c
    unfold Memory.write
    split_ifs with h1 h2 h2 h3
    · rfl
    · simp [Memory.read_cons, h]
    · subst h2; simp [Memory.read_cons, h]
    · subst h2; simp [Memory.read_cons, h]
    · simp only [Memory.read_cons, ih]

theorem Memory.wf_nil (n : Nat) : Memory.wf n ([] : Memory w) := by simp [Memory.wf]

theorem Memory.wf_cons {n k : Nat} {x : BitVec w} {m : Memory w} :
    Memory.wf n ((k, x) :: m) ↔ (k < n ∧ x ≠ 0#w ∧ ∀ c ∈ m, k < c.1) ∧ Memory.wf n m := by
  simp only [Memory.wf, List.pairwise_cons, List.mem_cons, forall_eq_or_imp]
  tauto

/-- A write to a canonical array reads back. -/
theorem Memory.read_write_same {n : Nat} {m : Memory w} (a : Nat) (v : BitVec w) (h : m.wf n) : (m.write a v).read a = v := by
  induction m with
  | nil => unfold Memory.write; split <;> simp_all [Memory.read_cons]
  | cons c m ih =>
    obtain ⟨k, x⟩ := c
    obtain ⟨⟨-, -, hk⟩, hm⟩ := Memory.wf_cons.mp h
    unfold Memory.write
    split_ifs with h1 h2 h2 h3
    · rw [h2]
      refine Memory.read_eq_zero_of_not_mem fun c hc => ?_
      rcases List.mem_cons.mp hc with rfl | hc
      · exact (Nat.ne_of_lt h1).symm
      · exact (Nat.ne_of_lt (h1.trans (hk c hc))).symm
    · simp [Memory.read_cons]
    · rw [h3]
      exact Memory.read_eq_zero_of_not_mem fun c hc => h2 ▸ (Nat.ne_of_lt (hk c hc)).symm
    · simp [Memory.read_cons, h2]
    · rw [Memory.read_cons, if_neg h2, ih hm]

/-- Read after write on a canonical array. -/
theorem Memory.read_write {n : Nat} {m : Memory w} (a b : Nat) (v : BitVec w) (h : m.wf n) :
    (m.write a v).read b = if b = a then v else m.read b := by
  split_ifs with hb
  · rw [hb, Memory.read_write_same a v h]
  · exact Memory.read_write_other v hb

/-- The entries after a write are old ones or the written one. -/
theorem Memory.mem_write {m : Memory w} {a : Nat} {v : BitVec w} {c : Nat × BitVec w} (h : c ∈ m.write a v) :
    c ∈ m ∨ (c = (a, v) ∧ v ≠ 0#w) := by
  induction m with
  | nil => unfold Memory.write at h; split at h <;> simp_all
  | cons d m ih =>
    obtain ⟨k, x⟩ := d
    unfold Memory.write at h
    split_ifs at h with h1 h2 h2 h3
    · exact .inl h
    · rcases List.mem_cons.mp h with rfl | h
      · exact .inr ⟨rfl, h2⟩
      · exact .inl h
    · exact .inl (List.mem_cons_of_mem _ h)
    · rcases List.mem_cons.mp h with rfl | h
      · exact .inr ⟨by rw [h2], h3⟩
      · exact .inl (List.mem_cons_of_mem _ h)
    · rcases List.mem_cons.mp h with rfl | h
      · exact .inl (by simp)
      · rcases ih h with h | h
        · exact .inl (List.mem_cons_of_mem _ h)
        · exact .inr h

/-- A write keeps the canonical form. -/
theorem Memory.wf_write {n : Nat} {m : Memory w} {a : Nat} (v : BitVec w) (ha : a < n) (h : m.wf n) : (m.write a v).wf n := by
  induction m with
  | nil => unfold Memory.write; split <;> simp_all [Memory.wf]
  | cons c m ih =>
    obtain ⟨k, x⟩ := c
    obtain ⟨⟨hkn, hx, hk⟩, hm⟩ := Memory.wf_cons.mp h
    unfold Memory.write
    split_ifs with h1 h2 h2 h3
    · exact h
    · refine Memory.wf_cons.mpr ⟨⟨ha, h2, fun c hc => ?_⟩, h⟩
      rcases List.mem_cons.mp hc with rfl | hc
      · exact h1
      · exact h1.trans (hk c hc)
    · exact hm
    · exact Memory.wf_cons.mpr ⟨⟨hkn, h3, hk⟩, hm⟩
    · refine Memory.wf_cons.mpr ⟨⟨hkn, hx, fun c hc => ?_⟩, ih hm⟩
      rcases Memory.mem_write hc with hc | ⟨rfl, -⟩
      · exact hk c hc
      · exact Nat.lt_of_le_of_ne (Nat.le_of_not_lt h1) (Ne.symm h2)

/-- What the array built from a function reads. -/
theorem Memory.read_ofFn (n : Nat) (f : Nat → BitVec w) (a : Nat) : (Memory.ofFn n f).read a = if a < n then f a else 0#w := by
  have key : ∀ l : List Nat, l.Nodup →
      Memory.read (l.filterMap fun i => if f i = 0#w then none else some (i, f i)) a = if a ∈ l then f a else 0#w := by
    intro l hl
    induction l with
    | nil => rfl
    | cons i l ih =>
      obtain ⟨hi, hl⟩ := List.nodup_cons.mp hl
      by_cases h0 : f i = 0#w
      · rw [List.filterMap_cons_none (by simp [h0]), ih hl]
        by_cases ha : a = i
        · subst ha; simp [hi, h0]
        · simp [ha]
      · rw [List.filterMap_cons_some (b := (i, f i)) (by simp [h0]), Memory.read_cons, ih hl]
        by_cases ha : a = i
        · simp [ha]
        · simp [ha]
  simpa [Memory.ofFn] using key (List.range n) List.nodup_range

/-- The array built from a function is canonical. -/
theorem Memory.wf_ofFn (n : Nat) (f : Nat → BitVec w) : (Memory.ofFn n f).wf n := by
  refine ⟨?_, ?_⟩
  · refine List.Pairwise.filterMap _ ?_ List.pairwise_lt_range
    intro i j hij b hb c hc
    split_ifs at hb hc
    simp_all
    obtain rfl := hb
    obtain rfl := hc
    exact hij
  · intro c hc
    obtain ⟨i, hi, hic⟩ := List.mem_filterMap.mp hc
    split_ifs at hic with h0
    simp at hic
    subst hic
    exact ⟨List.mem_range.mp hi, h0⟩

theorem Memory.mem_ofList_le {start : Nat} {l : List (BitVec w)} {c : Nat × BitVec w} (h : c ∈ Memory.ofList start l) :
    start ≤ c.1 ∧ c.1 < start + l.length ∧ c.2 ≠ 0#w := by
  induction l generalizing start with
  | nil => simp [Memory.ofList] at h
  | cons v l ih =>
    unfold Memory.ofList at h
    rw [List.length_cons]
    split_ifs at h with h0
    · obtain ⟨h1, h2, h3⟩ := ih h
      exact ⟨by omega, by omega, h3⟩
    · rcases List.mem_cons.mp h with rfl | h
      · exact ⟨le_refl _, by omega, h0⟩
      · obtain ⟨h1, h2, h3⟩ := ih h
        exact ⟨by omega, by omega, h3⟩

/-- What the array built from a list reads: element a from index `start` on, else 0. -/
theorem Memory.read_ofList (l : List (BitVec w)) (start a : Nat) :
    (Memory.ofList start l).read a = if start ≤ a then l.getD (a - start) 0#w else 0#w := by
  induction l generalizing start with
  | nil => simp [Memory.ofList]
  | cons v l ih =>
    unfold Memory.ofList
    have step : ∀ b, start ≤ b → b ≠ start → b - start = (b - (start + 1)) + 1 := by omega
    split_ifs with h0 ha ha
    · rw [ih]
      by_cases hs : a = start
      · subst hs; simp [h0]
      · rw [if_pos (by omega), step a ha hs]; simp
    · rw [ih, if_neg (by omega)]
    · rw [Memory.read_cons, ih]
      by_cases hs : a = start
      · subst hs; simp
      · rw [if_neg hs, if_pos (by omega), step a ha hs]; simp
    · rw [Memory.read_cons, ih, if_neg (by omega), if_neg (by omega)]

/-- The array built from a list is canonical. -/
theorem Memory.wf_ofList {n : Nat} (l : List (BitVec w)) (start : Nat) (h : start + l.length ≤ n) : (Memory.ofList start l).wf n := by
  induction l generalizing start with
  | nil => exact Memory.wf_nil n
  | cons v l ih =>
    rw [List.length_cons] at h
    unfold Memory.ofList
    split_ifs with h0
    · exact ih _ (by omega)
    · refine Memory.wf_cons.mpr ⟨⟨by omega, h0, fun c hc => ?_⟩, ih _ (by omega)⟩
      exact (Memory.mem_ofList_le hc).1

/-- Listed entries of a canonical array are what it reads. -/
theorem Memory.read_of_mem {n : Nat} {m : Memory w} {c : Nat × BitVec w} (h : m.wf n) (hc : c ∈ m) : m.read c.1 = c.2 := by
  induction m with
  | nil => simp at hc
  | cons d m ih =>
    obtain ⟨k, x⟩ := d
    obtain ⟨⟨-, -, hk⟩, hm⟩ := Memory.wf_cons.mp h
    rcases List.mem_cons.mp hc with rfl | hc
    · simp [Memory.read_cons]
    · rw [Memory.read_cons, if_neg (Nat.ne_of_gt (hk c hc)), ih hm hc]

/-- A canonical array reads 0 at and past its size. -/
theorem Memory.read_past {n : Nat} {m : Memory w} {a : Nat} (h : m.wf n) (ha : n ≤ a) : m.read a = 0#w :=
  Memory.read_eq_zero_of_not_mem fun c hc he => absurd (h.2 c hc).1 (by omega)

/-- Two canonical arrays that read the same are the same: equal memories are equal data. -/
theorem Memory.eq_of_read {n n' : Nat} {m m' : Memory w} (h : m.wf n) (h' : m'.wf n') (e : ∀ a, m.read a = m'.read a) : m = m' := by
  have sub : ∀ {n n'} {m m' : Memory w}, m.wf n → m'.wf n' → (∀ a, m.read a = m'.read a) → ∀ c ∈ m, c ∈ m' := by
    intro n n' m m' h h' e c hc
    have hr : m'.read c.1 = c.2 := (e c.1).symm.trans (Memory.read_of_mem h hc)
    by_contra hn
    refine (h.2 c hc).2 (hr.symm.trans (Memory.read_eq_zero_of_not_mem fun d hd hdc => hn ?_))
    have : d = c := Prod.ext hdc ((Memory.read_of_mem h' hd).symm.trans (by rw [hdc, hr]))
    exact this ▸ hd
  refine List.Perm.eq_of_pairwise (fun a b _ _ hab hba => absurd (hab.trans hba) (lt_irrefl _)) h.1 h'.1 ?_
  refine (List.perm_ext_iff_of_nodup ?_ ?_).mpr fun c => ⟨sub h h' e c, sub h' h (fun a => (e a).symm) c⟩
  · exact h.1.imp fun hlt he => by simp [he] at hlt
  · exact h'.1.imp fun hlt he => by simp [he] at hlt

end Sys2Proof.Machine
end

