-- ==== Sys2Proof/Laws/Bus.lean ====
section
/-! SUPPORT. The laws of the Bus: one address leads to one cell, read after write, and what a write leaves alone. -/

namespace Sys2Proof.Machine

/-- Every answer of the dispatch, with the window that gave it. -/
theorem regionAt_cases (c : Config) (a : Nat) :
    (regionAt c a = .rom (a - c.romBase) ∧ c.romBase ≤ a ∧ a < c.romBase + arrayBytes) ∨
    (regionAt c a = .ram (a - c.ramBase) ∧ c.ramBase ≤ a ∧ a < c.ramBase + arrayBytes) ∨
    (regionAt c a = .vram (a - c.vramBase) ∧ c.vramBase ≤ a ∧ a < c.vramBase + arrayBytes) ∨
    (regionAt c a = .joy (a - c.joyBase) ∧ c.joyBase ≤ a ∧ a < c.joyBase + ioBytes) ∨
    (regionAt c a = .apu (a - c.apuBase) ∧ c.apuBase ≤ a ∧ a < c.apuBase + ioBytes) ∨
    (regionAt c a = .bridge ∧ a = c.bridgeAddr) ∨
    (regionAt c a = .unmapped) := by
  unfold regionAt
  split_ifs with h1 h2 h3 h4 h5 h6
  · exact .inl ⟨rfl, h1⟩
  · exact .inr (.inl ⟨rfl, h2⟩)
  · exact .inr (.inr (.inl ⟨rfl, h3⟩))
  · exact .inr (.inr (.inr (.inl ⟨rfl, h4⟩)))
  · exact .inr (.inr (.inr (.inr (.inl ⟨rfl, h5⟩))))
  · exact .inr (.inr (.inr (.inr (.inr (.inl ⟨rfl, h6⟩)))))
  · exact .inr (.inr (.inr (.inr (.inr (.inr rfl)))))

/-- Two addresses that lead to one cell are one address. -/
theorem regionAt_inj {c : Config} {a b : Nat} (h : regionAt c a = regionAt c b) (hu : regionAt c a ≠ .unmapped) : a = b := by
  rcases regionAt_cases c a with ⟨ha, h1⟩ | ⟨ha, h1⟩ | ⟨ha, h1⟩ | ⟨ha, h1⟩ | ⟨ha, h1⟩ | ⟨ha, h1⟩ | ha <;>
  rcases regionAt_cases c b with ⟨hb, h2⟩ | ⟨hb, h2⟩ | ⟨hb, h2⟩ | ⟨hb, h2⟩ | ⟨hb, h2⟩ | ⟨hb, h2⟩ | hb <;>
  rw [ha, hb] at h <;> simp_all <;> omega

theorem State.region_inj {s : State} {a b : Word} (h : s.region a = s.region b) (hu : s.region a ≠ .unmapped) : a = b :=
  BitVec.eq_of_toNat_eq (regionAt_inj h hu)

/-- An offset lies inside its array. -/
theorem State.region_bound (s : State) (a : Word) :
    match s.region a with
    | .rom o | .ram o | .vram o => o < arrayBytes
    | .joy o | .apu o => o < ioBytes
    | .bridge | .unmapped => True := by
  rcases regionAt_cases s.cfg a.toNat with ⟨h, h1⟩ | ⟨h, h1⟩ | ⟨h, h1⟩ | ⟨h, h1⟩ | ⟨h, h1⟩ | ⟨h, h1⟩ | h <;>
    simp only [State.region, h] <;> omega

theorem State.region_congr {s t : State} (h : t.cfg = s.cfg) (a : Word) : t.region a = s.region a := by
  unfold State.region; rw [h]

@[simp] theorem State.region_write8 (s : State) (a : Word) (v : Byte) (b : Word) : (s.write8 a v).region b = s.region b :=
  State.region_congr (by simp) b

@[simp] theorem State.region_setPc (s : State) (a b : Word) : (s.setPc a).region b = s.region b := rfl

/-- What the Bus reads depends on the parameters, the arrays and the bridge byte alone. -/
theorem State.read8_congr {s t : State} (hc : t.cfg = s.cfg) (h1 : t.rom = s.rom) (h2 : t.ram = s.ram) (h3 : t.vram = s.vram)
    (h4 : t.joy = s.joy) (h5 : t.bridge = s.bridge) (a : Word) : t.read8 a = s.read8 a := by
  unfold State.read8
  rw [State.region_congr hc]
  cases s.region a <;> simp only [State.readAt, h1, h2, h3, h4, h5]

@[simp] theorem State.read8_setPc (s : State) (a b : Word) : (s.setPc a).read8 b = s.read8 b := rfl

@[simp] theorem State.read8_advance (s : State) (b : Word) : s.advance.read8 b = s.read8 b := rfl

@[simp] theorem State.read8_setReg (s : State) (r : RegIdx) (v : Word) (b : Word) : (s.setReg r v).read8 b = s.read8 b :=
  State.read8_congr (by simp) (by simp) (by simp) (by simp) (by simp) (by simp) b

@[simp] theorem State.read8_writeBack (s : State) (r : RegIdx) (v : Word) (b : Word) : (s.writeBack r v).read8 b = s.read8 b := by
  simp [State.writeBack]

@[simp] theorem State.read8_linkTo (s : State) (r : RegIdx) (v : Word) (b : Word) : (s.linkTo r v).read8 b = s.read8 b := by
  simp [State.linkTo]

@[simp] theorem State.read8_branchIf (s : State) (c : Bool) (v : Word) (b : Word) : (s.branchIf c v).read8 b = s.read8 b := by
  cases c <;> rfl

@[simp] theorem State.read8_generate (s : State) (n : Nat) (b : Word) : (s.generate n).read8 b = s.read8 b := rfl

@[simp] theorem State.read8_apuWrite8 (s : State) (o : Nat) (v : Byte) (b : Word) : (s.apuWrite8 o v).read8 b = s.read8 b :=
  State.read8_congr (by simp) (by simp) (by simp) (by simp) (by simp) (by simp) b

/-- Everything one byte write can do, by the window its address is in. -/
theorem State.write8_cases (s : State) (a : Word) (v : Byte) :
    (∃ o, s.region a = .ram o ∧ o < arrayBytes ∧ s.write8 a v = { s with ram := s.ram.write o v }) ∨
    (∃ o, s.region a = .vram o ∧ o < arrayBytes ∧ s.write8 a v = { s with vram := s.vram.write o v }) ∨
    (∃ o, s.region a = .joy o ∧ o < ioBytes ∧ s.write8 a v = { s with joy := s.joy.write o v }) ∨
    (∃ o, s.region a = .apu o ∧ o < ioBytes ∧ s.write8 a v = s.apuWrite8 o v) ∨
    (s.region a = .bridge ∧ s.write8 a v = { s with bridge := v }) ∨
    (((∃ o, s.region a = .rom o ∧ o < arrayBytes) ∨ s.region a = .unmapped) ∧ s.write8 a v = s) := by
  have hb := s.region_bound a
  unfold State.write8
  cases h : s.region a <;> rw [h] at hb <;> simp_all [State.writeAt]

/-- A write to one cell leaves every other cell alone. -/
theorem State.readAt_writeAt_other (s : State) {r q : Region} (v : Byte) (h : q ≠ r) : (s.writeAt r v).readAt q = s.readAt q := by
  cases r <;> cases q <;> simp only [State.writeAt, State.readAt, State.apuWrite8_rom, State.apuWrite8_ram, State.apuWrite8_vram,
    State.apuWrite8_joy, State.apuWrite8_bridge] <;> first
    | exact absurd rfl h
    | exact Memory.read_write_other _ (fun ho => h (by rw [ho]))

/-- A write leaves every other address alone (R63, R70). -/
theorem State.read8_write8_other (s : State) {a b : Word} (v : Byte) (h : b ≠ a) : (s.write8 a v).read8 b = s.read8 b := by
  unfold State.read8
  rw [State.region_congr (t := s.write8 a v) (s := s) (by simp) b]
  by_cases hu : s.region b = .unmapped
  · rw [hu]; rfl
  · exact s.readAt_writeAt_other v fun he => h (State.region_inj he hu)

/-- A byte written to plain storage reads back (R63). -/
theorem State.read8_write8_same {s : State} (hs : s.Inv) {a : Word} (v : Byte) (h : isStorage (s.region a)) :
    (s.write8 a v).read8 a = v := by
  unfold State.read8
  rw [State.region_congr (t := s.write8 a v) (s := s) (by simp) a]
  unfold State.write8
  cases hr : s.region a <;> simp only [hr, isStorage, Bool.false_eq_true] at h <;> simp only [State.writeAt, State.readAt]
  · exact Memory.read_write_same _ _ hs.ram
  · exact Memory.read_write_same _ _ hs.vram
  · exact Memory.read_write_same _ _ hs.joy

/-- A write outside the APU window changes neither the APU, nor the audio schedule, nor what went to the host. -/
theorem State.write8_audio (s : State) {a : Word} (v : Byte) (h : isApu (s.region a) = false) :
    (s.write8 a v).apu = s.apu ∧ (s.write8 a v).audioTurns = s.audioTurns ∧ (s.write8 a v).out = s.out := by
  rcases s.write8_cases a v with ⟨o, ha, -, hw⟩ | ⟨o, ha, -, hw⟩ | ⟨o, ha, -, hw⟩ | ⟨o, ha, -, hw⟩ | ⟨ha, hw⟩ | ⟨-, hw⟩ <;>
    rw [hw] <;> simp_all [isApu]

/-- The arrays stay canonical under a byte write. -/
theorem State.write8_wf (s : State) (a : Word) (v : Byte) :
    (s.ram.wf arrayBytes → (s.write8 a v).ram.wf arrayBytes) ∧ (s.vram.wf arrayBytes → (s.write8 a v).vram.wf arrayBytes) ∧
      (s.joy.wf ioBytes → (s.write8 a v).joy.wf ioBytes) := by
  rcases s.write8_cases a v with ⟨o, -, ho, hw⟩ | ⟨o, -, ho, hw⟩ | ⟨o, -, ho, hw⟩ | ⟨o, -, ho, hw⟩ | ⟨-, hw⟩ | ⟨-, hw⟩ <;> rw [hw]
  · exact ⟨Memory.wf_write v ho, id, id⟩
  · exact ⟨id, Memory.wf_write v ho, id⟩
  · exact ⟨id, id, Memory.wf_write v ho⟩
  · simp
  · exact ⟨id, id, id⟩
  · exact ⟨id, id, id⟩

/-- A byte write keeps the invariant. -/
theorem State.Inv.write8 {s : State} (h : s.Inv) (a : Word) (v : Byte) : (s.write8 a v).Inv where
  cfg := by simpa using h.cfg
  zero := by simpa using h.zero
  rom := by simpa using h.rom
  ram := (s.write8_wf a v).1 h.ram
  vram := (s.write8_wf a v).2.1 h.vram
  joy := (s.write8_wf a v).2.2 h.joy
  fb := by simpa using h.fb

theorem State.Inv.write16 {s : State} (h : s.Inv) (a : Word) (v : BitVec 16) : (s.write16 a v).Inv := (h.write8 _ _).write8 _ _

theorem State.Inv.write32 {s : State} (h : s.Inv) (a v : Word) : (s.write32 a v).Inv :=
  (((h.write8 _ _).write8 _ _).write8 _ _).write8 _ _

/-! ## Windows of a valid configuration, and wider accesses -/

/-- In a valid configuration the window an address lies in decides, in whatever order one asks (R11, R60). -/
theorem regionAt_of_valid {c : Config} (h : c.Valid) (n : Nat) :
    (c.romBase ≤ n → n < c.romBase + 0x1000000 → regionAt c n = .rom (n - c.romBase)) ∧
    (c.ramBase ≤ n → n < c.ramBase + 0x1000000 → regionAt c n = .ram (n - c.ramBase)) ∧
    (c.vramBase ≤ n → n < c.vramBase + 0x1000000 → regionAt c n = .vram (n - c.vramBase)) ∧
    (c.joyBase ≤ n → n < c.joyBase + 0x100 → regionAt c n = .joy (n - c.joyBase)) ∧
    (c.joyBase + 0x100 ≤ n → n < c.joyBase + 0x200 → regionAt c n = .apu (n - (c.joyBase + 0x100))) ∧
    (n = c.bridgeAddr → regionAt c n = .bridge) ∧
    ((∀ w ∈ c.windows, n < w.1 ∨ w.1 + w.2 ≤ n) → regionAt c n = .unmapped) := by
  obtain ⟨hw, -⟩ := h
  simp only [Config.windows, List.pairwise_cons, List.mem_cons, List.not_mem_nil, or_false, forall_eq_or_imp, forall_eq,
    Config.apuBase, arrayBytes, ioBytes] at hw
  unfold regionAt Config.apuBase
  simp only [arrayBytes, ioBytes]
  refine ⟨?_, ?_, ?_, ?_, ?_, ?_, fun a => ?_⟩
  · intro a b; rw [if_pos ⟨a, b⟩]
  · intro a b; rw [if_neg (by omega), if_pos ⟨a, b⟩]
  · intro a b; rw [if_neg (by omega), if_neg (by omega), if_pos ⟨a, b⟩]
  · intro a b; rw [if_neg (by omega), if_neg (by omega), if_neg (by omega), if_pos ⟨a, b⟩]
  · intro a b; rw [if_neg (by omega), if_neg (by omega), if_neg (by omega), if_neg (by omega), if_pos (by omega)]
  · intro a
    rw [if_neg (by omega), if_neg (by omega), if_neg (by omega), if_neg (by omega), if_neg (by omega), if_pos a]
  · simp only [Config.windows, List.mem_cons, List.not_mem_nil, or_false, forall_eq_or_imp, forall_eq, Config.apuBase, arrayBytes,
      ioBytes] at a
    rw [if_neg (by omega), if_neg (by omega), if_neg (by omega), if_neg (by omega), if_neg (by omega), if_neg (by omega)]

/-- A halfword read as a number (R66). -/
theorem State.read16_toNat (s : State) (a : Word) : (s.read16 a).toNat = (s.read8 a).toNat + 256 * (s.read8 (a + 1#32)).toNat := by
  have h := toNat_append_eq (s.read8 (a + 1#32)) (s.read8 a)
  exact h.trans (by omega)

/-- A word read as a number (R66). -/
theorem State.read32_toNat (s : State) (a : Word) :
    (s.read32 a).toNat = (s.read8 a).toNat + 256 * (s.read8 (a + 1#32)).toNat + 65536 * (s.read8 (a + 2#32)).toNat +
      16777216 * (s.read8 (a + 3#32)).toNat := by
  have h1 := toNat_append_eq (s.read8 (a + 3#32)) (s.read8 (a + 2#32))
  have h2 := toNat_append_eq (s.read8 (a + 3#32) ++ s.read8 (a + 2#32)) (s.read8 (a + 1#32))
  have h3 := toNat_append_eq (s.read8 (a + 3#32) ++ s.read8 (a + 2#32) ++ s.read8 (a + 1#32)) (s.read8 a)
  exact h3.trans (by omega)

theorem State.writeFrom_succ (s : State) (a : Word) (f : Nat → Byte) (n : Nat) :
    s.writeFrom a f (n + 1) = (s.writeFrom a f n).write8 (a + BitVec.ofNat 32 n) (f n) := by
  simp [State.writeFrom, List.range_succ]

theorem State.apuWriteFrom_succ (s : State) (o : Nat) (f : Nat → Byte) (n : Nat) :
    s.apuWriteFrom o f (n + 1) = (s.apuWriteFrom o f n).apuWrite8 (o + n) (f n) := by
  simp [State.apuWriteFrom, List.range_succ]

/-- Byte writes that all fall in the APU window are the APU's own writes in that order (R64, R67). -/
theorem State.writeFrom_apu {s : State} {a : Word} {o n : Nat} (f : Nat → Byte)
    (h : ∀ k < n, s.region (a + BitVec.ofNat 32 k) = .apu (o + k)) : s.writeFrom a f n = s.apuWriteFrom o f n := by
  have key : s.writeFrom a f n = s.apuWriteFrom o f n ∧ (s.apuWriteFrom o f n).cfg = s.cfg := by
    induction n with
    | zero => exact ⟨rfl, rfl⟩
    | succ n ih =>
      obtain ⟨e, hc⟩ := ih fun k hk => h k (by omega)
      rw [State.writeFrom_succ, State.apuWriteFrom_succ, e]
      refine ⟨?_, by simpa using hc⟩
      unfold State.write8
      rw [State.region_congr hc, h n (by omega)]
      rfl
  exact key.1

theorem State.write16_eq (s : State) (a : Word) (v : BitVec 16) :
    s.write16 a v = s.writeFrom a (fun k => v.extractLsb' (8 * k) 8) 2 := by
  simp [State.writeFrom, List.range_succ, State.write16]

theorem State.write32_eq (s : State) (a v : Word) : s.write32 a v = s.writeFrom a (fun k => v.extractLsb' (8 * k) 8) 4 := by
  simp [State.writeFrom, List.range_succ, State.write32]

/-- Everything up to four ascending byte writes can do: the invariant stays; a byte of plain storage reads as written and an address outside
the range as before; registers, pc, ROM, parameters, framebuffer and schedule stay; and so does the APU where no byte falls in its window. -/
theorem State.writeFrom_law {s : State} (hs : s.Inv) (a : Word) (f : Nat → Byte) (n : Nat) (hn : n ≤ 4) :
    (s.writeFrom a f n).Inv ∧
    (∀ k < n, isStorage (s.region (a + BitVec.ofNat 32 k)) → (s.writeFrom a f n).read8 (a + BitVec.ofNat 32 k) = f k) ∧
    (∀ b, (∀ k < n, b ≠ a + BitVec.ofNat 32 k) → (s.writeFrom a f n).read8 b = s.read8 b) ∧
    ((s.writeFrom a f n).cfg = s.cfg ∧ (s.writeFrom a f n).rom = s.rom ∧ (s.writeFrom a f n).fb = s.fb ∧
      (s.writeFrom a f n).agenda = s.agenda ∧ (s.writeFrom a f n).regs = s.regs ∧ (s.writeFrom a f n).pc = s.pc) ∧
    ((∀ k < n, isApu (s.region (a + BitVec.ofNat 32 k)) = false) →
      (s.writeFrom a f n).apu = s.apu ∧ (s.writeFrom a f n).audioTurns = s.audioTurns ∧ (s.writeFrom a f n).out = s.out) := by
  induction n with
  | zero => exact ⟨hs, by omega, fun _ _ => rfl, ⟨rfl, rfl, rfl, rfl, rfl, rfl⟩, fun _ => ⟨rfl, rfl, rfl⟩⟩
  | succ n ih =>
    obtain ⟨h1, h2, h3, ⟨h4, h5, h6, h7, h8, h9⟩, h10⟩ := ih (by omega)
    have hr : ∀ b, (s.writeFrom a f n).region b = s.region b := fun b => State.region_congr h4 b
    have apart : ∀ k < n, a + BitVec.ofNat 32 k ≠ a + BitVec.ofNat 32 n := by
      intro k hk he
      have := congrArg BitVec.toNat (add_left_cancel he)
      simp at this
      omega
    rw [State.writeFrom_succ]
    refine ⟨h1.write8 _ _, fun k hk hst => ?_, fun b hb => ?_,
      ⟨by simp [h4], by simp [h5], by simp [h6], by simp [h7], by simp [h8], by simp [h9]⟩, fun hna => ?_⟩
    · by_cases hkn : k = n
      · subst hkn
        exact State.read8_write8_same h1 _ (by rw [hr]; exact hst)
      · rw [State.read8_write8_other _ _ (apart k (by omega))]
        exact h2 k (by omega) hst
    · rw [State.read8_write8_other _ _ (hb n (by omega)), h3 b (fun k hk => hb k (by omega))]
    · obtain ⟨e1, e2, e3⟩ := State.write8_audio _ (f n) (by rw [hr]; exact hna n (by omega))
      obtain ⟨g1, g2, g3⟩ := h10 (fun k hk => hna k (by omega))
      exact ⟨e1.trans g1, e2.trans g2, e3.trans g3⟩

end Sys2Proof.Machine
end

