-- ==== Sys2Proof/Laws/Exec.lean ====
section
/-! SUPPORT. What any instruction can do, said once: it answers a next state, and that state has one of six shapes. -/

namespace Sys2Proof.Machine

/-- The six shapes of an instruction's next state: a register result, a jump with a link, a branch, a store of one, two or four bytes. -/
inductive NextShape (s : State) : State → Prop where
  | writeBack (rd : RegIdx) (v : Word) : NextShape s (s.writeBack rd v)
  | linkTo (rd : RegIdx) (target : Word) : NextShape s (s.linkTo rd target)
  | branchIf (taken : Bool) (target : Word) : NextShape s (s.branchIf taken target)
  | store8 (a : Word) (v : Byte) : NextShape s (s.write8 a v).advance
  | store16 (a : Word) (v : BitVec 16) : NextShape s (s.write16 a v).advance
  | store32 (a v : Word) : NextShape s (s.write32 a v).advance

/-- Every instruction answers a next state of one of the six shapes. -/
theorem exec_shape (i : Instr) (s : State) : ∃ t, exec i s = .next t ∧ NextShape s t := by
  cases i <;> exact ⟨_, rfl, by constructor⟩

/-- The six shapes keep these fields. -/
theorem NextShape.fields {s t : State} (h : NextShape s t) :
    t.cfg = s.cfg ∧ t.rom = s.rom ∧ t.fb = s.fb ∧ t.agenda = s.agenda ∧ t.regs[0] = s.regs[0] := by
  cases h <;> simp [State.setReg_slot_zero]

/-- The six shapes keep the invariant. -/
theorem NextShape.inv {s t : State} (h : NextShape s t) (hs : s.Inv) : t.Inv := by
  cases h with
  | writeBack rd v =>
    exact ⟨by simpa using hs.cfg, by simpa [State.setReg_slot_zero] using hs.zero, by simpa using hs.rom, by simpa using hs.ram,
      by simpa using hs.vram, by simpa using hs.joy, by simpa using hs.fb⟩
  | linkTo rd a =>
    exact ⟨by simpa using hs.cfg, by simpa [State.setReg_slot_zero] using hs.zero, by simpa using hs.rom, by simpa using hs.ram,
      by simpa using hs.vram, by simpa using hs.joy, by simpa using hs.fb⟩
  | branchIf b a =>
    exact ⟨by simpa using hs.cfg, by simpa using hs.zero, by simpa using hs.rom, by simpa using hs.ram, by simpa using hs.vram,
      by simpa using hs.joy, by simpa using hs.fb⟩
  | store8 a v => have := hs.write8 a v; exact ⟨this.1, this.2, this.3, this.4, this.5, this.6, this.7⟩
  | store16 a v => have := hs.write16 a v; exact ⟨this.1, this.2, this.3, this.4, this.5, this.6, this.7⟩
  | store32 a v => have := hs.write32 a v; exact ⟨this.1, this.2, this.3, this.4, this.5, this.6, this.7⟩

/-! ## What the shapes leave the same, in the terms of statements -/

/-- A register result leaves everything beyond registers and pc. -/
theorem sameBeyondCpu_writeBack (s : State) (rd : RegIdx) (v : Word) : SameBeyondCpu s (s.writeBack rd v) := by
  constructor <;> simp

theorem sameBeyondCpu_linkTo (s : State) (rd : RegIdx) (a : Word) : SameBeyondCpu s (s.linkTo rd a) := by
  constructor <;> simp

theorem sameBeyondCpu_branchIf (s : State) (b : Bool) (a : Word) : SameBeyondCpu s (s.branchIf b a) := by
  constructor <;> simp

end Sys2Proof.Machine
end

