-- ==== Sys2Proof/Laws/Gpu.lean ====
section
/-! SUPPORT. The laws of the GPU: every pixel write lands inside the framebuffer, and which fields a pass can change. -/

namespace Sys2Proof.Machine

/-- An on-screen point has an index inside the framebuffer. -/
theorem pixelIndex_lt {p : Point} (h : inBounds p) : pixelIndex p < screenPixels := by
  simp only [inBounds, decide_eq_true_eq, screenWidth, screenHeight] at h
  simp only [pixelIndex, screenWidth, screenPixels]
  omega

/-- A plot keeps the framebuffer canonical. -/
theorem wf_plot {fb : Memory 32} (p : Point) (col : Word) (h : fb.wf screenPixels) : (plot fb p col).wf screenPixels := by
  unfold plot
  split
  · exact Memory.wf_write col (pixelIndex_lt ‹_›) h
  · exact h

theorem wf_plotAll {fb : Memory 32} (ps : List Point) (col : Word) (h : fb.wf screenPixels) : (plotAll fb ps col).wf screenPixels := by
  unfold plotAll
  induction ps generalizing fb with
  | nil => exact h
  | cons p ps ih => exact ih (wf_plot p col h)

theorem wf_drawLine {fb : Memory 32} (p q : Point) (col : Word) (h : fb.wf screenPixels) : (drawLine fb p q col).wf screenPixels :=
  wf_plotAll _ col h

theorem wf_drawTriangle {fb : Memory 32} (a b c : Point) (col : Word) (h : fb.wf screenPixels) :
    (drawTriangle fb a b c col).wf screenPixels := by
  unfold drawTriangle
  induction triangleSpans a b c generalizing fb with
  | nil => exact h
  | cons sp sps ih => exact ih (wf_drawLine _ _ col h)

theorem wf_primitive {s : State} (h : s.fb.wf screenPixels) : s.primitive.wf screenPixels := by
  unfold State.primitive
  split_ifs
  · exact wf_drawLine _ _ _ h
  · exact wf_drawTriangle _ _ _ _ h
  · exact h

theorem wf_clearedCmd {s : State} (h : s.Inv) : s.clearedCmd.wf arrayBytes := by
  have hc : s.cfg.cmdOff + 4 ≤ arrayBytes := h.cfg.2.2.2.1 (s.cfg.cmdOff, 4) (by simp [Config.controlFields])
  have w := fun k (hk : k < 4) m (hm : Memory.wf (w := 8) arrayBytes m) =>
    Memory.wf_write (a := s.cfg.cmdOff + k) 0#8 (by omega) hm
  exact w 3 (by omega) _ (w 2 (by omega) _ (w 1 (by omega) _ (w 0 (by omega) _ h.vram)))

/-- The pixel (x, y) of the screen as a point: on the screen, at index 160 y + x (R40, R241). -/
theorem pixelIndex_screen {x y : Nat} (hx : x < 160) (hy : y < 144) :
    inBounds ((x : Int), (y : Int)) = true ∧ pixelIndex ((x : Int), (y : Int)) = 160 * y + x := by
  simp only [inBounds, pixelIndex, screenWidth, screenHeight, decide_eq_true_eq]
  refine ⟨?_, ?_⟩ <;> push_cast <;> omega

/-- What a plot does to a pixel of the screen (R270). -/
theorem read_plot {fb : Memory 32} (h : fb.wf screenPixels) (p : Point) (col : Word) {x y : Nat} (hx : x < 160) (hy : y < 144) :
    (plot fb p col).read (160 * y + x) = if p = ((x : Int), (y : Int)) then col else fb.read (160 * y + x) := by
  obtain ⟨b, i⟩ := pixelIndex_screen hx hy
  unfold plot
  by_cases hp : p = ((x : Int), (y : Int))
  · subst hp
    rw [if_pos b, if_pos rfl, i]
    exact Memory.read_write_same _ _ h
  · rw [if_neg hp]
    by_cases hb : inBounds p = true
    · rw [if_pos hb]
      refine Memory.read_write_other _ fun he => hp ?_
      simp only [inBounds, pixelIndex, screenWidth, screenHeight, decide_eq_true_eq] at hb he
      push_cast at hb
      apply Prod.ext <;> simp <;> omega
    · rw [if_neg hb]

/-- What plotting a list of points does to a pixel of the screen. -/
theorem read_plotAll {fb : Memory 32} (h : fb.wf screenPixels) (ps : List Point) (col : Word) {x y : Nat} (hx : x < 160)
    (hy : y < 144) :
    (plotAll fb ps col).read (160 * y + x) = if ((x : Int), (y : Int)) ∈ ps then col else fb.read (160 * y + x) := by
  induction ps generalizing fb with
  | nil => simp [plotAll]
  | cons p ps ih =>
    change (plotAll (plot fb p col) ps col).read _ = _
    rw [ih (wf_plot p col h), read_plot h p col hx hy]
    by_cases h1 : ((x : Int), (y : Int)) ∈ ps
    · rw [if_pos h1, if_pos (List.mem_cons_of_mem _ h1)]
    · rw [if_neg h1]
      by_cases h2 : p = ((x : Int), (y : Int))
      · rw [if_pos h2, if_pos (by simp [h2])]
      · rw [if_neg h2, if_neg]
        simp only [List.mem_cons, not_or]
        exact ⟨fun e => h2 e.symm, h1⟩

/-- What VRAM holds once CMD is acknowledged (R262). -/
theorem read_clearedCmd {s : State} (h : s.Inv) (o : Nat) :
    s.clearedCmd.read o = if s.cfg.cmdOff ≤ o ∧ o < s.cfg.cmdOff + 4 then 0#8 else s.vram.read o := by
  have hb : s.cfg.cmdOff + 4 ≤ arrayBytes := h.cfg.2.2.2.1 (s.cfg.cmdOff, 4) (by simp [Config.controlFields])
  have h1 : Memory.wf arrayBytes (s.vram.write s.cfg.cmdOff 0#8) := Memory.wf_write 0#8 (by omega) h.vram
  have h2 := Memory.wf_write (a := s.cfg.cmdOff + 1) 0#8 (by omega) h1
  have h3 := Memory.wf_write (a := s.cfg.cmdOff + 2) 0#8 (by omega) h2
  unfold State.clearedCmd
  rw [Memory.read_write _ _ _ h3, Memory.read_write _ _ _ h2, Memory.read_write _ _ _ h1, Memory.read_write _ _ _ h.vram]
  split_ifs <;> first | rfl | omega

/-- What a picture reads. -/
theorem read_picture (f : Nat → Word) (i : Nat) : (picture f).read i = if i < screenPixels then f i else 0#32 :=
  Memory.read_ofFn _ _ _

/-- Pixel i of the buffer handed to the host. -/
theorem pixelBuffer_get (fb : Memory 32) (i : Nat) (h : i < screenPixels) : (pixelBuffer fb)[i]? = some (fb.read i) := by
  unfold pixelBuffer
  rw [List.getElem?_map, List.getElem?_range h]; rfl

/-- The sort of R272 on three vertices is the stable insertion sort by y. -/
theorem sortByY_eq (a b c : Point) : sortByY [a, b, c] = [a, b, c].insertionSort (fun p q => p.2 ≤ q.2) := by
  by_cases h1 : a.2 ≤ b.2 <;> by_cases h2 : b.2 ≤ c.2 <;> by_cases h3 : a.2 ≤ c.2 <;>
    simp [sortByY, insertByY, List.insertionSort, List.orderedInsert, h1, h2, h3]
  all_goals omega

/-! ## The fields a pass can change: vram, fb and out -/

@[simp] theorem State.present_cfg (s : State) : s.present.cfg = s.cfg := by unfold State.present; rfl
@[simp] theorem State.present_regs (s : State) : s.present.regs = s.regs := by unfold State.present; rfl
@[simp] theorem State.present_pc (s : State) : s.present.pc = s.pc := by unfold State.present; rfl
@[simp] theorem State.present_rom (s : State) : s.present.rom = s.rom := by unfold State.present; rfl
@[simp] theorem State.present_ram (s : State) : s.present.ram = s.ram := by unfold State.present; rfl
@[simp] theorem State.present_joy (s : State) : s.present.joy = s.joy := by unfold State.present; rfl
@[simp] theorem State.present_bridge (s : State) : s.present.bridge = s.bridge := by unfold State.present; rfl
@[simp] theorem State.present_apu (s : State) : s.present.apu = s.apu := by unfold State.present; rfl
@[simp] theorem State.present_agenda (s : State) : s.present.agenda = s.agenda := by unfold State.present; rfl
@[simp] theorem State.present_audioTurns (s : State) : s.present.audioTurns = s.audioTurns := by unfold State.present; rfl
@[simp] theorem State.present_vram (s : State) : s.present.vram = s.vram := by unfold State.present; rfl
@[simp] theorem State.present_fb (s : State) : s.present.fb = s.fb := by unfold State.present; rfl

@[simp] theorem State.renderFramebuffer_cfg (s : State) : s.renderFramebuffer.cfg = s.cfg := by unfold State.renderFramebuffer; rfl
@[simp] theorem State.renderFramebuffer_regs (s : State) : s.renderFramebuffer.regs = s.regs := by unfold State.renderFramebuffer; rfl
@[simp] theorem State.renderFramebuffer_pc (s : State) : s.renderFramebuffer.pc = s.pc := by unfold State.renderFramebuffer; rfl
@[simp] theorem State.renderFramebuffer_rom (s : State) : s.renderFramebuffer.rom = s.rom := by unfold State.renderFramebuffer; rfl
@[simp] theorem State.renderFramebuffer_ram (s : State) : s.renderFramebuffer.ram = s.ram := by unfold State.renderFramebuffer; rfl
@[simp] theorem State.renderFramebuffer_joy (s : State) : s.renderFramebuffer.joy = s.joy := by unfold State.renderFramebuffer; rfl
@[simp] theorem State.renderFramebuffer_bridge (s : State) : s.renderFramebuffer.bridge = s.bridge := by unfold State.renderFramebuffer; rfl
@[simp] theorem State.renderFramebuffer_apu (s : State) : s.renderFramebuffer.apu = s.apu := by unfold State.renderFramebuffer; rfl
@[simp] theorem State.renderFramebuffer_agenda (s : State) : s.renderFramebuffer.agenda = s.agenda := by unfold State.renderFramebuffer; rfl
@[simp] theorem State.renderFramebuffer_audioTurns (s : State) : s.renderFramebuffer.audioTurns = s.audioTurns := by unfold State.renderFramebuffer; rfl
@[simp] theorem State.renderFramebuffer_vram (s : State) : s.renderFramebuffer.vram = s.vram := by unfold State.renderFramebuffer; rfl
@[simp] theorem State.renderFramebuffer_out (s : State) : s.renderFramebuffer.out = s.out := by unfold State.renderFramebuffer; rfl

@[simp] theorem State.renderTilemap_cfg (s : State) : s.renderTilemap.cfg = s.cfg := by unfold State.renderTilemap; rfl
@[simp] theorem State.renderTilemap_regs (s : State) : s.renderTilemap.regs = s.regs := by unfold State.renderTilemap; rfl
@[simp] theorem State.renderTilemap_pc (s : State) : s.renderTilemap.pc = s.pc := by unfold State.renderTilemap; rfl
@[simp] theorem State.renderTilemap_rom (s : State) : s.renderTilemap.rom = s.rom := by unfold State.renderTilemap; rfl
@[simp] theorem State.renderTilemap_ram (s : State) : s.renderTilemap.ram = s.ram := by unfold State.renderTilemap; rfl
@[simp] theorem State.renderTilemap_joy (s : State) : s.renderTilemap.joy = s.joy := by unfold State.renderTilemap; rfl
@[simp] theorem State.renderTilemap_bridge (s : State) : s.renderTilemap.bridge = s.bridge := by unfold State.renderTilemap; rfl
@[simp] theorem State.renderTilemap_apu (s : State) : s.renderTilemap.apu = s.apu := by unfold State.renderTilemap; rfl
@[simp] theorem State.renderTilemap_agenda (s : State) : s.renderTilemap.agenda = s.agenda := by unfold State.renderTilemap; rfl
@[simp] theorem State.renderTilemap_audioTurns (s : State) : s.renderTilemap.audioTurns = s.audioTurns := by unfold State.renderTilemap; rfl
@[simp] theorem State.renderTilemap_vram (s : State) : s.renderTilemap.vram = s.vram := by unfold State.renderTilemap; rfl
@[simp] theorem State.renderTilemap_out (s : State) : s.renderTilemap.out = s.out := by unfold State.renderTilemap; rfl

@[simp] theorem State.renderCommand_cfg (s : State) : s.renderCommand.cfg = s.cfg := by
  unfold State.renderCommand; split_ifs <;> rfl
@[simp] theorem State.renderCommand_regs (s : State) : s.renderCommand.regs = s.regs := by
  unfold State.renderCommand; split_ifs <;> rfl
@[simp] theorem State.renderCommand_pc (s : State) : s.renderCommand.pc = s.pc := by
  unfold State.renderCommand; split_ifs <;> rfl
@[simp] theorem State.renderCommand_rom (s : State) : s.renderCommand.rom = s.rom := by
  unfold State.renderCommand; split_ifs <;> rfl
@[simp] theorem State.renderCommand_ram (s : State) : s.renderCommand.ram = s.ram := by
  unfold State.renderCommand; split_ifs <;> rfl
@[simp] theorem State.renderCommand_joy (s : State) : s.renderCommand.joy = s.joy := by
  unfold State.renderCommand; split_ifs <;> rfl
@[simp] theorem State.renderCommand_bridge (s : State) : s.renderCommand.bridge = s.bridge := by
  unfold State.renderCommand; split_ifs <;> rfl
@[simp] theorem State.renderCommand_apu (s : State) : s.renderCommand.apu = s.apu := by
  unfold State.renderCommand; split_ifs <;> rfl
@[simp] theorem State.renderCommand_agenda (s : State) : s.renderCommand.agenda = s.agenda := by
  unfold State.renderCommand; split_ifs <;> rfl
@[simp] theorem State.renderCommand_audioTurns (s : State) : s.renderCommand.audioTurns = s.audioTurns := by
  unfold State.renderCommand; split_ifs <;> rfl
@[simp] theorem State.renderCommand_out (s : State) : s.renderCommand.out = s.out := by
  unfold State.renderCommand; split_ifs <;> rfl

/-- A pass runs one strategy, or none, and presents (R240, R244). -/
theorem State.render_cases (s : State) :
    (s.modeField = 0#32 ∧ s.render = s.renderFramebuffer.present) ∨ (s.modeField = 1#32 ∧ s.render = s.renderTilemap.present) ∨
    (s.modeField = 2#32 ∧ s.render = s.renderCommand.present) ∨
    (s.modeField ≠ 0#32 ∧ s.modeField ≠ 1#32 ∧ s.modeField ≠ 2#32 ∧ s.render = s.present) := by
  unfold State.render
  split_ifs with h0 h1 h2
  · exact .inl ⟨h0, rfl⟩
  · exact .inr (.inl ⟨h1, rfl⟩)
  · exact .inr (.inr (.inl ⟨h2, rfl⟩))
  · exact .inr (.inr (.inr ⟨h0, h1, h2, rfl⟩))

/-- What a pass can change: vram, the framebuffer and the log. -/
theorem State.render_eq (s : State) : s.render = { s with vram := s.render.vram, fb := s.render.fb, out := s.render.out } := by
  refine State.eq_of_fields ?_ ?_ ?_ ?_ ?_ rfl ?_ ?_ ?_ rfl ?_ ?_ rfl <;>
    rcases s.render_cases with ⟨-, h⟩ | ⟨-, h⟩ | ⟨-, h⟩ | ⟨-, -, -, h⟩ <;> rw [h] <;> simp

@[simp] theorem State.render_cfg (s : State) : s.render.cfg = s.cfg := by
  rcases s.render_cases with ⟨-, h⟩ | ⟨-, h⟩ | ⟨-, h⟩ | ⟨-, -, -, h⟩ <;> rw [h] <;> simp
@[simp] theorem State.render_regs (s : State) : s.render.regs = s.regs := by
  rcases s.render_cases with ⟨-, h⟩ | ⟨-, h⟩ | ⟨-, h⟩ | ⟨-, -, -, h⟩ <;> rw [h] <;> simp
@[simp] theorem State.render_pc (s : State) : s.render.pc = s.pc := by
  rcases s.render_cases with ⟨-, h⟩ | ⟨-, h⟩ | ⟨-, h⟩ | ⟨-, -, -, h⟩ <;> rw [h] <;> simp
@[simp] theorem State.render_rom (s : State) : s.render.rom = s.rom := by
  rcases s.render_cases with ⟨-, h⟩ | ⟨-, h⟩ | ⟨-, h⟩ | ⟨-, -, -, h⟩ <;> rw [h] <;> simp
@[simp] theorem State.render_ram (s : State) : s.render.ram = s.ram := by
  rcases s.render_cases with ⟨-, h⟩ | ⟨-, h⟩ | ⟨-, h⟩ | ⟨-, -, -, h⟩ <;> rw [h] <;> simp
@[simp] theorem State.render_joy (s : State) : s.render.joy = s.joy := by
  rcases s.render_cases with ⟨-, h⟩ | ⟨-, h⟩ | ⟨-, h⟩ | ⟨-, -, -, h⟩ <;> rw [h] <;> simp
@[simp] theorem State.render_bridge (s : State) : s.render.bridge = s.bridge := by
  rcases s.render_cases with ⟨-, h⟩ | ⟨-, h⟩ | ⟨-, h⟩ | ⟨-, -, -, h⟩ <;> rw [h] <;> simp
@[simp] theorem State.render_apu (s : State) : s.render.apu = s.apu := by
  rcases s.render_cases with ⟨-, h⟩ | ⟨-, h⟩ | ⟨-, h⟩ | ⟨-, -, -, h⟩ <;> rw [h] <;> simp
@[simp] theorem State.render_agenda (s : State) : s.render.agenda = s.agenda := by
  rcases s.render_cases with ⟨-, h⟩ | ⟨-, h⟩ | ⟨-, h⟩ | ⟨-, -, -, h⟩ <;> rw [h] <;> simp
@[simp] theorem State.render_audioTurns (s : State) : s.render.audioTurns = s.audioTurns := by
  rcases s.render_cases with ⟨-, h⟩ | ⟨-, h⟩ | ⟨-, h⟩ | ⟨-, -, -, h⟩ <;> rw [h] <;> simp
@[simp] theorem State.reg_render (s : State) (r : RegIdx) : s.render.reg r = s.reg r := State.reg_congr (by simp) r

/-- A render pass keeps the invariant. -/
theorem State.render_inv {s : State} (h : s.Inv) : s.render.Inv := by
  have hfb : ∀ m : Memory 32, m.wf screenPixels → ({ s with fb := m } : State).Inv := fun m hm =>
    ⟨h.cfg, h.zero, h.rom, h.ram, h.vram, h.joy, hm⟩
  have hp : ∀ t : State, t.Inv → t.present.Inv := fun t ht =>
    ⟨by simpa using ht.cfg, by simpa using ht.zero, by simpa using ht.rom, by simpa using ht.ram, by simpa using ht.vram,
      by simpa using ht.joy, by simpa using ht.fb⟩
  rcases s.render_cases with ⟨-, hr⟩ | ⟨-, hr⟩ | ⟨-, hr⟩ | ⟨-, -, -, hr⟩ <;> rw [hr]
  · exact hp _ (hfb _ (Memory.wf_ofFn _ _))
  · exact hp _ (hfb _ (Memory.wf_ofFn _ _))
  · unfold State.renderCommand
    split_ifs
    · exact hp _ h
    · exact hp _ ⟨h.cfg, h.zero, h.rom, h.ram, wf_clearedCmd h, h.joy, wf_primitive h.fb⟩
  · exact hp _ h

end Sys2Proof.Machine
end

