-- ==== Sys2Proof/Laws/HostCalls.lean ====
section
/-! SUPPORT. What a host call can do, and what one step can do. -/

namespace Sys2Proof.Machine

/-- A host call keeps these fields. -/
theorem State.perform_fields (s : State) (a : Action) :
    (s.perform a).cfg = s.cfg ∧ (s.perform a).regs = s.regs ∧ (s.perform a).pc = s.pc ∧ (s.perform a).rom = s.rom := by
  cases a <;> simp [State.perform]

/-- A host call keeps the invariant. -/
theorem State.perform_inv {s : State} (h : s.Inv) (a : Action) : (s.perform a).Inv := by
  cases a with
  | cpu => exact h
  | render => exact State.render_inv h
  | generate n => exact ⟨h.cfg, h.zero, h.rom, h.ram, h.vram, h.joy, h.fb⟩
  | write8 addr v => exact h.write8 addr v
  | write32 addr v => exact h.write32 addr v
  | read8 addr => exact ⟨h.cfg, h.zero, h.rom, h.ram, h.vram, h.joy, h.fb⟩
  | read32 addr => exact ⟨h.cfg, h.zero, h.rom, h.ram, h.vram, h.joy, h.fb⟩
  | frame input =>
    have := h.write8 s.inputAddr input
    exact ⟨this.cfg, this.zero, this.rom, this.ram, this.vram, this.joy, this.fb⟩

/-- Loading a cartridge keeps the invariant (R383). -/
theorem State.loadRom_inv {s : State} (h : s.Inv) (image : List Byte) : (s.loadRom image).Inv :=
  ⟨h.cfg, h.zero, Memory.wf_ofList _ _ (by simp), h.ram, h.vram, h.joy, h.fb⟩

/-- A CPU step answers a next state: an instruction's, or the no-op's. -/
theorem cpuStep_shape (s : State) : ∃ t, cpuStep s = .next t ∧
    ((∃ i, decode s.fetch = some i ∧ exec i s = .next t ∧ NextShape s t) ∨ (decode s.fetch = none ∧ t = s.advance)) := by
  unfold cpuStep
  cases h : decode s.fetch with
  | none => exact ⟨_, rfl, .inr ⟨rfl, rfl⟩⟩
  | some i =>
    obtain ⟨t, ht, hs⟩ := exec_shape i s
    exact ⟨t, ht, .inl ⟨i, rfl, ht, hs⟩⟩

/-- One step is a CPU step, or a host call; either way the call it takes leaves the agenda. -/
theorem step_cases (s : State) :
    (s.agenda = [] ∧ step s = cpuStep s) ∨
    (∃ rest, s.agenda = .cpu :: rest ∧ step s = cpuStep { s with agenda := rest }) ∨
    (∃ a rest, s.agenda = a :: rest ∧ a ≠ .cpu ∧ step s = .next (({ s with agenda := rest } : State).perform a)) := by
  unfold step
  cases h : s.agenda with
  | nil => exact .inl ⟨rfl, rfl⟩
  | cons a rest =>
    cases a with
    | cpu => exact .inr (.inl ⟨rest, rfl, rfl⟩)
    | render => exact .inr (.inr ⟨_, rest, rfl, nofun, rfl⟩)
    | generate n => exact .inr (.inr ⟨_, rest, rfl, nofun, rfl⟩)
    | write8 addr v => exact .inr (.inr ⟨_, rest, rfl, nofun, rfl⟩)
    | write32 addr v => exact .inr (.inr ⟨_, rest, rfl, nofun, rfl⟩)
    | read8 addr => exact .inr (.inr ⟨_, rest, rfl, nofun, rfl⟩)
    | read32 addr => exact .inr (.inr ⟨_, rest, rfl, nofun, rfl⟩)
    | frame input => exact .inr (.inr ⟨_, rest, rfl, nofun, rfl⟩)

end Sys2Proof.Machine
end

