-- ==== Sys2Proof/Laws/PerInstr.lean ====
section
/-! SUPPORT. A fact about every instruction as syntax, one lemma for each constructor: its encoding is a word of its own row of the
opcode table. -/

namespace Sys2Proof

/-- Words of one arrangement meet field by field. -/
theorem encodeR_and (a a' : BitVec 7) (b b' c c' : RegIdx) (d d' : BitVec 3) (e e' : RegIdx) (f f' : BitVec 7) :
    encodeR a b c d e f &&& encodeR a' b' c' d' e' f' =
      encodeR (a &&& a') (b &&& b') (c &&& c') (d &&& d') (e &&& e') (f &&& f') := by
  change ((a ++ b ++ c ++ d ++ e ++ f) &&& (a' ++ b' ++ c' ++ d' ++ e' ++ f') : BitVec (7 + 5 + 5 + 3 + 5 + 7)) = (a &&& a') ++ (b &&& b') ++ (c &&& c') ++ (d &&& d') ++ (e &&& e') ++ (f &&& f')
  simp only [BitVec.and_append]

theorem encodeI_and (b b' : BitVec 12) (c c' : RegIdx) (d d' : BitVec 3) (e e' : RegIdx) (f f' : BitVec 7) :
    encodeI b c d e f &&& encodeI b' c' d' e' f' = encodeI (b &&& b') (c &&& c') (d &&& d') (e &&& e') (f &&& f') := by
  change ((b ++ c ++ d ++ e ++ f) &&& (b' ++ c' ++ d' ++ e' ++ f') : BitVec (12 + 5 + 3 + 5 + 7)) = (b &&& b') ++ (c &&& c') ++ (d &&& d') ++ (e &&& e') ++ (f &&& f')
  simp only [BitVec.and_append]

theorem encodeU_and (b b' : BitVec 20) (e e' : RegIdx) (f f' : BitVec 7) :
    encodeU b e f &&& encodeU b' e' f' = encodeU (b &&& b') (e &&& e') (f &&& f') := by
  change ((b ++ e ++ f) &&& (b' ++ e' ++ f') : BitVec (20 + 5 + 7)) = (b &&& b') ++ (e &&& e') ++ (f &&& f')
  simp only [BitVec.and_append]

/-- What is left of an R word under the mask of its rows: opcode, f3 and f7. -/
theorem encodeR_mask (f7 : BitVec 7) (rs2 rs1 : RegIdx) (f3 : BitVec 3) (rd : RegIdx) (op : BitVec 7) :
    encodeR f7 rs2 rs1 f3 rd op &&& 0xFE00707F#32 = encodeR f7 0 0 f3 0 op := by
  have h : (0xFE00707F#32 : Word) = encodeR (BitVec.allOnes 7) 0 0 (BitVec.allOnes 3) 0 (BitVec.allOnes 7) := by decide
  rw [h, encodeR_and]
  simp only [BitVec.and_allOnes, BitVec.and_zero, BitVec.ofNat_eq_ofNat]

/-- What is left of an R word under the mask of opcode and f3. -/
theorem encodeR_mask_f3 (f7 : BitVec 7) (rs2 rs1 : RegIdx) (f3 : BitVec 3) (rd : RegIdx) (op : BitVec 7) :
    encodeR f7 rs2 rs1 f3 rd op &&& 0x0000707F#32 = encodeR 0 0 0 f3 0 op := by
  have h : (0x0000707F#32 : Word) = encodeR 0 0 0 (BitVec.allOnes 3) 0 (BitVec.allOnes 7) := by decide
  rw [h, encodeR_and]
  simp only [BitVec.and_allOnes, BitVec.and_zero, BitVec.ofNat_eq_ofNat]

/-- What is left of an I word under the mask of opcode and f3. -/
theorem encodeI_mask_f3 (imm : BitVec 12) (rs1 : RegIdx) (f3 : BitVec 3) (rd : RegIdx) (op : BitVec 7) :
    encodeI imm rs1 f3 rd op &&& 0x0000707F#32 = encodeI 0 0 f3 0 op := by
  have h : (0x0000707F#32 : Word) = encodeI 0 0 (BitVec.allOnes 3) 0 (BitVec.allOnes 7) := by decide
  rw [h, encodeI_and]
  simp only [BitVec.and_allOnes, BitVec.and_zero, BitVec.ofNat_eq_ofNat]

/-- What is left of an I word under the mask of the opcode. -/
theorem encodeI_mask_op (imm : BitVec 12) (rs1 : RegIdx) (f3 : BitVec 3) (rd : RegIdx) (op : BitVec 7) :
    encodeI imm rs1 f3 rd op &&& 0x0000007F#32 = encodeI 0 0 0 0 op := by
  have h : (0x0000007F#32 : Word) = encodeI 0 0 0 0 (BitVec.allOnes 7) := by decide
  rw [h, encodeI_and]
  simp only [BitVec.and_allOnes, BitVec.and_zero, BitVec.ofNat_eq_ofNat]

/-- What is left of a U word under the mask of the opcode. -/
theorem encodeU_mask_op (imm : BitVec 20) (rd : RegIdx) (op : BitVec 7) :
    encodeU imm rd op &&& 0x0000007F#32 = encodeU 0 0 op := by
  have h : (0x0000007F#32 : Word) = encodeU 0 0 (BitVec.allOnes 7) := by decide
  rw [h, encodeU_and]
  simp only [BitVec.and_allOnes, BitVec.and_zero, BitVec.ofNat_eq_ofNat]

/-- The encoding of i is a word of the row that has i's mnemonic (R111). -/
def Laws.EncodingFitsRow.Statement (i : Instr) : Prop :=
  ∃ r ∈ opcodeTable, r.mnemonic = mnemonicOf i ∧ encode i &&& r.mask = r.pattern

namespace Laws.EncodingFitsRow

theorem lui (rd : RegIdx) (imm : BitVec 20) : Statement (.lui rd imm) :=
  ⟨⟨"LUI", 0x00000037, 0x0000007F⟩, by decide, rfl, by exact encodeU_mask_op _ _ _⟩
theorem auipc (rd : RegIdx) (imm : BitVec 20) : Statement (.auipc rd imm) :=
  ⟨⟨"AUIPC", 0x00000017, 0x0000007F⟩, by decide, rfl, by exact encodeU_mask_op _ _ _⟩
theorem jal (rd : RegIdx) (offset : BitVec 21) : Statement (.jal rd offset) :=
  ⟨⟨"JAL", 0x0000006F, 0x0000007F⟩, by decide, rfl, by simp only [encode, encodeJ_eq]; exact encodeU_mask_op _ _ _⟩
theorem jalr (rd rs1 : RegIdx) (imm : BitVec 12) : Statement (.jalr rd rs1 imm) :=
  ⟨⟨"JALR", 0x00000067, 0x0000007F⟩, by decide, rfl, by exact encodeI_mask_op _ _ _ _ _⟩
theorem beq (rs1 rs2 : RegIdx) (offset : BitVec 13) : Statement (.beq rs1 rs2 offset) :=
  ⟨⟨"BEQ", 0x00000063, 0x0000707F⟩, by decide, rfl, by simp only [encode, encodeB_eq]; exact encodeR_mask_f3 _ _ _ _ _ _⟩
theorem bne (rs1 rs2 : RegIdx) (offset : BitVec 13) : Statement (.bne rs1 rs2 offset) :=
  ⟨⟨"BNE", 0x00001063, 0x0000707F⟩, by decide, rfl, by simp only [encode, encodeB_eq]; exact encodeR_mask_f3 _ _ _ _ _ _⟩
theorem blt (rs1 rs2 : RegIdx) (offset : BitVec 13) : Statement (.blt rs1 rs2 offset) :=
  ⟨⟨"BLT", 0x00004063, 0x0000707F⟩, by decide, rfl, by simp only [encode, encodeB_eq]; exact encodeR_mask_f3 _ _ _ _ _ _⟩
theorem bge (rs1 rs2 : RegIdx) (offset : BitVec 13) : Statement (.bge rs1 rs2 offset) :=
  ⟨⟨"BGE", 0x00005063, 0x0000707F⟩, by decide, rfl, by simp only [encode, encodeB_eq]; exact encodeR_mask_f3 _ _ _ _ _ _⟩
theorem bltu (rs1 rs2 : RegIdx) (offset : BitVec 13) : Statement (.bltu rs1 rs2 offset) :=
  ⟨⟨"BLTU", 0x00006063, 0x0000707F⟩, by decide, rfl, by simp only [encode, encodeB_eq]; exact encodeR_mask_f3 _ _ _ _ _ _⟩
theorem bgeu (rs1 rs2 : RegIdx) (offset : BitVec 13) : Statement (.bgeu rs1 rs2 offset) :=
  ⟨⟨"BGEU", 0x00007063, 0x0000707F⟩, by decide, rfl, by simp only [encode, encodeB_eq]; exact encodeR_mask_f3 _ _ _ _ _ _⟩
theorem lb (rd rs1 : RegIdx) (imm : BitVec 12) : Statement (.lb rd rs1 imm) :=
  ⟨⟨"LB", 0x00000003, 0x0000707F⟩, by decide, rfl, by exact encodeI_mask_f3 _ _ _ _ _⟩
theorem lh (rd rs1 : RegIdx) (imm : BitVec 12) : Statement (.lh rd rs1 imm) :=
  ⟨⟨"LH", 0x00001003, 0x0000707F⟩, by decide, rfl, by exact encodeI_mask_f3 _ _ _ _ _⟩
theorem lw (rd rs1 : RegIdx) (imm : BitVec 12) : Statement (.lw rd rs1 imm) :=
  ⟨⟨"LW", 0x00002003, 0x0000707F⟩, by decide, rfl, by exact encodeI_mask_f3 _ _ _ _ _⟩
theorem lbu (rd rs1 : RegIdx) (imm : BitVec 12) : Statement (.lbu rd rs1 imm) :=
  ⟨⟨"LBU", 0x00004003, 0x0000707F⟩, by decide, rfl, by exact encodeI_mask_f3 _ _ _ _ _⟩
theorem lhu (rd rs1 : RegIdx) (imm : BitVec 12) : Statement (.lhu rd rs1 imm) :=
  ⟨⟨"LHU", 0x00005003, 0x0000707F⟩, by decide, rfl, by exact encodeI_mask_f3 _ _ _ _ _⟩
theorem sb (rs2 rs1 : RegIdx) (imm : BitVec 12) : Statement (.sb rs2 rs1 imm) :=
  ⟨⟨"SB", 0x00000023, 0x0000707F⟩, by decide, rfl, by simp only [encode, encodeS_eq]; exact encodeR_mask_f3 _ _ _ _ _ _⟩
theorem sh (rs2 rs1 : RegIdx) (imm : BitVec 12) : Statement (.sh rs2 rs1 imm) :=
  ⟨⟨"SH", 0x00001023, 0x0000707F⟩, by decide, rfl, by simp only [encode, encodeS_eq]; exact encodeR_mask_f3 _ _ _ _ _ _⟩
theorem sw (rs2 rs1 : RegIdx) (imm : BitVec 12) : Statement (.sw rs2 rs1 imm) :=
  ⟨⟨"SW", 0x00002023, 0x0000707F⟩, by decide, rfl, by simp only [encode, encodeS_eq]; exact encodeR_mask_f3 _ _ _ _ _ _⟩
theorem addi (rd rs1 : RegIdx) (imm : BitVec 12) : Statement (.addi rd rs1 imm) :=
  ⟨⟨"ADDI", 0x00000013, 0x0000707F⟩, by decide, rfl, by exact encodeI_mask_f3 _ _ _ _ _⟩
theorem slti (rd rs1 : RegIdx) (imm : BitVec 12) : Statement (.slti rd rs1 imm) :=
  ⟨⟨"SLTI", 0x00002013, 0x0000707F⟩, by decide, rfl, by exact encodeI_mask_f3 _ _ _ _ _⟩
theorem sltiu (rd rs1 : RegIdx) (imm : BitVec 12) : Statement (.sltiu rd rs1 imm) :=
  ⟨⟨"SLTIU", 0x00003013, 0x0000707F⟩, by decide, rfl, by exact encodeI_mask_f3 _ _ _ _ _⟩
theorem xori (rd rs1 : RegIdx) (imm : BitVec 12) : Statement (.xori rd rs1 imm) :=
  ⟨⟨"XORI", 0x00004013, 0x0000707F⟩, by decide, rfl, by exact encodeI_mask_f3 _ _ _ _ _⟩
theorem ori (rd rs1 : RegIdx) (imm : BitVec 12) : Statement (.ori rd rs1 imm) :=
  ⟨⟨"ORI", 0x00006013, 0x0000707F⟩, by decide, rfl, by exact encodeI_mask_f3 _ _ _ _ _⟩
theorem andi (rd rs1 : RegIdx) (imm : BitVec 12) : Statement (.andi rd rs1 imm) :=
  ⟨⟨"ANDI", 0x00007013, 0x0000707F⟩, by decide, rfl, by exact encodeI_mask_f3 _ _ _ _ _⟩
theorem slli (rd rs1 : RegIdx) (shamt : BitVec 5) : Statement (.slli rd rs1 shamt) :=
  ⟨⟨"SLLI", 0x00001013, 0xFE00707F⟩, by decide, rfl, by exact encodeR_mask _ _ _ _ _ _⟩
theorem srli (rd rs1 : RegIdx) (shamt : BitVec 5) : Statement (.srli rd rs1 shamt) :=
  ⟨⟨"SRLI", 0x00005013, 0xFE00707F⟩, by decide, rfl, by exact encodeR_mask _ _ _ _ _ _⟩
theorem srai (rd rs1 : RegIdx) (shamt : BitVec 5) : Statement (.srai rd rs1 shamt) :=
  ⟨⟨"SRAI", 0x40005013, 0xFE00707F⟩, by decide, rfl, by exact encodeR_mask _ _ _ _ _ _⟩
theorem add (rd rs1 rs2 : RegIdx) : Statement (.add rd rs1 rs2) :=
  ⟨⟨"ADD", 0x00000033, 0xFE00707F⟩, by decide, rfl, by exact encodeR_mask _ _ _ _ _ _⟩
theorem sub (rd rs1 rs2 : RegIdx) : Statement (.sub rd rs1 rs2) :=
  ⟨⟨"SUB", 0x40000033, 0xFE00707F⟩, by decide, rfl, by exact encodeR_mask _ _ _ _ _ _⟩
theorem sll (rd rs1 rs2 : RegIdx) : Statement (.sll rd rs1 rs2) :=
  ⟨⟨"SLL", 0x00001033, 0xFE00707F⟩, by decide, rfl, by exact encodeR_mask _ _ _ _ _ _⟩
theorem slt (rd rs1 rs2 : RegIdx) : Statement (.slt rd rs1 rs2) :=
  ⟨⟨"SLT", 0x00002033, 0xFE00707F⟩, by decide, rfl, by exact encodeR_mask _ _ _ _ _ _⟩
theorem sltu (rd rs1 rs2 : RegIdx) : Statement (.sltu rd rs1 rs2) :=
  ⟨⟨"SLTU", 0x00003033, 0xFE00707F⟩, by decide, rfl, by exact encodeR_mask _ _ _ _ _ _⟩
theorem xor (rd rs1 rs2 : RegIdx) : Statement (.xor rd rs1 rs2) :=
  ⟨⟨"XOR", 0x00004033, 0xFE00707F⟩, by decide, rfl, by exact encodeR_mask _ _ _ _ _ _⟩
theorem srl (rd rs1 rs2 : RegIdx) : Statement (.srl rd rs1 rs2) :=
  ⟨⟨"SRL", 0x00005033, 0xFE00707F⟩, by decide, rfl, by exact encodeR_mask _ _ _ _ _ _⟩
theorem sra (rd rs1 rs2 : RegIdx) : Statement (.sra rd rs1 rs2) :=
  ⟨⟨"SRA", 0x40005033, 0xFE00707F⟩, by decide, rfl, by exact encodeR_mask _ _ _ _ _ _⟩
theorem or (rd rs1 rs2 : RegIdx) : Statement (.or rd rs1 rs2) :=
  ⟨⟨"OR", 0x00006033, 0xFE00707F⟩, by decide, rfl, by exact encodeR_mask _ _ _ _ _ _⟩
theorem and (rd rs1 rs2 : RegIdx) : Statement (.and rd rs1 rs2) :=
  ⟨⟨"AND", 0x00007033, 0xFE00707F⟩, by decide, rfl, by exact encodeR_mask _ _ _ _ _ _⟩
theorem mul (rd rs1 rs2 : RegIdx) : Statement (.mul rd rs1 rs2) :=
  ⟨⟨"MUL", 0x02000033, 0xFE00707F⟩, by decide, rfl, by exact encodeR_mask _ _ _ _ _ _⟩
theorem div (rd rs1 rs2 : RegIdx) : Statement (.div rd rs1 rs2) :=
  ⟨⟨"DIV", 0x02004033, 0xFE00707F⟩, by decide, rfl, by exact encodeR_mask _ _ _ _ _ _⟩
theorem divu (rd rs1 rs2 : RegIdx) : Statement (.divu rd rs1 rs2) :=
  ⟨⟨"DIVU", 0x02005033, 0xFE00707F⟩, by decide, rfl, by exact encodeR_mask _ _ _ _ _ _⟩
theorem rem (rd rs1 rs2 : RegIdx) : Statement (.rem rd rs1 rs2) :=
  ⟨⟨"REM", 0x02006033, 0xFE00707F⟩, by decide, rfl, by exact encodeR_mask _ _ _ _ _ _⟩
theorem remu (rd rs1 rs2 : RegIdx) : Statement (.remu rd rs1 rs2) :=
  ⟨⟨"REMU", 0x02007033, 0xFE00707F⟩, by decide, rfl, by exact encodeR_mask _ _ _ _ _ _⟩

end Laws.EncodingFitsRow

end Sys2Proof
end

