-- ==== Sys2Proof/Tests/Slice0.lean ====
section
/-! SUPPORT. Tests: words and one-step results taken from spec/ (95_test_vectors.md; the vector's name stands beside each), and for every
obligation with hypotheses a state and operands that meet them. -/

namespace Sys2Proof.Tests

open Sys2Proof Sys2Proof.Machine

/-! ## Helpers -/

/-- The reset state with these registers and words of memory. -/
def setUp (regs : List (RegIdx × Word)) (mem : List (Word × Word)) : State :=
  regs.foldl (fun s r => s.setReg r.1 r.2) (mem.foldl (fun s c => s.pokeWord c.1 c.2) State.reset)

/-- The start state of a vector: the word w at pc, the registers and words of memory named. -/
def start (pc : Word) (w : Nat) (regs : List (RegIdx × Word)) (mem : List (Word × Word)) : State :=
  { setUp regs mem with pc := pc }.withFetchWord 32 w

/-- The state after one step. -/
def after (s : State) : State :=
  match step s with
  | .next t => t
  | .fault _ => s
  | .refused _ => s

/-- The invariant as a decidable proposition. -/
abbrev InvCheck (s : State) : Prop :=
  s.cfg.Valid ∧ s.regs[0] = 0#32 ∧ s.rom.wf arrayBytes ∧ s.ram.wf arrayBytes ∧ s.vram.wf arrayBytes ∧ s.joy.wf ioBytes ∧
    s.fb.wf screenPixels

theorem inv_of_check {s : State} (h : InvCheck s) : s.Inv := ⟨h.1, h.2.1, h.2.2.1, h.2.2.2.1, h.2.2.2.2.1, h.2.2.2.2.2.1, h.2.2.2.2.2.2⟩

/-! ## Well-formedness: the one check a term can fail is an odd jump or branch offset (R103) -/

theorem test_wf_jal : (Instr.jal 1#5 5#21).wellFormed = false := by decide
theorem test_wf_beq : (Instr.beq 1#5 2#5 1#13).wellFormed = false := by decide
theorem test_wf_bne : (Instr.bne 1#5 2#5 3#13).wellFormed = false := by decide
theorem test_wf_blt : (Instr.blt 1#5 2#5 (BitVec.ofInt 13 (-1))).wellFormed = false := by decide
theorem test_wf_bge : (Instr.bge 1#5 2#5 4095#13).wellFormed = false := by decide
theorem test_wf_bltu : (Instr.bltu 1#5 2#5 7#13).wellFormed = false := by decide
theorem test_wf_bgeu : (Instr.bgeu 1#5 2#5 9#13).wellFormed = false := by decide

/-! ## Decoding: one word for each instruction, field by field from the layouts of 30_encoding.md -/

theorem test_decode_lui : decode (0b11111111111111111111#20 ++ 0b00101#5 ++ 0b0110111#7 : Word) = some (.lui 5#5 0xfffff#20) := by decide
theorem test_decode_auipc : decode (0b00000000000000000001#20 ++ 0b00101#5 ++ 0b0010111#7 : Word) = some (.auipc 5#5 0x1#20) := by decide
theorem test_decode_jal : decode (0b1#1 ++ 0b1111111110#10 ++ 0b1#1 ++ 0b11111111#8 ++ 0b00001#5 ++ 0b1101111#7 : Word) =
    some (.jal 1#5 (BitVec.ofInt 21 (-4))) := by decide
theorem test_decode_jalr : decode (0b000000000011#12 ++ 0b00101#5 ++ 0b000#3 ++ 0b00001#5 ++ 0b1100111#7 : Word) =
    some (.jalr 1#5 5#5 3#12) := by decide
theorem test_decode_beq : decode (0b1#1 ++ 0b000000#6 ++ 0b00000#5 ++ 0b00000#5 ++ 0b000#3 ++ 0b0000#4 ++ 0b0#1 ++ 0b1100011#7 : Word) =
    some (.beq 0#5 0#5 (BitVec.ofInt 13 (-4096))) := by decide
theorem test_decode_bne : decode (0b1#1 ++ 0b111111#6 ++ 0b00010#5 ++ 0b00001#5 ++ 0b001#3 ++ 0b1100#4 ++ 0b1#1 ++ 0b1100011#7 : Word) =
    some (.bne 1#5 2#5 (BitVec.ofInt 13 (-8))) := by decide
theorem test_decode_blt : decode (0b1#1 ++ 0b111111#6 ++ 0b00010#5 ++ 0b00001#5 ++ 0b100#3 ++ 0b1100#4 ++ 0b1#1 ++ 0b1100011#7 : Word) =
    some (.blt 1#5 2#5 (BitVec.ofInt 13 (-8))) := by decide
theorem test_decode_bge : decode (0b1#1 ++ 0b111111#6 ++ 0b00010#5 ++ 0b00001#5 ++ 0b101#3 ++ 0b1100#4 ++ 0b1#1 ++ 0b1100011#7 : Word) =
    some (.bge 1#5 2#5 (BitVec.ofInt 13 (-8))) := by decide
theorem test_decode_bltu : decode (0b1#1 ++ 0b111111#6 ++ 0b00010#5 ++ 0b00001#5 ++ 0b110#3 ++ 0b1100#4 ++ 0b1#1 ++ 0b1100011#7 : Word) =
    some (.bltu 1#5 2#5 (BitVec.ofInt 13 (-8))) := by decide
theorem test_decode_bgeu : decode (0b1#1 ++ 0b111111#6 ++ 0b00010#5 ++ 0b00001#5 ++ 0b111#3 ++ 0b1100#4 ++ 0b1#1 ++ 0b1100011#7 : Word) =
    some (.bgeu 1#5 2#5 (BitVec.ofInt 13 (-8))) := by decide
theorem test_decode_lb : decode (0b000000000011#12 ++ 0b00001#5 ++ 0b000#3 ++ 0b00101#5 ++ 0b0000011#7 : Word) =
    some (.lb 5#5 1#5 3#12) := by decide
theorem test_decode_lh : decode (0b000000000010#12 ++ 0b00001#5 ++ 0b001#3 ++ 0b00101#5 ++ 0b0000011#7 : Word) =
    some (.lh 5#5 1#5 2#12) := by decide
theorem test_decode_lw : decode (0b111111111100#12 ++ 0b00001#5 ++ 0b010#3 ++ 0b00101#5 ++ 0b0000011#7 : Word) =
    some (.lw 5#5 1#5 (BitVec.ofInt 12 (-4))) := by decide
theorem test_decode_lbu : decode (0b000000000011#12 ++ 0b00001#5 ++ 0b100#3 ++ 0b00101#5 ++ 0b0000011#7 : Word) =
    some (.lbu 5#5 1#5 3#12) := by decide
theorem test_decode_lhu : decode (0b000000000010#12 ++ 0b00001#5 ++ 0b101#3 ++ 0b00101#5 ++ 0b0000011#7 : Word) =
    some (.lhu 5#5 1#5 2#12) := by decide
theorem test_decode_addi : decode (0b100000000000#12 ++ 0b00001#5 ++ 0b000#3 ++ 0b00101#5 ++ 0b0010011#7 : Word) =
    some (.addi 5#5 1#5 (BitVec.ofInt 12 (-2048))) := by decide
theorem test_decode_slti : decode (0b100000000000#12 ++ 0b00001#5 ++ 0b010#3 ++ 0b00101#5 ++ 0b0010011#7 : Word) =
    some (.slti 5#5 1#5 (BitVec.ofInt 12 (-2048))) := by decide
theorem test_decode_sltiu : decode (0b111111111111#12 ++ 0b00001#5 ++ 0b011#3 ++ 0b00101#5 ++ 0b0010011#7 : Word) =
    some (.sltiu 5#5 1#5 (BitVec.ofInt 12 (-1))) := by decide
theorem test_decode_xori : decode (0b111111111111#12 ++ 0b00001#5 ++ 0b100#3 ++ 0b00101#5 ++ 0b0010011#7 : Word) =
    some (.xori 5#5 1#5 (BitVec.ofInt 12 (-1))) := by decide
theorem test_decode_ori : decode (0b011100000000#12 ++ 0b00001#5 ++ 0b110#3 ++ 0b00101#5 ++ 0b0010011#7 : Word) =
    some (.ori 5#5 1#5 1792#12) := by decide
theorem test_decode_andi : decode (0b111111110000#12 ++ 0b00001#5 ++ 0b111#3 ++ 0b00101#5 ++ 0b0010011#7 : Word) =
    some (.andi 5#5 1#5 (BitVec.ofInt 12 (-16))) := by decide
theorem test_decode_sb : decode (0b0010000#7 ++ 0b00010#5 ++ 0b00001#5 ++ 0b000#3 ++ 0b00000#5 ++ 0b0100011#7 : Word) =
    some (.sb 2#5 1#5 512#12) := by decide
theorem test_decode_sh : decode (0b0000000#7 ++ 0b00010#5 ++ 0b00001#5 ++ 0b001#3 ++ 0b00011#5 ++ 0b0100011#7 : Word) =
    some (.sh 2#5 1#5 3#12) := by decide
theorem test_decode_sw : decode (0b1111111#7 ++ 0b00010#5 ++ 0b00001#5 ++ 0b010#3 ++ 0b11100#5 ++ 0b0100011#7 : Word) =
    some (.sw 2#5 1#5 (BitVec.ofInt 12 (-4))) := by decide
theorem test_decode_slli : decode (0b0000000#7 ++ 0b11111#5 ++ 0b00001#5 ++ 0b001#3 ++ 0b00101#5 ++ 0b0010011#7 : Word) =
    some (.slli 5#5 1#5 31#5) := by decide
theorem test_decode_srli : decode (0b0000000#7 ++ 0b00100#5 ++ 0b00001#5 ++ 0b101#3 ++ 0b00101#5 ++ 0b0010011#7 : Word) =
    some (.srli 5#5 1#5 4#5) := by decide
theorem test_decode_srai : decode (0b0100000#7 ++ 0b00100#5 ++ 0b00001#5 ++ 0b101#3 ++ 0b00101#5 ++ 0b0010011#7 : Word) =
    some (.srai 5#5 1#5 4#5) := by decide
theorem test_decode_add : decode (0b0000000#7 ++ 0b00010#5 ++ 0b00001#5 ++ 0b000#3 ++ 0b00101#5 ++ 0b0110011#7 : Word) =
    some (.add 5#5 1#5 2#5) := by decide
theorem test_decode_sub : decode (0b0100000#7 ++ 0b00010#5 ++ 0b00001#5 ++ 0b000#3 ++ 0b00101#5 ++ 0b0110011#7 : Word) =
    some (.sub 5#5 1#5 2#5) := by decide
theorem test_decode_sll : decode (0b0000000#7 ++ 0b00010#5 ++ 0b00001#5 ++ 0b001#3 ++ 0b00101#5 ++ 0b0110011#7 : Word) =
    some (.sll 5#5 1#5 2#5) := by decide
theorem test_decode_slt : decode (0b0000000#7 ++ 0b00010#5 ++ 0b00001#5 ++ 0b010#3 ++ 0b00101#5 ++ 0b0110011#7 : Word) =
    some (.slt 5#5 1#5 2#5) := by decide
theorem test_decode_sltu : decode (0b0000000#7 ++ 0b00010#5 ++ 0b00001#5 ++ 0b011#3 ++ 0b00101#5 ++ 0b0110011#7 : Word) =
    some (.sltu 5#5 1#5 2#5) := by decide
theorem test_decode_xor : decode (0b0000000#7 ++ 0b00010#5 ++ 0b00001#5 ++ 0b100#3 ++ 0b00101#5 ++ 0b0110011#7 : Word) =
    some (.xor 5#5 1#5 2#5) := by decide
theorem test_decode_srl : decode (0b0000000#7 ++ 0b00010#5 ++ 0b00001#5 ++ 0b101#3 ++ 0b00101#5 ++ 0b0110011#7 : Word) =
    some (.srl 5#5 1#5 2#5) := by decide
theorem test_decode_sra : decode (0b0100000#7 ++ 0b00010#5 ++ 0b00001#5 ++ 0b101#3 ++ 0b00101#5 ++ 0b0110011#7 : Word) =
    some (.sra 5#5 1#5 2#5) := by decide
theorem test_decode_or : decode (0b0000000#7 ++ 0b00010#5 ++ 0b00001#5 ++ 0b110#3 ++ 0b00101#5 ++ 0b0110011#7 : Word) =
    some (.or 5#5 1#5 2#5) := by decide
theorem test_decode_and : decode (0b0000000#7 ++ 0b00010#5 ++ 0b00001#5 ++ 0b111#3 ++ 0b00101#5 ++ 0b0110011#7 : Word) =
    some (.and 5#5 1#5 2#5) := by decide
theorem test_decode_mul : decode (0b0000001#7 ++ 0b00010#5 ++ 0b00001#5 ++ 0b000#3 ++ 0b00101#5 ++ 0b0110011#7 : Word) =
    some (.mul 5#5 1#5 2#5) := by decide
theorem test_decode_div : decode (0b0000001#7 ++ 0b00010#5 ++ 0b00001#5 ++ 0b100#3 ++ 0b00101#5 ++ 0b0110011#7 : Word) =
    some (.div 5#5 1#5 2#5) := by decide
theorem test_decode_divu : decode (0b0000001#7 ++ 0b00010#5 ++ 0b00001#5 ++ 0b101#3 ++ 0b00101#5 ++ 0b0110011#7 : Word) =
    some (.divu 5#5 1#5 2#5) := by decide
theorem test_decode_rem : decode (0b0000001#7 ++ 0b00010#5 ++ 0b00001#5 ++ 0b110#3 ++ 0b00101#5 ++ 0b0110011#7 : Word) =
    some (.rem 5#5 1#5 2#5) := by decide
theorem test_decode_remu : decode (0b0000001#7 ++ 0b00010#5 ++ 0b00001#5 ++ 0b111#3 ++ 0b00101#5 ++ 0b0110011#7 : Word) =
    some (.remu 5#5 1#5 2#5) := by decide

theorem test_decode_jalr_ignores_f3 : decode (0b000000000000#12 ++ 0b00101#5 ++ 0b011#3 ++ 0b00001#5 ++ 0b1100111#7 : Word) =
    some (.jalr 1#5 5#5 0#12) := by decide

theorem test_table_word : decodeTableWord 32 0x402081B3 = some (.sub 3#5 1#5 2#5) ∧ decodeTableWord 8 0x402081B3 = some (.add 1#5 0#5 0#5) := by decide

/-! ## One step of each instruction -/

/-- VU1: LUI x5, 0xFFFFF -/
theorem test_step_lui_vu1 : let s := start 0x0#32 0xfffff2b7 [] []
    (after s).pc = 0x4#32 ∧ (after s).reg 5#5 = 0xfffff000#32 := by decide

/-- VU3: LUI x5, 0 -/
theorem test_step_lui_vu3 : let s := start 0x0#32 0x000002b7 [(5#5, 0xdeadbeef#32)] []
    (after s).pc = 0x4#32 ∧ (after s).reg 5#5 = 0x0#32 := by decide

/-- VU4: AUIPC x5, 0x00001 -/
theorem test_step_auipc_vu4 : let s := start 0x8#32 0x00001297 [] []
    (after s).pc = 0xc#32 ∧ (after s).reg 5#5 = 0x1008#32 := by decide

/-- VU5: AUIPC x5, 0xFFFFF -/
theorem test_step_auipc_vu5 : let s := start 0x10#32 0xfffff297 [] []
    (after s).pc = 0x14#32 ∧ (after s).reg 5#5 = 0xfffff010#32 := by decide

/-- VJ2: JAL x1, -4 -/
theorem test_step_jal_vj2 : let s := start 0x10#32 0xffdff0ef [] []
    (after s).pc = 0xc#32 ∧ (after s).reg 1#5 = 0x14#32 := by decide

/-- VJ4: JAL x0, -1048576 -/
theorem test_step_jal_vj4 : let s := start 0x0#32 0x8000006f [] []
    (after s).pc = 0xfff00000#32 ∧ (after s).reg 0#5 = 0x0#32 := by decide

/-- VJ6: JALR x1, x5, 3 -/
theorem test_step_jalr_vj6 : let s := start 0x20#32 0x003280e7 [(5#5, 0x100#32)] []
    (after s).pc = 0x102#32 ∧ (after s).reg 1#5 = 0x24#32 := by decide

/-- VJ8: JALR x5, x5, 0 -/
theorem test_step_jalr_vj8 : let s := start 0x20#32 0x000282e7 [(5#5, 0x200#32)] []
    (after s).pc = 0x200#32 ∧ (after s).reg 5#5 = 0x24#32 := by decide

/-- VB1: BEQ x1, x2, 16 -/
theorem test_step_beq_vb1 : let s := start 0x100#32 0x00208863 [(1#5, 0xffffffff#32), (2#5, 0x1#32)] []
    (after s).pc = 0x104#32 := by decide

/-- VB13: BEQ x3, x3, 12 -/
theorem test_step_beq_vb13 : let s := start 0x100#32 0x00318663 [(3#5, 0x80000000#32)] []
    (after s).pc = 0x10c#32 := by decide

/-- VB8: BNE x1, x2, -8 -/
theorem test_step_bne_vb8 : let s := start 0x100#32 0xfe209ce3 [(1#5, 0x1#32), (2#5, 0xffffffff#32)] []
    (after s).pc = 0xf8#32 := by decide

/-- VB14: BNE x3, x3, 12 -/
theorem test_step_bne_vb14 : let s := start 0x100#32 0x00319663 [(3#5, 0x80000000#32)] []
    (after s).pc = 0x104#32 := by decide

/-- VB3: BLT x1, x2, 16 -/
theorem test_step_blt_vb3 : let s := start 0x100#32 0x0020c863 [(1#5, 0xffffffff#32), (2#5, 0x1#32)] []
    (after s).pc = 0x110#32 := by decide

/-- VB21: BLT x1, x2, 8 -/
theorem test_step_blt_vb21 : let s := start 0x0#32 0x0020c463 [(1#5, 0x80000000#32), (2#5, 0x7fffffff#32)] []
    (after s).pc = 0x8#32 := by decide

/-- VB4: BGE x1, x2, 16 -/
theorem test_step_bge_vb4 : let s := start 0x100#32 0x0020d863 [(1#5, 0xffffffff#32), (2#5, 0x1#32)] []
    (after s).pc = 0x104#32 := by decide

/-- VB10: BGE x1, x2, -8 -/
theorem test_step_bge_vb10 : let s := start 0x100#32 0xfe20dce3 [(1#5, 0x1#32), (2#5, 0xffffffff#32)] []
    (after s).pc = 0xf8#32 := by decide

/-- VB5: BLTU x1, x2, 16 -/
theorem test_step_bltu_vb5 : let s := start 0x100#32 0x0020e863 [(1#5, 0xffffffff#32), (2#5, 0x1#32)] []
    (after s).pc = 0x104#32 := by decide

/-- VB11: BLTU x1, x2, -8 -/
theorem test_step_bltu_vb11 : let s := start 0x100#32 0xfe20ece3 [(1#5, 0x1#32), (2#5, 0xffffffff#32)] []
    (after s).pc = 0xf8#32 := by decide

/-- VB6: BGEU x1, x2, 16 -/
theorem test_step_bgeu_vb6 : let s := start 0x100#32 0x0020f863 [(1#5, 0xffffffff#32), (2#5, 0x1#32)] []
    (after s).pc = 0x110#32 := by decide

/-- VB18: BGEU x3, x3, 12 -/
theorem test_step_bgeu_vb18 : let s := start 0x100#32 0x0031f663 [(3#5, 0x80000000#32)] []
    (after s).pc = 0x10c#32 := by decide

/-- VL1: LB x5, 3(x1) -/
theorem test_step_lb_vl1 : let s := start 0x0#32 0x00308283 [(1#5, 0x1000010#32)] [(0x1000010#32, 0x80ff7f01#32), (0x1000014#32, 0xa5a5a5a5#32)]
    (after s).pc = 0x4#32 ∧ (after s).reg 5#5 = 0xffffff80#32 := by decide

/-- VL3: LB x5, 1(x1) -/
theorem test_step_lb_vl3 : let s := start 0x0#32 0x00108283 [(1#5, 0x1000010#32)] [(0x1000010#32, 0x80ff7f01#32), (0x1000014#32, 0xa5a5a5a5#32)]
    (after s).pc = 0x4#32 ∧ (after s).reg 5#5 = 0x7f#32 := by decide

/-- VL6: LH x5, 1(x1) -/
theorem test_step_lh_vl6 : let s := start 0x0#32 0x00109283 [(1#5, 0x1000010#32)] [(0x1000010#32, 0x80ff7f01#32), (0x1000014#32, 0xa5a5a5a5#32)]
    (after s).pc = 0x4#32 ∧ (after s).reg 5#5 = 0xffffff7f#32 := by decide

/-- VL4: LH x5, 2(x1) -/
theorem test_step_lh_vl4 : let s := start 0x0#32 0x00209283 [(1#5, 0x1000010#32)] [(0x1000010#32, 0x80ff7f01#32), (0x1000014#32, 0xa5a5a5a5#32)]
    (after s).pc = 0x4#32 ∧ (after s).reg 5#5 = 0xffff80ff#32 := by decide

/-- VL8: LW x5, 3(x1) -/
theorem test_step_lw_vl8 : let s := start 0x0#32 0x0030a283 [(1#5, 0x1000010#32)] [(0x1000010#32, 0x80ff7f01#32), (0x1000014#32, 0xa5a5a5a5#32)]
    (after s).pc = 0x4#32 ∧ (after s).reg 5#5 = 0xa5a5a580#32 := by decide

/-- VL12: LW x5, -2(x1) -/
theorem test_step_lw_vl12 : let s := start 0x0#32 0xffe0a283 [(1#5, 0x2000000#32)] [(0x1fffffc#32, 0x11223344#32), (0x2000000#32, 0x55667788#32)]
    (after s).pc = 0x4#32 ∧ (after s).reg 5#5 = 0x77881122#32 := by decide

/-- VL2: LBU x5, 3(x1) -/
theorem test_step_lbu_vl2 : let s := start 0x0#32 0x0030c283 [(1#5, 0x1000010#32)] [(0x1000010#32, 0x80ff7f01#32), (0x1000014#32, 0xa5a5a5a5#32)]
    (after s).pc = 0x4#32 ∧ (after s).reg 5#5 = 0x80#32 := by decide

/-- VL5: LHU x5, 2(x1) -/
theorem test_step_lhu_vl5 : let s := start 0x0#32 0x0020d283 [(1#5, 0x1000010#32)] [(0x1000010#32, 0x80ff7f01#32), (0x1000014#32, 0xa5a5a5a5#32)]
    (after s).pc = 0x4#32 ∧ (after s).reg 5#5 = 0x80ff#32 := by decide

/-- VS1: SB x2, 1(x1) -/
theorem test_step_sb_vs1 : let s := start 0x0#32 0x002080a3 [(1#5, 0x1000020#32), (2#5, 0x12345678#32)] [(0x1000020#32, 0xaaaaaaaa#32)]
    (after s).pc = 0x4#32 ∧ (after s).read32 0x1000020#32 = 0xaaaa78aa#32 ∧ (after s).read32 0x1000024#32 = 0x0#32 := by decide

/-- VS11: SB x2, 0x200(x1) -/
theorem test_step_sb_vs11 : let s := start 0x0#32 0x20208023 [(1#5, 0x3000000#32), (2#5, 0x1ff#32)] []
    (after s).pc = 0x4#32 ∧ (after s).read8 0x3000200#32 = 0xff#8 ∧ (after s).read8 0x3000201#32 = 0x0#8 := by decide

/-- VS3: SH x2, 3(x1) -/
theorem test_step_sh_vs3 : let s := start 0x0#32 0x002091a3 [(1#5, 0x1000020#32), (2#5, 0x12345678#32)] [(0x1000020#32, 0xaaaaaaaa#32), (0x1000024#32, 0xaaaaaaaa#32)]
    (after s).pc = 0x4#32 ∧ (after s).read32 0x1000020#32 = 0x78aaaaaa#32 ∧ (after s).read32 0x1000024#32 = 0xaaaaaa56#32 := by decide

/-- VS5: SW x2, 1(x1) -/
theorem test_step_sw_vs5 : let s := start 0x0#32 0x0020a0a3 [(1#5, 0x1000020#32), (2#5, 0x12345678#32)] []
    (after s).pc = 0x4#32 ∧ (after s).read32 0x1000020#32 = 0x34567800#32 ∧ (after s).read32 0x1000024#32 = 0x12#32 := by decide

/-- VS9: SW x2, -2(x1) -/
theorem test_step_sw_vs9 : let s := start 0x0#32 0xfe20af23 [(1#5, 0x1000000#32), (2#5, 0x12345678#32)] []
    (after s).pc = 0x4#32 ∧ (after s).read32 0xfffffc#32 = 0x0#32 ∧ (after s).read32 0x1000000#32 = 0x1234#32 := by decide

/-- VI3: ADDI x5, x1, -2048 -/
theorem test_step_addi_vi3 : let s := start 0x0#32 0x80008293 [(1#5, 0x800#32)] []
    (after s).pc = 0x4#32 ∧ (after s).reg 5#5 = 0x0#32 := by decide

/-- VI5: ADDI x5, x5, 1 -/
theorem test_step_addi_vi5 : let s := start 0x0#32 0x00128293 [(5#5, 0xffffffff#32)] []
    (after s).pc = 0x4#32 ∧ (after s).reg 5#5 = 0x0#32 := by decide

/-- VI8: SLTI x5, x1, -2048 -/
theorem test_step_slti_vi8 : let s := start 0x0#32 0x8000a293 [(1#5, 0x80000000#32)] []
    (after s).pc = 0x4#32 ∧ (after s).reg 5#5 = 0x1#32 := by decide

/-- VI7: SLTI x5, x1, -1 -/
theorem test_step_slti_vi7 : let s := start 0x0#32 0xfff0a293 [(1#5, 0xffffffff#32)] []
    (after s).pc = 0x4#32 ∧ (after s).reg 5#5 = 0x0#32 := by decide

/-- VI10: SLTIU x5, x1, -1 -/
theorem test_step_sltiu_vi10 : let s := start 0x0#32 0xfff0b293 [(1#5, 0x5#32)] []
    (after s).pc = 0x4#32 ∧ (after s).reg 5#5 = 0x1#32 := by decide

/-- VI9: SLTIU x5, x1, 1 -/
theorem test_step_sltiu_vi9 : let s := start 0x0#32 0x0010b293 [(1#5, 0xffffffff#32)] []
    (after s).pc = 0x4#32 ∧ (after s).reg 5#5 = 0x0#32 := by decide

/-- VI12: XORI x5, x1, -1 -/
theorem test_step_xori_vi12 : let s := start 0x0#32 0xfff0c293 [(1#5, 0x12345678#32)] []
    (after s).pc = 0x4#32 ∧ (after s).reg 5#5 = 0xedcba987#32 := by decide

/-- VI14: ORI x5, x1, -2048 -/
theorem test_step_ori_vi14 : let s := start 0x0#32 0x8000e293 [(1#5, 0xff#32)] []
    (after s).pc = 0x4#32 ∧ (after s).reg 5#5 = 0xfffff8ff#32 := by decide

/-- VI16: ANDI x5, x1, -16 -/
theorem test_step_andi_vi16 : let s := start 0x0#32 0xff00f293 [(1#5, 0x12345678#32)] []
    (after s).pc = 0x4#32 ∧ (after s).reg 5#5 = 0x12345670#32 := by decide

/-- VI17: SLLI x5, x1, 31 -/
theorem test_step_slli_vi17 : let s := start 0x0#32 0x01f09293 [(1#5, 0x3#32)] []
    (after s).pc = 0x4#32 ∧ (after s).reg 5#5 = 0x80000000#32 := by decide

/-- VI19: SRLI x5, x1, 31 -/
theorem test_step_srli_vi19 : let s := start 0x0#32 0x01f0d293 [(1#5, 0x80000000#32)] []
    (after s).pc = 0x4#32 ∧ (after s).reg 5#5 = 0x1#32 := by decide

/-- VI21: SRAI x5, x1, 4 -/
theorem test_step_srai_vi21 : let s := start 0x0#32 0x4040d293 [(1#5, 0xf0000000#32)] []
    (after s).pc = 0x4#32 ∧ (after s).reg 5#5 = 0xff000000#32 := by decide

/-- VI23: SRAI x5, x1, 31 -/
theorem test_step_srai_vi23 : let s := start 0x0#32 0x41f0d293 [(1#5, 0x7fffffff#32)] []
    (after s).pc = 0x4#32 ∧ (after s).reg 5#5 = 0x0#32 := by decide

/-- VO3: ADD x5, x5, x5 -/
theorem test_step_add_vo3 : let s := start 0x0#32 0x005282b3 [(5#5, 0x80000000#32)] []
    (after s).pc = 0x4#32 ∧ (after s).reg 5#5 = 0x0#32 := by decide

/-- VO19: ADD x0, x1, x2 -/
theorem test_step_add_vo19 : let s := start 0x0#32 0x00208033 [(1#5, 0x5#32), (2#5, 0x6#32)] []
    (after s).pc = 0x4#32 ∧ (after s).reg 0#5 = 0x0#32 := by decide

/-- VO5: SUB x5, x1, x2 -/
theorem test_step_sub_vo5 : let s := start 0x0#32 0x402082b3 [(1#5, 0x80000000#32), (2#5, 0x1#32)] []
    (after s).pc = 0x4#32 ∧ (after s).reg 5#5 = 0x7fffffff#32 := by decide

/-- VO6: SLL x5, x1, x2 -/
theorem test_step_sll_vo6 : let s := start 0x0#32 0x002092b3 [(1#5, 0x1#32), (2#5, 0x21#32)] []
    (after s).pc = 0x4#32 ∧ (after s).reg 5#5 = 0x2#32 := by decide

/-- VO8: SLL x5, x1, x2 -/
theorem test_step_sll_vo8 : let s := start 0x0#32 0x002092b3 [(1#5, 0x1#32), (2#5, 0xffffffff#32)] []
    (after s).pc = 0x4#32 ∧ (after s).reg 5#5 = 0x80000000#32 := by decide

/-- VO9: SLT x5, x1, x2 -/
theorem test_step_slt_vo9 : let s := start 0x0#32 0x0020a2b3 [(1#5, 0xffffffff#32), (2#5, 0x1#32)] []
    (after s).pc = 0x4#32 ∧ (after s).reg 5#5 = 0x1#32 := by decide

/-- VO10: SLT x5, x1, x2 -/
theorem test_step_slt_vo10 : let s := start 0x0#32 0x0020a2b3 [(1#5, 0x1#32), (2#5, 0xffffffff#32)] []
    (after s).pc = 0x4#32 ∧ (after s).reg 5#5 = 0x0#32 := by decide

/-- VO11: SLTU x5, x1, x2 -/
theorem test_step_sltu_vo11 : let s := start 0x0#32 0x0020b2b3 [(1#5, 0xffffffff#32), (2#5, 0x1#32)] []
    (after s).pc = 0x4#32 ∧ (after s).reg 5#5 = 0x0#32 := by decide

/-- VO12: SLTU x5, x0, x2 -/
theorem test_step_sltu_vo12 : let s := start 0x0#32 0x002032b3 [(2#5, 0x7#32)] []
    (after s).pc = 0x4#32 ∧ (after s).reg 5#5 = 0x1#32 := by decide

/-- VO13: XOR x5, x1, x2 -/
theorem test_step_xor_vo13 : let s := start 0x0#32 0x0020c2b3 [(1#5, 0xff00ff00#32), (2#5, 0xff00ff0#32)] []
    (after s).pc = 0x4#32 ∧ (after s).reg 5#5 = 0xf0f0f0f0#32 := by decide

/-- VO14: SRL x5, x1, x2 -/
theorem test_step_srl_vo14 : let s := start 0x0#32 0x0020d2b3 [(1#5, 0x80000000#32), (2#5, 0x24#32)] []
    (after s).pc = 0x4#32 ∧ (after s).reg 5#5 = 0x8000000#32 := by decide

/-- VO15: SRA x5, x1, x2 -/
theorem test_step_sra_vo15 : let s := start 0x0#32 0x4020d2b3 [(1#5, 0x80000000#32), (2#5, 0x24#32)] []
    (after s).pc = 0x4#32 ∧ (after s).reg 5#5 = 0xf8000000#32 := by decide

/-- VO16: SRA x5, x1, x2 -/
theorem test_step_sra_vo16 : let s := start 0x0#32 0x4020d2b3 [(1#5, 0x80000000#32), (2#5, 0x20#32)] []
    (after s).pc = 0x4#32 ∧ (after s).reg 5#5 = 0x80000000#32 := by decide

/-- VO17: OR x5, x1, x2 -/
theorem test_step_or_vo17 : let s := start 0x0#32 0x0020e2b3 [(1#5, 0xff00ff00#32), (2#5, 0xff00ff0#32)] []
    (after s).pc = 0x4#32 ∧ (after s).reg 5#5 = 0xfff0fff0#32 := by decide

/-- VO18: AND x5, x1, x2 -/
theorem test_step_and_vo18 : let s := start 0x0#32 0x0020f2b3 [(1#5, 0xff00ff00#32), (2#5, 0xff00ff0#32)] []
    (after s).pc = 0x4#32 ∧ (after s).reg 5#5 = 0xf000f00#32 := by decide

/-- VM2: MUL x5, x1, x2 -/
theorem test_step_mul_vm2 : let s := start 0x0#32 0x022082b3 [(1#5, 0xffffffff#32), (2#5, 0xffffffff#32)] []
    (after s).pc = 0x4#32 ∧ (after s).reg 5#5 = 0x1#32 := by decide

/-- VM3: MUL x5, x1, x2 -/
theorem test_step_mul_vm3 : let s := start 0x0#32 0x022082b3 [(1#5, 0x7fffffff#32), (2#5, 0x2#32)] []
    (after s).pc = 0x4#32 ∧ (after s).reg 5#5 = 0xfffffffe#32 := by decide

/-- VM7: DIV x5, x1, x2 -/
theorem test_step_div_vm7 : let s := start 0x0#32 0x0220c2b3 [(1#5, 0x7#32), (2#5, 0xfffffffe#32)] []
    (after s).pc = 0x4#32 ∧ (after s).reg 5#5 = 0xfffffffd#32 := by decide

/-- VM10: DIV x5, x1, x2 -/
theorem test_step_div_vm10 : let s := start 0x0#32 0x0220c2b3 [(1#5, 0x80000000#32), (2#5, 0xffffffff#32)] []
    (after s).pc = 0x4#32 ∧ (after s).reg 5#5 = 0x80000000#32 := by decide

/-- VM12: DIVU x5, x1, x2 -/
theorem test_step_divu_vm12 : let s := start 0x0#32 0x0220d2b3 [(1#5, 0xfffffff9#32), (2#5, 0x2#32)] []
    (after s).pc = 0x4#32 ∧ (after s).reg 5#5 = 0x7ffffffc#32 := by decide

/-- VM14: DIVU x5, x1, x2 -/
theorem test_step_divu_vm14 : let s := start 0x0#32 0x0220d2b3 [(1#5, 0x7#32), (2#5, 0x0#32)] []
    (after s).pc = 0x4#32 ∧ (after s).reg 5#5 = 0xffffffff#32 := by decide

/-- VM15: REM x5, x1, x2 -/
theorem test_step_rem_vm15 : let s := start 0x0#32 0x0220e2b3 [(1#5, 0xfffffff9#32), (2#5, 0x2#32)] []
    (after s).pc = 0x4#32 ∧ (after s).reg 5#5 = 0xffffffff#32 := by decide

/-- VM18: REM x5, x1, x2 -/
theorem test_step_rem_vm18 : let s := start 0x0#32 0x0220e2b3 [(1#5, 0x80000000#32), (2#5, 0xffffffff#32)] []
    (after s).pc = 0x4#32 ∧ (after s).reg 5#5 = 0x0#32 := by decide

/-- VM19: REMU x5, x1, x2 -/
theorem test_step_remu_vm19 : let s := start 0x0#32 0x0220f2b3 [(1#5, 0xfffffff9#32), (2#5, 0x2#32)] []
    (after s).pc = 0x4#32 ∧ (after s).reg 5#5 = 0x1#32 := by decide

/-- VM20: REMU x5, x1, x2 -/
theorem test_step_remu_vm20 : let s := start 0x0#32 0x0220f2b3 [(1#5, 0xfffffff9#32), (2#5, 0x0#32)] []
    (after s).pc = 0x4#32 ∧ (after s).reg 5#5 = 0xfffffff9#32 := by decide

/-- VX3: .word -/
theorem test_step_unrecognised_vx3 : let s := start 0x40#32 0x00000073 [(1#5, 0x1000000#32), (5#5, 0x77#32)] []
    (after s).pc = 0x44#32 ∧ (after s).regs = s.regs := by decide

/-- VI25: OP-IMM word, f3 = 101, inst[31:25] = 0000001 -/
theorem test_step_unrecognised_vi25 : let s := start 0x0#32 0x0210d293 [(1#5, 0x80#32), (5#5, 0x77#32)] []
    (after s).pc = 0x4#32 ∧ (after s).regs = s.regs := by decide

/-- VB23: branch word with inst[14:12] = 2 -/
theorem test_step_unrecognised_vb23 : let s := start 0x0#32 0x0020a463 [(1#5, 0x5#32), (2#5, 0x5#32)] []
    (after s).pc = 0x4#32 ∧ (after s).regs = s.regs := by decide

/-! ## The Bus, the GPU, the APU and the frame loop -/

/-- What reads back at an address where a byte has been written. -/
def readsBack (a : Word) (v : Byte) : Byte := (State.reset.write8 a v).read8 a

/-- S2: a byte reads back at the first and last address of each storage window, and not in ROM, in the APU window or outside. -/
theorem test_bus_bytes :
    [readsBack 0x01000000#32 0xAB#8, readsBack 0x01FFFFFF#32 0xCD#8, readsBack 0x02000000#32 0x01#8, readsBack 0x02FFFFFF#32 0x02#8,
      readsBack 0x03000000#32 0x80#8, readsBack 0x030000FF#32 0x7F#8, readsBack 0x03000200#32 0x5A#8] =
      [0xAB#8, 0xCD#8, 0x01#8, 0x02#8, 0x80#8, 0x7F#8, 0x5A#8] ∧
    [readsBack 0#32 0xAB#8, readsBack 0x00FFFFFF#32 0xAB#8, readsBack 0x03000103#32 0xFF#8, readsBack 0x03000201#32 0x11#8,
      readsBack 0x04000000#32 0x11#8, readsBack 0xFFFFFFFF#32 0x11#8] = [0#8, 0#8, 0#8, 0#8, 0#8, 0#8] := by decide

/-- M5, M6: a word that straddles joypad and APU window, and one that straddles APU window, bridge and nothing. -/
theorem test_bus_straddles : let s := State.reset.write32 0x030000FE#32 0x0301B8FF#32; let t := State.reset.write32 0x030001FE#32 0x5A5A5A5A#32
    s.joy = [(0xFE, 0xFF#8), (0xFF, 0xB8#8)] ∧ s.apu[0].freq = 0x0301#16 ∧ s.read32 0x030000FE#32 = 0x0000B8FF#32 ∧
    t = { State.reset with bridge := 0x5A#8 } ∧ t.read32 0x030001FE#32 = 0x005A0000#32 := by decide

/-- M1, M2, M7: the cartridge of S8 as the Bus reads it. -/
theorem test_cartridge : let s := State.boot Config.reference [0xB7#8, 0x50#8, 0x34#8, 0x12#8, 0x6F#8, 0#8, 0#8, 0#8]
    s.read32 0#32 = 0x123450B7#32 ∧ s.read32 2#32 = 0x006F1234#32 ∧ s.read32 8#32 = 0#32 ∧ s.read32 0xFFFFFFFE#32 = 0x50B70000#32 := by
  decide

/-- G1, G6, G10: a shallow line, a steep one to the left, an exact tie. -/
theorem test_line : linePoints (2, 1) (9, 4) = [(2, 1), (3, 1), (4, 2), (5, 2), (6, 3), (7, 3), (8, 4), (9, 4)] ∧
    linePoints (3, 0) (0, 7) = [(3, 0), (3, 1), (2, 2), (2, 3), (1, 4), (1, 5), (0, 6), (0, 7)] ∧
    linePoints (2, 1) (0, 0) = [(2, 1), (1, 0), (0, 0)] := by decide

/-- G8: only the on-screen points are written. -/
theorem test_line_clips : drawLine [] (158, 142) (161, 145) 7#32 = [(160 * 142 + 158, 7#32), (160 * 143 + 159, 7#32)] := by decide

/-- T2, T6: the spans of a general triangle and of a degenerate one. -/
theorem test_triangle : (triangleSpans (6, 6) (0, 4) (3, 0)).map (fun sp => (sp.xl, sp.xs, sp.y)) =
      [(3, 3, 0), (3, 2, 1), (4, 1, 2), (4, 0, 3), (5, 0, 4), (5, 3, 5), (6, 6, 6)] ∧
    (triangleSpans (5, 2) (1, 2) (9, 2)).map (fun sp => (sp.xl, sp.xs, sp.y)) = [(1, 9, 2)] := by decide

/-- R272's examples of a flat top and a flat bottom. -/
theorem test_triangle_flat : (triangleSpans (0, 0) (4, 0) (2, 3)).map (fun sp => (sp.xl, sp.xs, sp.y)) =
      [(0, 4, 0), (0, 3, 1), (1, 2, 2), (2, 2, 3)] ∧
    (triangleSpans (2, 0) (0, 3) (4, 3)).map (fun sp => (sp.xl, sp.xs, sp.y)) = [(2, 2, 0), (2, 1, 1), (3, 0, 2), (4, 0, 3)] := by decide

/-- A video memory with these words at these offsets. -/
def video (ws : List (Nat × Word)) : State := setUp [] (ws.map fun w => (BitVec.ofNat 32 (0x02000000 + w.1), w.2))

/-- F1: pixel (3, 2) of mode 0 is the word at offset 0x50C. -/
theorem test_mode0 : (video [(0x50C, 0xAABBCCDD#32)]).framebufferPixel (160 * 2 + 3) = 0xAABBCCDD#32 := by decide

/-- Tile 7 has pixel (7, 6) = 0x737, the map has tile 7 at entry (39, 29), and the scroll is (-1, -2), as in F4. -/
def scrolled : State := video [(0xFFFF00, 1#32), (0xFFFF04, 0xFFFFFFFF#32), (0xFFFF08, 0xFFFFFFFE#32), (0x7DC, 0x737#32), (0x80095E, 7#32)]

/-- F4: screen pixel (0, 0) is the plane pixel (319, 238). -/
theorem test_mode1 : scrolled.tilemapPixel 0 = 0x737#32 := by decide +kernel

/-- F3's last point: tile 0x8000 lies past TILE_AREA_END and reads as 0. -/
theorem test_mode1_past_tiles : let s := video [(0x800000, 5#32), (0x800054, 0x8000#32)]
    s.tileNumber 16 8 = 0x8000 ∧ s.planePixel 16 8 = 0#32 := by decide

/-- F8's line: vertices (-2, 3) and (3, 3), colour 9. -/
def armed : State := video [(0xFFFF00, 2#32), (0xFFFF10, 1#32), (0xFFFF14, 0x0003FFFE#32), (0xFFFF18, 0x00030003#32), (0xFFFF20, 9#32)]

/-- F8: the four on-screen pixels, and CMD cleared. -/
theorem test_mode2 : armed.render.fb = [(480, 9#32), (481, 9#32), (482, 9#32), (483, 9#32)] ∧ armed.render.cmdField = 0#32 ∧
    armed.render.vertex 0 = (-2, 3) := by decide +kernel

/-- F9: an unknown command draws nothing and is cleared. -/
theorem test_mode2_unknown : let s := video [(0xFFFF00, 2#32), (0xFFFF10, 7#32)]; s.render.fb = [] ∧ s.render.cmdField = 0#32 := by decide

/-- The reset machine after these writes to the APU window. -/
def sound (ws : List (Nat × Byte)) : State := ws.foldl (fun s w => s.write8 (BitVec.ofNat 32 (0x03000100 + w.1)) w.2) State.reset

/-- A2: a 12 kHz triangle; the fifth sample is made at phase 0 again. -/
theorem test_apu_triangle : let t := (sound [(8, 0xE0#8), (9, 0x2E#8), (11, 0xFF#8), (10, 0x05#8)]).generate 5
    t.apu[2] = ⟨true, .triangle, 12000#16, 255#8, 12000⟩ ∧
    t.out = [.samples ([0, 12000, 24000, 36000, 0].map fun p => [⟨.triangle, p, 255#8⟩])] := by decide

/-- A6: a CTRL write with bit 0 set resets the phase, one with bit 0 clear does not; 77/1200 is 3080/48000. -/
theorem test_apu_phase : let s := (sound [(0, 0xB8#8), (1, 0x01#8), (3, 0xFF#8), (2, 0x03#8)]).generate 7
    let t := s.write8 0x03000102#32 0x03#8; let u := (t.generate 7).write8 0x03000102#32 0x02#8
    s.apu[0].phase = 3080 ∧ t.apu[0].phase = 0 ∧ u.apu[0].phase = 3080 ∧ u.apu[0].en = false := by decide

/-- A5: a disabled channel contributes nothing and keeps its phase. -/
theorem test_apu_disabled : let t := (sound [(0, 0xB8#8), (1, 0x01#8), (3, 0xFF#8), (2, 0x02#8)]).generate 3
    t.out = [.samples [[], [], []]] ∧ t.apu[0].phase = 0 := by decide

/-- A5': so does a channel at frequency 0. -/
theorem test_apu_frequency_zero : let t := (sound [(3, 0xFF#8), (2, 0x01#8)]).generate 3
    t.out = [.samples [[], [], []]] ∧ t.apu[0].phase = 0 := by decide

/-- R80, R73: between the register writes of one store fall no pass, or any number of passes of any n, n = 0 too; each is a buffer of its
own, made from the channel as the writes before it have left it. -/
theorem test_apu_passes_between_writes :
    let s := { sound [(0, 0xB8#8), (3, 0xFF#8), (2, 0x03#8)] with audioTurns := [[], [0, 1], [], [2, 1]] }
    let t := s.write32 0x03000100#32 0x800301B8#32
    t.out = [.samples [], .samples [[⟨.sine, 0, 0xFF#8⟩]], .samples [[⟨.sine, 0, 0xFF#8⟩], [⟨.sine, 440, 0xFF#8⟩]],
      .samples [[⟨.sine, 880, 0xFF#8⟩]]] ∧ t.audioTurns = [] ∧ t.apu[0] = ⟨true, .sine, 440#16, 0x80#8, 1320⟩ := by decide

/-- 4.2: the input byte is in place before the frame's CPU steps. -/
theorem test_frame : let t := after { State.reset with agenda := [.frame 0x80#8] }
    t.joy = [(0, 0x80#8)] ∧ t.agenda.length = 21 ∧ t.agenda.head? = some .cpu ∧ t.agenda.getLast? = some .render := by decide

/-! ## Every hypothesis can be met: for each obligation with hypotheses, a state and operands, at the boundaries of its clauses -/

/-- A state that differs from reset in every kind of state a program or a pass can change, the host's schedule and log apart. -/
def busy : State := { setUp [(1#5, 0x01000010#32), (5#5, 0x80000000#32)] [(0x01000010#32, 0x80FF7F01#32), (0x02FFFF00#32, 2#32), (0x02FFFF10#32, 1#32)] with
  bridge := 7#8, joy := [(0, 3#8)], fb := [(5, 1#32)], apu := (sound [(0, 0xB8#8), (2, 3#8)]).apu }

/-- Every step answers a next state, the one `after` names. -/
theorem step_after (s : State) : step s = .next (after s) := by
  have : ∃ t, step s = .next t := by
    rcases step_cases s with ⟨-, h⟩ | ⟨r, -, h⟩ | ⟨a, r, -, -, h⟩
    · obtain ⟨t, ht, -⟩ := cpuStep_shape s
      exact ⟨t, h.trans ht⟩
    · obtain ⟨t, ht, -⟩ := cpuStep_shape { s with agenda := r }
      exact ⟨t, h.trans ht⟩
    · exact ⟨_, h⟩
  obtain ⟨t, ht⟩ := this
  unfold after
  rw [ht]

theorem busy_inv : busy.Inv := inv_of_check (by decide)

theorem witness_DecodeEncodeRoundTrip : (Instr.jal 1#5 (BitVec.ofInt 21 (-1048576))).wellFormed = true ∧
    (Instr.beq 1#5 2#5 4094#13).wellFormed = true ∧ (Instr.slli 5#5 1#5 31#5).wellFormed = true := by decide

theorem witness_DecodedWordIsItsEncoding : decode 0x0002B0E7#32 = some (.jalr 1#5 5#5 0#12) ∧ opcodeOf 0x0002B0E7#32 = 0x67#7 ∧
    decode 0x402081B3#32 = some (.sub 3#5 1#5 2#5) ∧ opcodeOf 0x402081B3#32 ≠ 0x67#7 := by decide

theorem witness_DecoderIsTheOpcodeTable : (∃ r ∈ opcodeTable, 0x402081B3#32 &&& r.mask = r.pattern) ∧
    (∃ r ∈ opcodeTable, 0x0002B0E7#32 &&& r.mask = r.pattern) ∧ decode 0x402081B3#32 = some (.sub 3#5 1#5 2#5) := by decide

theorem witness_StepRunsDecodedInstruction : let s := start 0#32 0x00108293 [(1#5, 1#32)] []
    let t := { s with agenda := [.cpu, .render] }
    decode s.fetch = some (.addi 5#5 1#5 1#12) ∧ s.agenda = [] ∧ decode t.fetch = some (.addi 5#5 1#5 1#12) ∧
      t.agenda = .cpu :: [.render] := by decide

theorem witness_UnrecognisedWordIsNoOp : let s := start 0x40#32 0x00000073 [(5#5, 0x77#32)] []
    let t := { s with agenda := [.cpu, .render] }
    (s.agenda = [] ∧ decode s.fetch = none) ∧ t.agenda = .cpu :: [.render] ∧ decode t.fetch = none := by decide

theorem witness_HostCallsAtTheStep : let f := fun a : Action => ({ busy with agenda := [a, .cpu] } : State).agenda
    f .render = .render :: [.cpu] ∧ f (.generate 0) = .generate 0 :: [.cpu] ∧ f (.write8 0xFFFFFFFF#32 1#8) = .write8 0xFFFFFFFF#32 1#8 :: [.cpu] ∧
    f (.write32 0xFFFFFFFF#32 1#32) = .write32 0xFFFFFFFF#32 1#32 :: [.cpu] ∧ f (.read8 0#32) = .read8 0#32 :: [.cpu] ∧
    f (.read32 0xFFFFFFFF#32) = .read32 0xFFFFFFFF#32 :: [.cpu] := by decide

theorem witness_RegisterZeroReadsZero : ∃ t, exec (.addi 0#5 5#5 1#12) busy = .next t :=
  (exec_shape _ busy).imp fun _ h => h.1

theorem witness_ResetMeetsInvariant : Config.reference.Valid := by decide

theorem witness_StepKeepsInvariant : busy.Inv ∧ (∃ t, step busy = .next t) ∧
    (∃ t, step { busy with agenda := [.render] } = .next t) ∧ (∃ t, step { busy with agenda := [.generate 2] } = .next t) :=
  ⟨busy_inv, ⟨_, step_after _⟩, ⟨_, step_after _⟩, ⟨_, step_after _⟩⟩

theorem witness_PcStaysEven : let s := { start 0x102#32 0xFE209CE3 [(1#5, 1#32)] [] with pc := 0x102#32 }
    s.pc.toNat % 2 = 0 ∧ step s = .next (after s) := ⟨by decide, step_after _⟩

theorem witness_RomIsReadOnly : let c := busy.cfg
    (c.romBase ≤ (0#32).toNat ∧ (0#32).toNat < c.romBase + arrayBytes) ∧
    (c.romBase ≤ (0x00FFFFFF#32).toNat ∧ (0x00FFFFFF#32).toNat < c.romBase + arrayBytes) ∧
    step busy = .next (after busy) := ⟨by decide, by decide, step_after _⟩

theorem witness_OnlyRenderPassesChangeTheFramebuffer : let s := { armed with agenda := [.render] }
    step s = .next (after s) ∧ (after s).fb ≠ s.fb := ⟨step_after _, by decide +kernel⟩

/-- A state a program cannot tell from s: framebuffer, channels, audio schedule and log are other ones. -/
def hidden (s : State) : State := { s with fb := [], apu := Vector.replicate 4 Channel.off, audioTurns := [[3, 0]], out := [.byteRead 1#8] }

theorem sameToProgram_hidden (s : State) : SameToProgram s (hidden s) := ⟨rfl, fun _ => rfl, rfl, rfl, rfl, rfl, rfl, rfl⟩

theorem witness_ProgramCannotSeeHiddenState : SameToProgram busy (hidden busy) ∧ (∃ t, cpuStep busy = .next t) ∧
    (∃ t, cpuStep (hidden busy) = .next t) ∧ busy.fb ≠ (hidden busy).fb ∧ busy.apu ≠ (hidden busy).apu :=
  ⟨sameToProgram_hidden busy, (cpuStep_shape _).imp fun _ h => h.1, (cpuStep_shape _).imp fun _ h => h.1, by decide,
    by decide⟩

theorem witness_Stores : busy.Inv ∧
    (let a := busy.effectiveAddress 1#5 4#12; a = 0x01000014#32 ∧ ∀ k < 4, isStorage (busy.region (a + BitVec.ofNat 32 k)) = true ∧
      isApu (busy.region (a + BitVec.ofNat 32 k)) = false) ∧
    (∀ k < 4, busy.region (0x03000100#32 + BitVec.ofNat 32 k) = .apu (0 + k)) ∧
    (∀ k < 4, busy.region (0x0300010E#32 + BitVec.ofNat 32 k) = .apu (14 + k)) ∧
    (∀ k < 1, busy.region (0x030001FF#32 + BitVec.ofNat 32 k) = .apu (255 + k)) := ⟨busy_inv, by decide⟩

theorem witness_ReadByteDispatch : busy.cfg.Valid ∧ (let c := busy.cfg
    (∀ n ∈ [0x00000000, 0x00FFFFFF], c.romBase ≤ n ∧ n < c.romBase + 0x1000000) ∧
    (∀ n ∈ [0x01000000, 0x01FFFFFF], c.ramBase ≤ n ∧ n < c.ramBase + 0x1000000) ∧
    (∀ n ∈ [0x02000000, 0x02FFFFFF], c.vramBase ≤ n ∧ n < c.vramBase + 0x1000000) ∧
    (∀ n ∈ [0x03000000, 0x030000FF], c.joyBase ≤ n ∧ n < c.joyBase + 0x100) ∧
    (∀ n ∈ [0x03000100, 0x030001FF], c.joyBase + 0x100 ≤ n ∧ n < c.joyBase + 0x200) ∧ 0x03000200 = c.bridgeAddr ∧
    (∀ n ∈ [0x03000201, 0xFFFFFFFF], ∀ w ∈ c.windows, n < w.1 ∨ w.1 + w.2 ≤ n)) := by decide

/-- The same ranges as `ReadByteDispatch`. -/
theorem witness_WriteByteDispatch : State.reset.cfg.Valid ∧
    (∀ w ∈ State.reset.cfg.windows, (0x03000201#32).toNat < w.1 ∨ w.1 + w.2 ≤ (0x03000201#32).toNat) ∧
    (0x03000200#32).toNat = State.reset.cfg.bridgeAddr := by decide

theorem witness_PlainStorageReadsBack : busy.Inv ∧ [0x01000000#32, 0x01FFFFFF#32, 0x02000000#32, 0x02FFFFFF#32, 0x03000000#32,
    0x030000FF#32, 0x03000200#32].all (fun a => isStorage (busy.region a)) = true ∧ busy.region 0x02FFFFFF#32 = .vram 0xFFFFFF ∧
    busy.region 0#32 = .rom 0 ∧ busy.region 0x030001FF#32 = .apu 255 ∧ 0x01000000#32 ≠ 0x01FFFFFF#32 := ⟨busy_inv, by decide⟩

theorem witness_UnmappedReadsZeroAndDropsWrites : busy.region 0x03000201#32 = .unmapped ∧ busy.region 0xFFFFFFFF#32 = .unmapped ∧
    busy.region 0x00FFFFFF#32 = .rom 0xFFFFFF ∧
    (let s := busy.setPc 0x04000000#32; ∀ k < 4, s.region (s.pc + BitVec.ofNat 32 k) = .unmapped) := by decide

theorem witness_ApuWindowDelegates : busy.region 0x03000100#32 = .apu 0 ∧ busy.region 0x030001FF#32 = .apu 255 := by decide

theorem witness_WordRoundTrip : busy.Inv ∧ (∀ k < 4, isStorage (busy.region (0x01000000#32 + BitVec.ofNat 32 k)) = true) ∧
    (∀ k < 4, isStorage (busy.region (0x01FFFFFE#32 + BitVec.ofNat 32 k)) = true) ∧
    (∀ k < 4, isStorage (busy.region (0x02FFFFFD#32 + BitVec.ofNat 32 k)) = true) ∧
    (∀ k < 4, busy.region (0x02FFFFFC#32 + BitVec.ofNat 32 k) = .vram (0xFFFFFC + k)) := ⟨busy_inv, by decide⟩

theorem witness_ControlFieldsAreVideoMemory : busy.cfg.Valid ∧ 0 + 4 ≤ arrayBytes ∧ (arrayBytes - 4) + 4 ≤ arrayBytes := by decide

theorem witness_FramebufferModeCopiesVideoMemory : (video [(0x50C, 1#32)]).vram.read32 State.reset.cfg.modeOff = 0#32 := by decide

theorem witness_TilemapModeShowsThePlane : scrolled.vram.read32 scrolled.cfg.modeOff = 1#32 ∧
    ((319 : Nat) : Int) = ((0 : Nat) + (scrolled.vram.read32 scrolled.cfg.scrollXOff).toInt) % 320 ∧
    ((238 : Nat) : Int) = ((0 : Nat) + (scrolled.vram.read32 scrolled.cfg.scrollYOff).toInt) % 240 := by decide +kernel

/-- Mode 2 with this command. -/
def commanded (c : Word) : State := video [(0xFFFF00, 2#32), (0xFFFF10, c)]

theorem witness_CommandModeDrawsOnePrimitive : [0#32, 1#32, 2#32, 3#32].map (fun c =>
      ((commanded c).vram.read32 (commanded c).cfg.modeOff, (commanded c).vram.read32 (commanded c).cfg.cmdOff)) =
    [(2#32, 0#32), (2#32, 1#32), (2#32, 2#32), (2#32, 3#32)] := by decide

theorem witness_CommandIsAcknowledged : busy.Inv ∧ busy.vram.read32 busy.cfg.modeOff = 2#32 ∧ busy.vram.read32 busy.cfg.cmdOff ≠ 0#32 ∧
    State.reset.vram.read32 State.reset.cfg.modeOff ≠ 2#32 ∧
    (let s := video [(0xFFFF00, 2#32)]; s.vram.read32 s.cfg.modeOff = 2#32 ∧ s.vram.read32 s.cfg.cmdOff = 0#32) := ⟨busy_inv, by decide⟩

theorem witness_EveryPassPresentsTheFramebuffer : let s := video [(0xFFFF00, 3#32)]
    (s.vram.read32 s.cfg.modeOff).toNat > 2 := by decide

theorem witness_LineTraceIsBresenham : (linePoints (2, 1) (9, 4))[5]? = some (7, 3) ∧ (linePoints (3, 0) (0, 7))[7]? = some (0, 7) ∧
    (linePoints (0, 0) (0, 0))[0]? = some (0, 0) := by decide

theorem witness_LineWritesItsTrace : Memory.wf screenPixels ([(5, 1#32)] : Memory 32) ∧
    (((159 : Nat) : Int), ((143 : Nat) : Int)) ∈ linePoints (158, 142) (161, 145) ∧
    (((0 : Nat) : Int), ((0 : Nat) : Int)) ∉ linePoints (158, 142) (161, 145) := by decide

theorem witness_TriangleFillsItsSpans : Memory.wf screenPixels ([(5, 1#32)] : Memory 32) ∧
    (∃ sp ∈ triangleSpans (3, 0) (0, 4) (6, 6), sp.y = ((4 : Nat) : Int) ∧ min sp.xl sp.xs ≤ ((0 : Nat) : Int) ∧
      ((0 : Nat) : Int) ≤ max sp.xl sp.xs) ∧
    ¬ (∃ sp ∈ triangleSpans (3, 0) (0, 4) (6, 6), sp.y = ((4 : Nat) : Int) ∧ min sp.xl sp.xs ≤ ((6 : Nat) : Int) ∧
      ((6 : Nat) : Int) ≤ max sp.xl sp.xs) := by decide

theorem witness_TriangleSpansFollowTheEdges : ((3, 0) : Point).2 < ((0, 4) : Point).2 ∧ ((0, 4) : Point).2 < ((6, 6) : Point).2 ∧
    List.Perm [((6, 6) : Point), (3, 0), (0, 4)] [(3, 0), (0, 4), (6, 6)] ∧
    (⟨5, 0, 4⟩ : Span) ∈ triangleSpans (3, 0) (0, 4) (6, 6) ∧
    [((6, 6) : Point), (3, 0), (0, 4)].insertionSort (fun p q => p.2 ≤ q.2) = [(3, 0), (0, 4), (6, 6)] ∧
    [((6, 6) : Point), (8, 0), (2, 0)].insertionSort (fun p q => p.2 ≤ q.2) = [(8, 0), (2, 0), (6, 6)] ∧
    [((8, 6) : Point), (4, 0), (2, 6)].insertionSort (fun p q => p.2 ≤ q.2) = [(4, 0), (8, 6), (2, 6)] ∧
    [((8, 6) : Point), (4, 6), (9, 6)].insertionSort (fun p q => p.2 ≤ q.2) = [(8, 6), (4, 6), (9, 6)] ∧
    ((3, 0) : Point).2 ≠ ((0, 4) : Point).2 := by decide

theorem witness_ApuRegisterWrites : (∀ c < 4, ∀ r < 4, 4 * c + r < 16) ∧ (∃ c < 4, ∃ r < 4, 4 * c + r = 0) ∧
    (∃ c < 4, ∃ r < 4, 4 * c + r = 15) ∧ 16 ≤ 16 ∧ 16 ≤ 255 ∧ busy.audioTurns = [] ∧
    (hidden busy).audioTurns = [3, 0] :: [] := by decide

theorem witness_StoreWordProgramsAChannel : let s := setUp [(1#5, 0x03000100#32), (2#5, 0xFF0301B8#32)] []
    s.Inv ∧ s.audioTurns = [] ∧ (s.effectiveAddress 1#5 0#12).toNat = s.cfg.joyBase + 0x100 + 4 * 0 ∧
      (s.effectiveAddress 1#5 12#12).toNat = s.cfg.joyBase + 0x100 + 4 * 3 :=
  ⟨inv_of_check (by decide), by decide, by decide, by decide⟩

theorem witness_PhaseAfterSamples : let s := sound [(0, 0xB8#8), (2, 3#8), (4, 0xB8#8), (10, 1#8)]
    (s.apu[0].en = true ∧ 0 < s.apu[0].freq.toNat) ∧ s.apu[1].en = false ∧ (s.apu[2].en = true ∧ s.apu[2].freq.toNat = 0) := by decide

theorem witness_GeneratePassMakesSamples : ∃ k n : Nat, k < n := ⟨6, 7, by decide⟩

theorem witness_FrameIsInputStepsRender : let s := { busy with agenda := [.frame 0x80#8, .generate 800] }
    s.Inv ∧ s.agenda = .frame 0x80#8 :: [.generate 800] := ⟨inv_of_check (by decide), rfl⟩

end Sys2Proof.Tests
end

section
/-! SUPPORT. The statements of 00_scope.md: the host's calls at the step, and the invariant at reset and over every step. -/

namespace Sys2Proof.Machine

/-! ## The step at a host call -/

/-- A listed call other than `step()` is performed on the state without it. -/
theorem step_of_hostCall {s : State} {a : Action} {rest : List Action} (h : s.agenda = a :: rest) (ha : a ≠ .cpu) :
    step s = .next (({ s with agenda := rest } : State).perform a) := by
  rcases step_cases s with ⟨hnil, -⟩ | ⟨r, hcpu, -⟩ | ⟨b, r, hcall, -, hstep⟩
  · simp [h] at hnil
  · rw [h] at hcpu
    exact absurd (List.cons.inj hcpu).1 ha
  · rw [h] at hcall
    obtain ⟨rfl, rfl⟩ := List.cons.inj hcall
    exact hstep

/-! ## The invariant at the start of a run -/

/-- With nothing loaded and parameters that meet R11 the invariant holds: every array is empty (R380). -/
theorem State.initial_inv {c : Config} (h : c.Valid) : (State.initial c).Inv where
  cfg := h
  zero := by simp [State.initial]
  rom := Memory.wf_nil _
  ram := Memory.wf_nil _
  vram := Memory.wf_nil _
  joy := Memory.wf_nil _
  fb := Memory.wf_nil _

/-! ## The invariant over a step -/

/-- The invariant does not speak of the host's schedule. -/
theorem State.Inv.withAgenda {s : State} (h : s.Inv) (l : List Action) : ({ s with agenda := l } : State).Inv :=
  ⟨h.cfg, h.zero, h.rom, h.ram, h.vram, h.joy, h.fb⟩

/-- The no-op of an unrecognised word keeps the invariant. -/
theorem State.Inv.advance {s : State} (h : s.Inv) : s.advance.Inv :=
  ⟨h.cfg, h.zero, h.rom, h.ram, h.vram, h.joy, h.fb⟩

/-- A CPU step keeps the invariant, whether the fetched word is recognised or not. -/
theorem cpuStep_inv {s t : State} (h : s.Inv) (ht : cpuStep s = .next t) : t.Inv := by
  obtain ⟨u, hu, hshape⟩ := cpuStep_shape s
  obtain rfl : t = u := Host.Outcome.next.inj (ht.symm.trans hu)
  rcases hshape with ⟨i, -, -, hi⟩ | ⟨-, rfl⟩
  · exact hi.inv h
  · exact h.advance

/-- Every step of every agent keeps the invariant. -/
theorem step_inv {s t : State} (h : s.Inv) (ht : step s = .next t) : t.Inv := by
  rcases step_cases s with ⟨-, hs⟩ | ⟨rest, -, hs⟩ | ⟨a, rest, -, -, hs⟩
  · exact cpuStep_inv h (hs.symm.trans ht)
  · exact cpuStep_inv (h.withAgenda rest) (hs.symm.trans ht)
  · obtain rfl := Host.Outcome.next.inj (hs.symm.trans ht)
    exact State.perform_inv (h.withAgenda rest) a

/-! ## The statements -/

/-- Settles O13: the step is a CPU step or a host call, and each keeps the invariant. -/
theorem stepKeepsInvariant : Obligations.StepKeepsInvariant :=
  fun _ _ => step_inv

/-- Settles O8: each clause is the step at a listed call, for one call. -/
theorem hostCallsAtTheStep : Obligations.HostCallsAtTheStep := by
  intro s rest
  refine ⟨?render, ?generate, ?write8, ?write32, ?read8, ?read32⟩
  case render => exact fun h => step_of_hostCall h nofun
  case generate => exact fun n h => step_of_hostCall h nofun
  case write8 => exact fun a v h => step_of_hostCall h nofun
  case write32 => exact fun a v h => step_of_hostCall h nofun
  case read8 => exact fun a h => step_of_hostCall h nofun
  case read32 => exact fun a h => step_of_hostCall h nofun

/-- Settles O12: the reference parameters meet R11, the arrays are empty at reset, and the cartridge load keeps the invariant. -/
theorem resetMeetsInvariant : Obligations.ResetMeetsInvariant :=
  ⟨State.initial_inv (by decide : Config.reference.Valid), fun _ image hc => State.loadRom_inv (State.initial_inv hc) image⟩

end Sys2Proof.Machine
end

section
/-! SUPPORT. The statements of 10_state.md: what a CPU step shows a program, the pc's evenness, who writes the framebuffer, the control
fields as video memory, register 0, the step and the state at reset. -/

namespace Sys2Proof

/-! ## Decoded instructions are well formed -/

theorem wellFormed_of_decodeBranch {w : Word} {i : Instr} (h : decodeBranch w = some i) : i.wellFormed = true := by
  unfold decodeBranch at h
  split_ifs at h <;> cases h <;> exact evenOffset_immBOf w

theorem wellFormed_of_decodeLoad {w : Word} {i : Instr} (h : decodeLoad w = some i) : i.wellFormed = true := by
  unfold decodeLoad at h
  split_ifs at h <;> cases h <;> rfl

theorem wellFormed_of_decodeStore {w : Word} {i : Instr} (h : decodeStore w = some i) : i.wellFormed = true := by
  unfold decodeStore at h
  split_ifs at h <;> cases h <;> rfl

theorem wellFormed_of_decodeOpImm {w : Word} {i : Instr} (h : decodeOpImm w = some i) : i.wellFormed = true := by
  unfold decodeOpImm at h
  split_ifs at h <;> cases h <;> rfl

theorem wellFormed_of_decodeOp {w : Word} {i : Instr} (h : decodeOp w = some i) : i.wellFormed = true := by
  unfold decodeOp decodeOpBase decodeOpAlt decodeMulDiv at h
  split_ifs at h <;> cases h <;> rfl

/-- The decoder makes even jump and branch offsets alone: bit 0 of immB and of immJ is 0 (R103). -/
theorem wellFormed_of_decode {w : Word} {i : Instr} (h : decode w = some i) : i.wellFormed = true := by
  unfold decode at h
  split_ifs at h
  · cases h; rfl
  · cases h; rfl
  · cases h; exact evenOffset_immJOf w
  · cases h; rfl
  · exact wellFormed_of_decodeBranch h
  · exact wellFormed_of_decodeLoad h
  · exact wellFormed_of_decodeStore h
  · exact wellFormed_of_decodeOpImm h
  · exact wellFormed_of_decodeOp h

/-! ## Even words -/

theorem evenOffset_iff_toNat_even {w : Nat} {x : BitVec w} : evenOffset x = true ↔ x.toNat % 2 = 0 :=
  ⟨toNat_even_of_evenOffset, evenOffset_of_toNat_even⟩

theorem evenOffset_add {a b : Word} (ha : evenOffset a = true) (hb : evenOffset b = true) : evenOffset (a + b) = true := by
  rw [evenOffset_iff_toNat_even] at *
  rw [BitVec.toNat_add]
  omega

theorem evenOffset_signExtend {w : Nat} {x : BitVec w} (hw : 0 < w) (hx : evenOffset x = true) :
    evenOffset (x.signExtend 32) = true := by
  rw [evenOffset, BitVec.getLsbD_signExtend, if_pos hw]
  exact hx

namespace Machine

/-! ## What a program can see -/

@[symm] theorem SameToProgram.symm {s t : State} (h : SameToProgram s t) : SameToProgram t s :=
  ⟨h.cfg.symm, fun r => (h.regs r).symm, h.pc.symm, h.rom.symm, h.ram.symm, h.vram.symm, h.joy.symm, h.bridge.symm⟩

@[trans] theorem SameToProgram.trans {s t u : State} (h : SameToProgram s t) (k : SameToProgram t u) : SameToProgram s u :=
  ⟨k.cfg.trans h.cfg, fun r => (k.regs r).trans (h.regs r), k.pc.trans h.pc, k.rom.trans h.rom, k.ram.trans h.ram,
    k.vram.trans h.vram, k.joy.trans h.joy, k.bridge.trans h.bridge⟩

/-- Writing an APU register, sample passes in front of it included, shows a program nothing (R64, R304). -/
theorem sameToProgram_apuWrite8 (s : State) (o : Nat) (v : Byte) : SameToProgram s (s.apuWrite8 o v) := by
  constructor <;> simp [State.reg_congr (State.apuWrite8_regs s o v)]

section Operands
variable {s t : State}

/-! What an instruction reads is the same in two states that look the same. -/

theorem SameToProgram.pc4 (h : SameToProgram s t) : t.pc4 = s.pc4 := by
  simp only [State.pc4, h.pc]

theorem SameToProgram.effectiveAddress (h : SameToProgram s t) (rs1 : RegIdx) (imm : BitVec 12) :
    t.effectiveAddress rs1 imm = s.effectiveAddress rs1 imm := by
  simp only [State.effectiveAddress, h.regs]

theorem SameToProgram.branchTarget (h : SameToProgram s t) (offset : BitVec 13) : t.branchTarget offset = s.branchTarget offset := by
  simp only [State.branchTarget, h.pc]

theorem SameToProgram.jumpTarget (h : SameToProgram s t) (offset : BitVec 21) : t.jumpTarget offset = s.jumpTarget offset := by
  simp only [State.jumpTarget, h.pc]

theorem SameToProgram.indirectTarget (h : SameToProgram s t) (rs1 : RegIdx) (imm : BitVec 12) :
    t.indirectTarget rs1 imm = s.indirectTarget rs1 imm := by
  simp only [State.indirectTarget, h.regs]

theorem SameToProgram.read8 (h : SameToProgram s t) (a : Word) : t.read8 a = s.read8 a :=
  State.read8_congr h.cfg h.rom h.ram h.vram h.joy h.bridge a

theorem SameToProgram.read16 (h : SameToProgram s t) (a : Word) : t.read16 a = s.read16 a := by
  simp only [State.read16, h.read8]

theorem SameToProgram.read32 (h : SameToProgram s t) (a : Word) : t.read32 a = s.read32 a := by
  simp only [State.read32, h.read8]

theorem SameToProgram.fetch (h : SameToProgram s t) : t.fetch = s.fetch := by
  simp only [State.fetch, h.pc, h.read32]

end Operands

section Updates
variable {s t : State}

/-! The same update of two states that look the same leaves two that look the same. -/

theorem SameToProgram.setPc (h : SameToProgram s t) {a b : Word} (hab : b = a) : SameToProgram (s.setPc a) (t.setPc b) :=
  ⟨h.cfg, h.regs, hab, h.rom, h.ram, h.vram, h.joy, h.bridge⟩

theorem SameToProgram.setReg (h : SameToProgram s t) (rd : RegIdx) {v w : Word} (hvw : w = v) :
    SameToProgram (s.setReg rd v) (t.setReg rd w) where
  cfg := by simpa using h.cfg
  regs r := by rw [State.reg_setReg, State.reg_setReg, h.regs, hvw]
  pc := by simpa using h.pc
  rom := by simpa using h.rom
  ram := by simpa using h.ram
  vram := by simpa using h.vram
  joy := by simpa using h.joy
  bridge := by simpa using h.bridge

theorem SameToProgram.advance (h : SameToProgram s t) : SameToProgram s.advance t.advance := h.setPc h.pc4

theorem SameToProgram.writeBack (h : SameToProgram s t) (rd : RegIdx) {v w : Word} (hvw : w = v) :
    SameToProgram (s.writeBack rd v) (t.writeBack rd w) := (h.setReg rd hvw).advance

theorem SameToProgram.linkTo (h : SameToProgram s t) (rd : RegIdx) {a b : Word} (hab : b = a) :
    SameToProgram (s.linkTo rd a) (t.linkTo rd b) := (h.setReg rd h.pc4).setPc hab

theorem SameToProgram.branchIf (h : SameToProgram s t) {taken taken' : Bool} (hc : taken' = taken) {a b : Word} (hab : b = a) :
    SameToProgram (s.branchIf taken a) (t.branchIf taken' b) := by
  subst hc
  cases taken' with
  | true => exact h.setPc hab
  | false => exact h.advance

/-- A byte write leads to the same cell of both; in the APU window it may change what is hidden, and only that. -/
theorem SameToProgram.write8 (h : SameToProgram s t) {a b : Word} (hab : b = a) {v w : Byte} (hvw : w = v) :
    SameToProgram (s.write8 a v) (t.write8 b w) := by
  subst hab hvw
  unfold State.write8
  rw [State.region_congr h.cfg]
  cases s.region b with
  | rom o => exact h
  | ram o => exact ⟨h.cfg, h.regs, h.pc, h.rom, congrArg (Memory.write · o w) h.ram, h.vram, h.joy, h.bridge⟩
  | vram o => exact ⟨h.cfg, h.regs, h.pc, h.rom, h.ram, congrArg (Memory.write · o w) h.vram, h.joy, h.bridge⟩
  | joy o => exact ⟨h.cfg, h.regs, h.pc, h.rom, h.ram, h.vram, congrArg (Memory.write · o w) h.joy, h.bridge⟩
  | apu o => exact ((sameToProgram_apuWrite8 s o w).symm.trans h).trans (sameToProgram_apuWrite8 t o w)
  | bridge => exact ⟨h.cfg, h.regs, h.pc, h.rom, h.ram, h.vram, h.joy, rfl⟩
  | unmapped => exact h

theorem SameToProgram.write16 (h : SameToProgram s t) {a b : Word} (hab : b = a) {v w : BitVec 16} (hvw : w = v) :
    SameToProgram (s.write16 a v) (t.write16 b w) := by
  subst hab hvw
  exact (h.write8 rfl rfl).write8 rfl rfl

theorem SameToProgram.write32 (h : SameToProgram s t) {a b v w : Word} (hab : b = a) (hvw : w = v) :
    SameToProgram (s.write32 a v) (t.write32 b w) := by
  subst hab hvw
  exact (((h.write8 rfl rfl).write8 rfl rfl).write8 rfl rfl).write8 rfl rfl

end Updates

/-- An instruction takes two states that look the same to two that look the same: its operands agree, and it ends in one update. -/
theorem exec_sameToProgram {s t : State} (h : SameToProgram s t) (i : Instr) :
    ∃ s' t', exec i s = .next s' ∧ exec i t = .next t' ∧ SameToProgram s' t' := by
  cases i with
  | lui rd imm => exact ⟨_, _, rfl, rfl, h.writeBack rd rfl⟩
  | auipc rd imm => exact ⟨_, _, rfl, rfl, h.writeBack rd (by rw [h.pc])⟩
  | jal rd offset => exact ⟨_, _, rfl, rfl, h.linkTo rd (h.jumpTarget offset)⟩
  | jalr rd rs1 imm => exact ⟨_, _, rfl, rfl, h.linkTo rd (h.indirectTarget rs1 imm)⟩
  | beq rs1 rs2 offset | bne rs1 rs2 offset | blt rs1 rs2 offset | bge rs1 rs2 offset | bltu rs1 rs2 offset | bgeu rs1 rs2 offset =>
    exact ⟨_, _, rfl, rfl, h.branchIf (by rw [h.regs, h.regs]) (h.branchTarget offset)⟩
  | lb rd rs1 imm | lbu rd rs1 imm => exact ⟨_, _, rfl, rfl, h.writeBack rd (by rw [h.effectiveAddress, h.read8])⟩
  | lh rd rs1 imm | lhu rd rs1 imm => exact ⟨_, _, rfl, rfl, h.writeBack rd (by rw [h.effectiveAddress, h.read16])⟩
  | lw rd rs1 imm => exact ⟨_, _, rfl, rfl, h.writeBack rd (by rw [h.effectiveAddress, h.read32])⟩
  | sb rs2 rs1 imm => exact ⟨_, _, rfl, rfl, (h.write8 (h.effectiveAddress rs1 imm) (by rw [h.regs])).advance⟩
  | sh rs2 rs1 imm => exact ⟨_, _, rfl, rfl, (h.write16 (h.effectiveAddress rs1 imm) (by rw [h.regs])).advance⟩
  | sw rs2 rs1 imm => exact ⟨_, _, rfl, rfl, (h.write32 (h.effectiveAddress rs1 imm) (h.regs rs2)).advance⟩
  | addi rd rs1 _ | slti rd rs1 _ | sltiu rd rs1 _ | xori rd rs1 _ | ori rd rs1 _ | andi rd rs1 _ | slli rd rs1 _ | srli rd rs1 _
  | srai rd rs1 _ => exact ⟨_, _, rfl, rfl, h.writeBack rd (by rw [h.regs])⟩
  | add rd rs1 rs2 | sub rd rs1 rs2 | sll rd rs1 rs2 | slt rd rs1 rs2 | sltu rd rs1 rs2 | xor rd rs1 rs2 | srl rd rs1 rs2
  | sra rd rs1 rs2 | or rd rs1 rs2 | and rd rs1 rs2 | mul rd rs1 rs2 | div rd rs1 rs2 | divu rd rs1 rs2 | rem rd rs1 rs2
  | remu rd rs1 rs2 => exact ⟨_, _, rfl, rfl, h.writeBack rd (by rw [h.regs, h.regs])⟩

/-- Two states that look the same fetch the same word, so a CPU step runs one instruction in both, or the no-op. -/
theorem cpuStep_sameToProgram {s t : State} (h : SameToProgram s t) :
    ∃ s' t', cpuStep s = .next s' ∧ cpuStep t = .next t' ∧ SameToProgram s' t' := by
  unfold cpuStep
  rw [h.fetch]
  cases decode s.fetch with
  | none => exact ⟨_, _, rfl, rfl, h.advance⟩
  | some i => exact exec_sameToProgram h i

/-! ## The pc -/

/-- A well-formed instruction leaves an even pc even: it goes on at pc + 4, at an even offset from pc, or where JALR has cleared bit 0. -/
theorem exec_even_pc {i : Instr} {s t : State} (hi : i.wellFormed = true) (hpc : evenOffset s.pc = true) (h : exec i s = .next t) :
    evenOffset t.pc = true := by
  have hnext : evenOffset s.pc4 = true := evenOffset_add hpc rfl
  cases i with
  | jal rd offset => cases h; exact evenOffset_add hpc (evenOffset_signExtend (by decide) hi)
  | jalr rd rs1 imm => cases h; simp [State.indirectTarget, evenOffset]
  | beq rs1 rs2 offset | bne rs1 rs2 offset | blt rs1 rs2 offset | bge rs1 rs2 offset | bltu rs1 rs2 offset | bgeu rs1 rs2 offset =>
    have target : evenOffset (s.branchTarget offset) = true := evenOffset_add hpc (evenOffset_signExtend (by decide) hi)
    cases h
    rw [State.branchIf_pc]
    split_ifs
    · exact target
    · exact hnext
  | sb _ _ _ | sh _ _ _ | sw _ _ _ => cases h; simpa [State.pc4] using hnext
  | _ => cases h; simpa using hnext

theorem cpuStep_even_pc {s t : State} (hpc : evenOffset s.pc = true) (h : cpuStep s = .next t) : evenOffset t.pc = true := by
  obtain ⟨u, hu, hshape⟩ := cpuStep_shape s
  obtain rfl : t = u := Host.Outcome.next.inj (h.symm.trans hu)
  rcases hshape with ⟨i, hdecode, hexec, -⟩ | ⟨-, rfl⟩
  · exact exec_even_pc (wellFormed_of_decode hdecode) hpc hexec
  · exact evenOffset_add hpc rfl

theorem step_even_pc {s t : State} (hpc : evenOffset s.pc = true) (h : step s = .next t) : evenOffset t.pc = true := by
  rcases step_cases s with ⟨-, hs⟩ | ⟨rest, -, hs⟩ | ⟨a, rest, -, -, hs⟩
  · exact cpuStep_even_pc hpc (hs.symm.trans h)
  · exact cpuStep_even_pc (s := { s with agenda := rest }) hpc (hs.symm.trans h)
  · obtain rfl := Host.Outcome.next.inj (hs.symm.trans h)
    obtain ⟨-, -, hkeep, -⟩ := State.perform_fields { s with agenda := rest } a
    rw [hkeep]
    exact hpc

/-! ## The framebuffer -/

/-- No CPU step writes the framebuffer (R40). -/
theorem cpuStep_fb {s t : State} (h : cpuStep s = .next t) : t.fb = s.fb := by
  obtain ⟨u, hu, hshape⟩ := cpuStep_shape s
  obtain rfl : t = u := Host.Outcome.next.inj (h.symm.trans hu)
  rcases hshape with ⟨-, -, -, hi⟩ | ⟨-, rfl⟩
  · obtain ⟨-, -, hfb, -⟩ := hi.fields
    exact hfb
  · rfl

/-- No host call but a render pass writes the framebuffer (R40). -/
theorem State.perform_fb (s : State) {a : Action} (ha : a ≠ .render) : (s.perform a).fb = s.fb := by
  cases a with
  | render => exact absurd rfl ha
  | write8 addr v => exact State.write8_fb s addr v
  | write32 addr v => exact State.write32_fb s addr v
  | frame input => exact State.write8_fb s s.inputAddr input
  | cpu | generate _ | read8 _ | read32 _ => rfl

/-! ## Video memory on the Bus -/

/-- A byte of VRAM is read at its offset from VRAM_BASE (R31, R60). -/
theorem State.read8_vram {s : State} (hc : s.cfg.Valid) {o : Nat} (ho : o < arrayBytes) :
    s.read8 (BitVec.ofNat 32 (s.cfg.vramBase + o)) = s.vram.read o := by
  have ⟨_, hbound, _⟩ := hc
  have htop : s.cfg.vramBase + arrayBytes ≤ 2 ^ 32 := hbound (s.cfg.vramBase, arrayBytes) (by simp [Config.windows])
  have haddr : (BitVec.ofNat 32 (s.cfg.vramBase + o)).toNat = s.cfg.vramBase + o := by
    rw [BitVec.toNat_ofNat, Nat.mod_eq_of_lt (by omega)]
  obtain ⟨-, -, hvram, -⟩ := regionAt_of_valid hc (s.cfg.vramBase + o)
  have hregion : s.region (BitVec.ofNat 32 (s.cfg.vramBase + o)) = .vram o := by
    rw [State.region, haddr, hvram (Nat.le_add_right _ _) (Nat.add_lt_add_left ho _), Nat.add_sub_cancel_left]
  rw [State.read8, hregion]
  rfl

/-! ## Completion, and the step at a CPU call -/

theorem exec_completes (i : Instr) (s : State) : ∃ t, exec i s = .next t := by
  obtain ⟨t, ht, -⟩ := exec_shape i s
  exact ⟨t, ht⟩

theorem cpuStep_completes (s : State) : ∃ t, cpuStep s = .next t := by
  obtain ⟨t, ht, -⟩ := cpuStep_shape s
  exact ⟨t, ht⟩

theorem step_completes (s : State) : ∃ t, step s = .next t := by
  rcases step_cases s with ⟨-, hs⟩ | ⟨rest, -, hs⟩ | ⟨a, rest, -, -, hs⟩ <;> rw [hs]
  · exact cpuStep_completes s
  · exact cpuStep_completes _
  · exact ⟨_, rfl⟩

theorem cpuStep_of_decode {s : State} {i : Instr} (h : decode s.fetch = some i) : cpuStep s = exec i s := by
  unfold cpuStep
  rw [h]

/-- With no host call waiting a step is a CPU step. -/
theorem step_of_agenda_nil {s : State} (h : s.agenda = []) : step s = cpuStep s := by
  unfold step
  rw [h]

/-- A listed `step()` is a CPU step on the state without it. -/
theorem step_of_agenda_cpu {s : State} {rest : List Action} (h : s.agenda = .cpu :: rest) :
    step s = cpuStep { s with agenda := rest } := by
  unfold step
  rw [h]

/-! ## Register 0 -/

/-- A jump that links to register 0 changes the pc alone. -/
theorem onlyGoesTo_of_linkTo_zero {i : Instr} {s : State} {target : Word} (h : exec i s = .next (s.linkTo 0#5 target)) :
    OnlyGoesTo i s target :=
  ⟨_, h, State.linkTo_pc s 0#5 target, fun _ => rfl, State.read8_linkTo s 0#5 target, sameBeyondCpu_linkTo s 0#5 target⟩

/-! ## Reset -/

@[simp] theorem State.reg_boot (c : Config) (image : List Byte) (r : RegIdx) : (State.boot c image).reg r = 0#32 := by
  simp [State.reg, State.boot, State.loadRom, State.initial]

/-- Every channel is off after reset (R380). -/
theorem State.boot_apu_get (c : Config) (image : List Byte) (k : Fin 4) : (State.boot c image).apu[k] = Channel.off := by
  simp [State.boot, State.loadRom, State.initial]

/-! ## The statements -/

/-- Settles O17: a CPU step of two states that look the same to a program leaves two that do. -/
theorem programCannotSeeHiddenState : Obligations.ProgramCannotSeeHiddenState := by
  intro s t s' t' h hs ht
  obtain ⟨u, v, hu, hv, huv⟩ := cpuStep_sameToProgram h
  obtain rfl := Host.Outcome.next.inj (hs.symm.trans hu)
  obtain rfl := Host.Outcome.next.inj (ht.symm.trans hv)
  exact huv

/-- Settles O14: what is decoded is well formed, and a host call keeps the pc. -/
theorem pcStaysEven : Obligations.PcStaysEven :=
  fun _ _ hpc h => toNat_even_of_evenOffset (step_even_pc (evenOffset_of_toNat_even hpc) h)

/-- Settles O16: neither a CPU step nor another host call writes the framebuffer. -/
theorem onlyRenderPassesChangeTheFramebuffer : Obligations.OnlyRenderPassesChangeTheFramebuffer := by
  intro s t ht hfb
  rcases step_cases s with ⟨-, hs⟩ | ⟨rest, -, hs⟩ | ⟨a, rest, hcall, -, hs⟩
  · exact absurd (cpuStep_fb (hs.symm.trans ht)) hfb
  · exact absurd (cpuStep_fb (hs.symm.trans ht)) hfb
  · obtain rfl := Host.Outcome.next.inj (hs.symm.trans ht)
    by_cases ha : a = .render
    · exact ⟨rest, ha ▸ hcall⟩
    · exact absurd (State.perform_fb _ ha) hfb

/-- Settles O44: the word's four bytes are each the byte of VRAM at that offset. -/
theorem controlFieldsAreVideoMemory : Obligations.ControlFieldsAreVideoMemory := by
  intro s o hc ho
  have byte (k : Nat) (hk : k < 4) :
      s.read8 (BitVec.ofNat 32 (s.cfg.vramBase + o) + BitVec.ofNat 32 k) = s.vram.read (o + k) := by
    rw [← BitVec.ofNat_add, Nat.add_assoc]
    exact State.read8_vram hc (by omega)
  rw [State.read32, Memory.read32, ← byte 1 (by decide), ← byte 2 (by decide), ← byte 3 (by decide), State.read8_vram hc (by omega)]
  rfl

/-- Settles O7: a CPU step runs the decoded instruction, and the schedule is no part of what it fetches. -/
theorem stepRunsDecodedInstruction : Obligations.StepRunsDecodedInstruction :=
  fun s _ hi => ⟨fun h => (step_of_agenda_nil h).trans (cpuStep_of_decode hi),
    fun rest h => (step_of_agenda_cpu h).trans (cpuStep_of_decode (s := { s with agenda := rest }) hi)⟩

/-- Settles O10: instructions, the no-op and host calls all answer a next state. -/
theorem everyStepCompletes : Obligations.EveryStepCompletes :=
  ⟨step_completes, exec_completes⟩

/-- Settles O11: register 0 is 0 by the way registers are read, and a jump that links to it goes to its target alone. -/
theorem registerZeroReadsZero : Obligations.RegisterZeroReadsZero :=
  ⟨State.reg_zero, fun _ _ t _ => State.reg_zero t, fun _ _ => rfl, fun _ _ => onlyGoesTo_of_linkTo_zero rfl,
    fun _ _ _ => onlyGoesTo_of_linkTo_zero rfl⟩

/-- Settles O18: the cartridge load touches ROM alone, and an empty array reads 0. -/
theorem resetState : Obligations.ResetState := by
  intro c image
  exact ⟨State.reg_boot c image, rfl, fun o => ⟨rfl, rfl, rfl, rfl⟩, rfl, State.boot_apu_get c image, rfl, rfl⟩

end Machine

end Sys2Proof
end

section
/-! SUPPORT. The statements of 20_memory.md: the byte operations window by window, ROM as read-only, plain storage, and words in
little-endian order. -/

namespace Sys2Proof.Machine

/-! ## The byte operations at a known region -/

section Region
variable {s : State} {a : Word} {r : Region}

theorem State.read8_of_region (h : s.region a = r) : s.read8 a = s.readAt r :=
  congrArg s.readAt h

theorem State.write8_of_region (h : s.region a = r) (v : Byte) : s.write8 a v = s.writeAt r v :=
  congrArg (s.writeAt · v) h

end Region

/-- The ROM window is tested first, so it decides for any parameters (R60). -/
theorem State.region_of_rom {s : State} {a : Word} (hlo : s.cfg.romBase ≤ a.toNat) (hhi : a.toNat < s.cfg.romBase + arrayBytes) :
    s.region a = .rom (a.toNat - s.cfg.romBase) :=
  if_pos ⟨hlo, hhi⟩

/-! ## ROM and the parameters over a step -/

/-- No CPU step writes ROM or the parameters (R62). -/
theorem cpuStep_rom_cfg {s t : State} (h : cpuStep s = .next t) : t.rom = s.rom ∧ t.cfg = s.cfg := by
  obtain ⟨u, hu, hshape⟩ := cpuStep_shape s
  obtain rfl : t = u := Host.Outcome.next.inj (h.symm.trans hu)
  rcases hshape with ⟨-, -, -, hi⟩ | ⟨-, rfl⟩
  · obtain ⟨hcfg, hrom, -⟩ := hi.fields
    exact ⟨hrom, hcfg⟩
  · exact ⟨rfl, rfl⟩

/-- No step of any agent writes ROM or the parameters (R62). -/
theorem step_rom_cfg {s t : State} (h : step s = .next t) : t.rom = s.rom ∧ t.cfg = s.cfg := by
  rcases step_cases s with ⟨-, hs⟩ | ⟨rest, -, hs⟩ | ⟨a, rest, -, -, hs⟩
  · exact cpuStep_rom_cfg (hs.symm.trans h)
  · exact cpuStep_rom_cfg (s := { s with agenda := rest }) (hs.symm.trans h)
  · obtain rfl := Host.Outcome.next.inj (hs.symm.trans h)
    obtain ⟨hcfg, -, -, hrom⟩ := State.perform_fields { s with agenda := rest } a
    exact ⟨hrom, hcfg⟩

/-! ## Words -/

@[simp] theorem State.region_write32 (s : State) (a v b : Word) : (s.write32 a v).region b = s.region b :=
  State.region_congr (State.write32_cfg s a v) b

theorem State.fetch_setPc (s : State) (a : Word) : (s.setPc a).fetch = s.read32 a := rfl

/-- Four bytes that read 0 are the word 0. -/
theorem State.read32_eq_zero {s : State} {a : Word} (h : ∀ k < 4, s.read8 (a + BitVec.ofNat 32 k) = 0#8) : s.read32 a = 0#32 := by
  have hbyte (k : Nat) (hk : k < 4) : (s.read8 (a + BitVec.ofNat 32 k)).toNat = 0 := congrArg BitVec.toNat (h k hk)
  apply BitVec.eq_of_toNat_eq
  rw [State.read32_toNat, hbyte 1 (by decide), hbyte 2 (by decide), hbyte 3 (by decide)]
  simpa using hbyte 0 (by decide)

/-- Where four addresses lead to four bytes of VRAM in a row, the Bus reads the GPU's word (R31, R68). -/
theorem State.read32_of_vram {s : State} {a : Word} {o : Nat} (h : ∀ k < 4, s.region (a + BitVec.ofNat 32 k) = .vram (o + k)) :
    s.read32 a = s.vram.read32 o := by
  have hbyte (k : Nat) (hk : k < 4) : s.read8 (a + BitVec.ofNat 32 k) = s.vram.read (o + k) := State.read8_of_region (h k hk)
  rw [Memory.read32, ← hbyte 1 (by decide), ← hbyte 2 (by decide), ← hbyte 3 (by decide), ← Nat.add_zero o, ← hbyte 0 (by decide),
    BitVec.add_zero]
  rfl

section WordWritten
variable {s : State} {a : Word} (v : Word) (hs : s.Inv) (hst : ∀ k < 4, isStorage (s.region (a + BitVec.ofNat 32 k)) = true)
include hs hst

/-- Each byte of a word written to plain storage is that base-256 digit of the word, the least significant at the lowest address (R68). -/
theorem State.read8_write32_toNat (k : Nat) (hk : k < 4) :
    ((s.write32 a v).read8 (a + BitVec.ofNat 32 k)).toNat = v.toNat / 2 ^ (8 * k) % 256 := by
  obtain ⟨-, hread, -⟩ := State.writeFrom_law hs a (fun k => v.extractLsb' (8 * k) 8) 4 (Nat.le_refl 4)
  rw [State.write32_eq, hread k hk (hst k hk)]
  exact toNat_field v (8 * k) 8

/-- A halfword inside a word written to plain storage is two neighbouring digits, low byte first (R66, R68). -/
theorem State.read16_write32_toNat (k : Nat) (hk : k < 3) :
    ((s.write32 a v).read16 (a + BitVec.ofNat 32 k)).toNat = v.toNat / 2 ^ (8 * k) % 65536 := by
  have hnext : a + BitVec.ofNat 32 k + 1#32 = a + BitVec.ofNat 32 (k + 1) := by rw [BitVec.add_assoc, ← BitVec.ofNat_add]
  have hdiv : v.toNat / 2 ^ (8 * (k + 1)) = v.toNat / 2 ^ (8 * k) / 256 := by
    rw [Nat.div_div_eq_div_mul, Nat.mul_succ, Nat.pow_add]
  rw [State.read16_toNat, hnext, State.read8_write32_toNat v hs hst k (by omega),
    State.read8_write32_toNat v hs hst (k + 1) (by omega), hdiv]
  omega

/-- A word written to plain storage reads back: it is the sum of its digits (R68). -/
theorem State.read32_write32 : (s.write32 a v).read32 a = v := by
  have byte0 : ((s.write32 a v).read8 a).toNat = v.toNat % 256 := by
    simpa using State.read8_write32_toNat v hs hst 0 (by decide)
  apply BitVec.eq_of_toNat_eq
  rw [State.read32_toNat, byte0, State.read8_write32_toNat v hs hst 1 (by decide), State.read8_write32_toNat v hs hst 2 (by decide),
    State.read8_write32_toNat v hs hst 3 (by decide)]
  have := v.isLt
  omega

end WordWritten

/-! ## The statements -/

/-- Settles O15: a ROM address leads to a cell whose writes are dropped, and neither a CPU step nor a host call writes ROM. -/
theorem romIsReadOnly : Obligations.RomIsReadOnly :=
  ⟨fun _ _ v hlo hhi => State.write8_of_region (State.region_of_rom hlo hhi) v, fun _ _ => step_rom_cfg⟩

/-- Settles O38: the window decides the region, and the region the cell that is read. -/
theorem readByteDispatch : Obligations.ReadByteDispatch := by
  intro s a hc
  obtain ⟨hrom, hram, hvram, hjoy, hapu, hbridge, hnone⟩ := regionAt_of_valid hc a.toNat
  exact ⟨fun lo hi => State.read8_of_region (hrom lo hi), fun lo hi => State.read8_of_region (hram lo hi),
    fun lo hi => State.read8_of_region (hvram lo hi), fun lo hi => State.read8_of_region (hjoy lo hi),
    fun lo hi => State.read8_of_region (hapu lo hi), fun eq => State.read8_of_region (hbridge eq),
    fun out => State.read8_of_region (hnone out)⟩

/-- Settles O39: the window decides the region, and the region what is written. -/
theorem writeByteDispatch : Obligations.WriteByteDispatch := by
  intro s a v hc
  obtain ⟨hrom, hram, hvram, hjoy, hapu, hbridge, hnone⟩ := regionAt_of_valid hc a.toNat
  exact ⟨fun lo hi => State.write8_of_region (hrom lo hi) v, fun lo hi => State.write8_of_region (hram lo hi) v,
    fun lo hi => State.write8_of_region (hvram lo hi) v, fun lo hi => State.write8_of_region (hjoy lo hi) v,
    fun lo hi => State.write8_of_region (hapu lo hi) v, fun eq => State.write8_of_region (hbridge eq) v,
    fun out => State.write8_of_region (hnone out) v⟩

/-- Settles O42: the region of the APU window has no cell of its own. -/
theorem apuWindowDelegates : Obligations.ApuWindowDelegates :=
  fun _ _ _ v h => ⟨State.read8_of_region h, State.write8_of_region h v⟩

/-- Settles O40: a byte written changes the one cell its address leads to, if that has a cell. -/
theorem plainStorageReadsBack : Obligations.PlainStorageReadsBack := by
  intro s a v hs
  refine ⟨State.read8_write8_same hs v, fun b => State.read8_write8_other s v, ?vram, ?rom, ?apu⟩
  case vram =>
    intro o h
    rw [State.write8_of_region h]
    exact Memory.read_write_same o v hs.vram
  case rom =>
    intro o h
    rw [State.write8_of_region h]
    rfl
  case apu =>
    intro o h
    exact State.read8_of_region ((State.region_write8 s a v a).trans h)

/-- Settles O41: an unmapped address has no cell, a ROM cell takes no write, and a fetch is four byte reads. -/
theorem unmappedReadsZeroAndDropsWrites : Obligations.UnmappedReadsZeroAndDropsWrites := by
  intro s
  refine ⟨?data, ?rom, ?fetch⟩
  case data => exact fun a v h => ⟨State.read8_of_region h, State.write8_of_region h v⟩
  case rom => exact fun a v o h => State.write8_of_region h v
  case fetch => exact fun h => State.read32_eq_zero fun k hk => State.read8_of_region (h k hk)

/-- Settles O43: the bytes of the word are its digits in base 256, every wider read is made of them, and a fetch is a word read. -/
theorem wordRoundTrip : Obligations.WordRoundTrip := by
  intro s a v hs hst t
  have hbyte := State.read8_write32_toNat v hs hst
  have hhalf := State.read16_write32_toNat v hs hst
  have hword : t.read32 a = v := State.read32_write32 v hs hst
  refine ⟨hword, ?byte0, hbyte 1 (by decide), ?half0, hhalf 1 (by decide), ?half2, ?fetch, ?vram⟩
  case byte0 => simpa using hbyte 0 (by decide)
  case half0 => simpa using hhalf 0 (by decide)
  case half2 => exact (hhalf 2 (by decide)).trans (Nat.mod_eq_of_lt (by have := v.isLt; omega))
  case fetch => exact (State.fetch_setPc t a).trans hword
  case vram =>
    intro o h
    have hregion (k : Nat) (hk : k < 4) : t.region (a + BitVec.ofNat 32 k) = .vram (o + k) :=
      (State.region_write32 s a v _).trans (h k hk)
    rw [← State.read32_of_vram hregion, hword]

end Sys2Proof.Machine
end

section
/-! SUPPORT. The statements of 30_encoding.md: both round trips, the decoder as the opcode table, the immediates, and the words the
decoder rejects. -/

namespace Sys2Proof

/-! ## The decoder by opcode -/

/-- What the opcode alone decides (R105, R106): the answer, or the class that goes on to f3 and f7. -/
inductive DecodeClass (w : Word) : Option Instr → Prop
  | lui (hop : opcodeOf w = 0x37#7) : DecodeClass w (some (.lui (rdOf w) (immUOf w)))
  | auipc (hop : opcodeOf w = 0x17#7) : DecodeClass w (some (.auipc (rdOf w) (immUOf w)))
  | jal (hop : opcodeOf w = 0x6F#7) : DecodeClass w (some (.jal (rdOf w) (immJOf w)))
  | jalr (hop : opcodeOf w = 0x67#7) : DecodeClass w (some (.jalr (rdOf w) (rs1Of w) (immIOf w)))
  | branch (hop : opcodeOf w = 0x63#7) : DecodeClass w (decodeBranch w)
  | load (hop : opcodeOf w = 0x03#7) : DecodeClass w (decodeLoad w)
  | store (hop : opcodeOf w = 0x23#7) : DecodeClass w (decodeStore w)
  | opImm (hop : opcodeOf w = 0x13#7) : DecodeClass w (decodeOpImm w)
  | op (hop : opcodeOf w = 0x33#7) : DecodeClass w (decodeOp w)
  | unlisted (hop : opcodeOf w ∉ [0x37#7, 0x17#7, 0x6F#7, 0x67#7, 0x63#7, 0x03#7, 0x23#7, 0x13#7, 0x33#7]) : DecodeClass w none

/-- Every word is in one of the classes of R105. -/
theorem decode_class (w : Word) : DecodeClass w (decode w) := by
  unfold decode
  split_ifs with h1 h2 h3 h4 h5 h6 h7 h8 h9
  · exact .lui h1
  · exact .auipc h2
  · exact .jal h3
  · exact .jalr h4
  · exact .branch h5
  · exact .load h6
  · exact .store h7
  · exact .opImm h8
  · exact .op h9
  · exact .unlisted (by simp [h1, h2, h3, h4, h5, h6, h7, h8, h9])

/-! ## Decoding an encoded instruction, class by class -/

/-- The decoder reads back the codes an arrangement was given, and with them every operand; the offsets of jumps and branches come back
because they are even. -/
theorem decode_encode {i : Instr} (h : i.wellFormed = true) : decode (encode i) = some i := by
  cases i with
  | lui rd imm | auipc rd imm => simp [encode, decode]
  | jal rd offset => simp [encode, decode, immJOf_encodeJ h]
  | jalr rd rs1 imm => simp [encode, decode]
  | beq rs1 rs2 offset | bne rs1 rs2 offset | blt rs1 rs2 offset | bge rs1 rs2 offset | bltu rs1 rs2 offset | bgeu rs1 rs2 offset =>
    simp [encode, decode, decodeBranch, immBOf_encodeB h]
  | lb rd rs1 imm | lh rd rs1 imm | lw rd rs1 imm | lbu rd rs1 imm | lhu rd rs1 imm => simp [encode, decode, decodeLoad]
  | sb rs2 rs1 imm | sh rs2 rs1 imm | sw rs2 rs1 imm => simp [encode, decode, decodeStore]
  | addi rd rs1 imm | slti rd rs1 imm | sltiu rd rs1 imm | xori rd rs1 imm | ori rd rs1 imm | andi rd rs1 imm
  | slli rd rs1 shamt | srli rd rs1 shamt | srai rd rs1 shamt => simp [encode, decode, decodeOpImm]
  | add rd rs1 rs2 | sll rd rs1 rs2 | slt rd rs1 rs2 | sltu rd rs1 rs2 | xor rd rs1 rs2 | srl rd rs1 rs2 | or rd rs1 rs2
  | and rd rs1 rs2 => simp [encode, decode, decodeOp, decodeOpBase]
  | sub rd rs1 rs2 | sra rd rs1 rs2 => simp [encode, decode, decodeOp, decodeOpAlt]
  | mul rd rs1 rs2 | div rd rs1 rs2 | divu rd rs1 rs2 | rem rd rs1 rs2 | remu rd rs1 rs2 =>
    simp [encode, decode, decodeOp, decodeMulDiv]

/-! ## What each class rejects -/

theorem f3_cases (x : BitVec 3) : x = 0#3 ∨ x = 1#3 ∨ x = 2#3 ∨ x = 3#3 ∨ x = 4#3 ∨ x = 5#3 ∨ x = 6#3 ∨ x = 7#3 := by
  revert x
  decide

theorem decodeBranch_eq_none_iff {w : Word} : decodeBranch w = none ↔ f3Of w ∈ [2#3, 3#3] := by
  rcases f3_cases (f3Of w) with h | h | h | h | h | h | h | h <;> simp [decodeBranch, h]

theorem decodeLoad_eq_none_iff {w : Word} : decodeLoad w = none ↔ f3Of w ∈ [3#3, 6#3, 7#3] := by
  rcases f3_cases (f3Of w) with h | h | h | h | h | h | h | h <;> simp [decodeLoad, h]

theorem decodeStore_eq_none_iff {w : Word} : decodeStore w = none ↔ f3Of w ∈ [3#3, 4#3, 5#3, 6#3, 7#3] := by
  rcases f3_cases (f3Of w) with h | h | h | h | h | h | h | h <;> simp [decodeStore, h]

/-- Only the shifts read f7 (R109). -/
theorem decodeOpImm_eq_none_iff {w : Word} :
    decodeOpImm w = none ↔ f3Of w = 1#3 ∧ f7Of w ≠ 0x00#7 ∨ f3Of w = 5#3 ∧ f7Of w ∉ [0x00#7, 0x20#7] := by
  rcases f3_cases (f3Of w) with h | h | h | h | h | h | h | h <;> simp [decodeOpImm, h, ite_eq_iff]

theorem decodeOpBase_ne_none (w : Word) : decodeOpBase w ≠ none := by
  unfold decodeOpBase
  split_ifs <;> exact Option.some_ne_none _

theorem decodeOpAlt_eq_none_iff {w : Word} : decodeOpAlt w = none ↔ f3Of w ∉ [0#3, 5#3] := by
  rcases f3_cases (f3Of w) with h | h | h | h | h | h | h | h <;> simp [decodeOpAlt, h]

theorem decodeMulDiv_eq_none_iff {w : Word} : decodeMulDiv w = none ↔ f3Of w ∈ [1#3, 2#3, 3#3] := by
  rcases f3_cases (f3Of w) with h | h | h | h | h | h | h | h <;> simp [decodeMulDiv, h]

theorem decodeOp_eq_none_iff {w : Word} :
    decodeOp w = none ↔ f7Of w ∉ [0x00#7, 0x20#7, 0x01#7] ∨ f7Of w = 0x20#7 ∧ f3Of w ∉ [0#3, 5#3] ∨
      f7Of w = 0x01#7 ∧ f3Of w ∈ [1#3, 2#3, 3#3] := by
  unfold decodeOp
  split_ifs with base alt muldiv
  · simp [decodeOpBase_ne_none, base]
  · simp [decodeOpAlt_eq_none_iff, alt]
  · simp [decodeMulDiv_eq_none_iff, muldiv]
  · simp [base, alt, muldiv]

/-! ## A word with known codes is made of those and its other fields -/

section Refold
variable {w : Word} {op : BitVec 7} {f3 : BitVec 3} {f7 : BitVec 7}

theorem encodeR_of_fields (hop : opcodeOf w = op) (hf3 : f3Of w = f3) (hf7 : f7Of w = f7) :
    encodeR f7 (rs2Of w) (rs1Of w) f3 (rdOf w) op = w := by
  subst hop hf3 hf7
  exact encodeR_fields w

theorem encodeI_of_fields (hop : opcodeOf w = op) (hf3 : f3Of w = f3) : encodeI (immIOf w) (rs1Of w) f3 (rdOf w) op = w := by
  subst hop hf3
  exact encodeI_fields w

theorem encodeS_of_fields (hop : opcodeOf w = op) (hf3 : f3Of w = f3) : encodeS (immSOf w) (rs2Of w) (rs1Of w) f3 op = w := by
  subst hop hf3
  exact encodeS_fields w

theorem encodeB_of_fields (hop : opcodeOf w = op) (hf3 : f3Of w = f3) : encodeB (immBOf w) (rs2Of w) (rs1Of w) f3 op = w := by
  subst hop hf3
  exact encodeB_fields w

theorem encodeU_of_fields (hop : opcodeOf w = op) : encodeU (immUOf w) (rdOf w) op = w := by
  subst hop
  exact encodeU_fields w

theorem encodeJ_of_fields (hop : opcodeOf w = op) : encodeJ (immJOf w) (rdOf w) op = w := by
  subst hop
  exact encodeJ_fields w

end Refold

/-- JALR's canonical form (R106, D12). -/
theorem encodeI_f3_zero (w : Word) : encodeI (immIOf w) (rs1Of w) 0#3 (rdOf w) (opcodeOf w) = w &&& 0xFFFF8FFF#32 := by
  have hmask : (0xFFFF8FFF#32 : Word) =
      encodeI (BitVec.allOnes 12) (BitVec.allOnes 5) 0#3 (BitVec.allOnes 5) (BitVec.allOnes 7) := by decide
  conv_rhs => rw [← encodeI_fields w, hmask, encodeI_and]
  simp only [BitVec.and_allOnes, BitVec.and_zero]

/-! ## Encoding what the decoder answers -/

section Inversion
variable {w : Word} {i : Instr}

theorem encode_of_decodeBranch (hop : opcodeOf w = 0x63#7) (h : decodeBranch w = some i) : encode i = w := by
  unfold decodeBranch at h
  split_ifs at h with hf3 hf3 hf3 hf3 hf3 hf3 <;> cases h <;> exact encodeB_of_fields hop hf3

theorem encode_of_decodeLoad (hop : opcodeOf w = 0x03#7) (h : decodeLoad w = some i) : encode i = w := by
  unfold decodeLoad at h
  split_ifs at h with hf3 hf3 hf3 hf3 hf3 <;> cases h <;> exact encodeI_of_fields hop hf3

theorem encode_of_decodeStore (hop : opcodeOf w = 0x23#7) (h : decodeStore w = some i) : encode i = w := by
  unfold decodeStore at h
  split_ifs at h with hf3 hf3 hf3 <;> cases h <;> exact encodeS_of_fields hop hf3

theorem encode_of_decodeOpImm (hop : opcodeOf w = 0x13#7) (h : decodeOpImm w = some i) : encode i = w := by
  unfold decodeOpImm at h
  split_ifs at h with hf3 hf3 hf3 hf3 hf3 hf3 shift shift shift <;> cases h
  iterate 6 exact encodeI_of_fields hop hf3
  all_goals
    obtain ⟨hf3, hf7⟩ := shift
    exact encodeR_of_fields hop hf3 hf7

theorem encode_of_decodeOpBase (hop : opcodeOf w = 0x33#7) (hf7 : f7Of w = 0x00#7) (h : decodeOpBase w = some i) : encode i = w := by
  rcases f3_cases (f3Of w) with hf3 | hf3 | hf3 | hf3 | hf3 | hf3 | hf3 | hf3 <;>
    · simp only [decodeOpBase, hf3, BitVec.reduceEq, if_true, if_false, Option.some.injEq] at h
      subst h
      exact encodeR_of_fields hop hf3 hf7

theorem encode_of_decodeOpAlt (hop : opcodeOf w = 0x33#7) (hf7 : f7Of w = 0x20#7) (h : decodeOpAlt w = some i) : encode i = w := by
  unfold decodeOpAlt at h
  split_ifs at h with hf3 hf3 <;> cases h <;> exact encodeR_of_fields hop hf3 hf7

theorem encode_of_decodeMulDiv (hop : opcodeOf w = 0x33#7) (hf7 : f7Of w = 0x01#7) (h : decodeMulDiv w = some i) : encode i = w := by
  unfold decodeMulDiv at h
  split_ifs at h with hf3 hf3 hf3 hf3 hf3 <;> cases h <;> exact encodeR_of_fields hop hf3 hf7

theorem encode_of_decodeOp (hop : opcodeOf w = 0x33#7) (h : decodeOp w = some i) : encode i = w := by
  unfold decodeOp at h
  split_ifs at h with hf7 hf7 hf7
  · exact encode_of_decodeOpBase hop hf7 h
  · exact encode_of_decodeOpAlt hop hf7 h
  · exact encode_of_decodeMulDiv hop hf7 h

/-- JALR's three ignored bits are cleared (R106, D12); no other bit is lost. -/
theorem encode_of_decode (h : decode w = some i) : encode i = if opcodeOf w = 0x67#7 then w &&& 0xFFFF8FFF#32 else w := by
  have hclass := decode_class w
  rw [h] at hclass
  generalize hd : some i = d at hclass
  cases hclass with
  | lui hop =>
    cases hd
    simpa [hop, encode] using encodeU_of_fields hop
  | auipc hop =>
    cases hd
    simpa [hop, encode] using encodeU_of_fields hop
  | jal hop =>
    cases hd
    simpa [hop, encode] using encodeJ_of_fields hop
  | jalr hop =>
    cases hd
    rw [if_pos hop, ← encodeI_f3_zero, hop]
    rfl
  | branch hop => simpa [hop] using encode_of_decodeBranch hop hd.symm
  | load hop => simpa [hop] using encode_of_decodeLoad hop hd.symm
  | store hop => simpa [hop] using encode_of_decodeStore hop hd.symm
  | opImm hop => simpa [hop] using encode_of_decodeOpImm hop hd.symm
  | op hop => simpa [hop] using encode_of_decodeOp hop hd.symm
  | unlisted hop => cases hd

end Inversion

/-! ## The opcode table -/

/-- Two words that agree in what the decoder reads to choose an instruction: the opcode, f3 in the five classes that have one, f7 in the
register operations and the immediate shifts (R105 to R110). -/
structure SameCodes (w v : Word) : Prop where
  opcode : opcodeOf w = opcodeOf v
  f3 : opcodeOf v ∈ [0x63#7, 0x03#7, 0x23#7, 0x13#7, 0x33#7] → f3Of w = f3Of v
  f7 : opcodeOf v = 0x33#7 ∨ opcodeOf v = 0x13#7 ∧ f3Of v ∈ [1#3, 5#3] → f7Of w = f7Of v

section Mnemonic
variable {w v : Word}

theorem mnemonic_decodeBranch_congr (hf3 : f3Of w = f3Of v) : (decodeBranch w).map mnemonicOf = (decodeBranch v).map mnemonicOf := by
  rw [decodeBranch, decodeBranch, hf3]
  split_ifs <;> rfl

theorem mnemonic_decodeLoad_congr (hf3 : f3Of w = f3Of v) : (decodeLoad w).map mnemonicOf = (decodeLoad v).map mnemonicOf := by
  rw [decodeLoad, decodeLoad, hf3]
  split_ifs <;> rfl

theorem mnemonic_decodeStore_congr (hf3 : f3Of w = f3Of v) : (decodeStore w).map mnemonicOf = (decodeStore v).map mnemonicOf := by
  rw [decodeStore, decodeStore, hf3]
  split_ifs <;> rfl

theorem mnemonic_decodeOpImm_congr (hf3 : f3Of w = f3Of v) (hf7 : f3Of v ∈ [1#3, 5#3] → f7Of w = f7Of v) :
    (decodeOpImm w).map mnemonicOf = (decodeOpImm v).map mnemonicOf := by
  by_cases hshift : f3Of v ∈ [1#3, 5#3]
  · rw [decodeOpImm, decodeOpImm, hf3, hf7 hshift]
    split_ifs <;> rfl
  · obtain ⟨h1, h5⟩ : f3Of v ≠ 1#3 ∧ f3Of v ≠ 5#3 := by simpa using hshift
    simp only [decodeOpImm, hf3, h1, h5, false_and, if_false]
    split_ifs <;> rfl

theorem mnemonic_decodeOp_congr (hf3 : f3Of w = f3Of v) (hf7 : f7Of w = f7Of v) :
    (decodeOp w).map mnemonicOf = (decodeOp v).map mnemonicOf := by
  simp only [decodeOp, decodeOpBase, decodeOpAlt, decodeMulDiv, hf3, hf7]
  split_ifs <;> rfl

/-- The codes choose the instruction; the other bits are operands. -/
theorem mnemonic_decode_congr (h : SameCodes w v) : (decode w).map mnemonicOf = (decode v).map mnemonicOf := by
  obtain ⟨hop, hf3, hf7⟩ := h
  unfold decode
  rw [hop]
  split_ifs with lui auipc jal jalr branch load store opImm op
  · rfl
  · rfl
  · rfl
  · rfl
  · exact mnemonic_decodeBranch_congr (hf3 (by simp [branch]))
  · exact mnemonic_decodeLoad_congr (hf3 (by simp [load]))
  · exact mnemonic_decodeStore_congr (hf3 (by simp [store]))
  · exact mnemonic_decodeOpImm_congr (hf3 (by simp [opImm])) fun hshift => hf7 (.inr ⟨opImm, hshift⟩)
  · exact mnemonic_decodeOp_congr (hf3 (by simp [op])) (hf7 (.inl op))
  · rfl

end Mnemonic

theorem mnemonic_decode_pattern : ∀ r ∈ opcodeTable, (decode r.pattern).map mnemonicOf = some r.mnemonic := by decide

theorem opcodeTable_mnemonics_nodup : (opcodeTable.map OpcodeRow.mnemonic).Nodup := by decide

/-- Every row's mask covers the opcode, and f3 and f7 wherever the decoder chooses by them. -/
theorem mask_covers_codes : ∀ r ∈ opcodeTable, opcodeOf r.mask = BitVec.allOnes 7 ∧
    (opcodeOf r.pattern ∈ [0x63#7, 0x03#7, 0x23#7, 0x13#7, 0x33#7] → f3Of r.mask = BitVec.allOnes 3) ∧
    (opcodeOf r.pattern = 0x33#7 ∨ opcodeOf r.pattern = 0x13#7 ∧ f3Of r.pattern ∈ [1#3, 5#3] → f7Of r.mask = BitVec.allOnes 7) := by
  decide

theorem opcodeOf_and (w m : Word) : opcodeOf (w &&& m) = opcodeOf w &&& opcodeOf m := BitVec.extractLsb'_and
theorem f3Of_and (w m : Word) : f3Of (w &&& m) = f3Of w &&& f3Of m := BitVec.extractLsb'_and
theorem f7Of_and (w m : Word) : f7Of (w &&& m) = f7Of w &&& f7Of m := BitVec.extractLsb'_and

theorem sameCodes_of_row {r : OpcodeRow} (hr : r ∈ opcodeTable) {w : Word} (h : w &&& r.mask = r.pattern) : SameCodes w r.pattern := by
  obtain ⟨hop, hf3, hf7⟩ := mask_covers_codes r hr
  constructor
  · rw [← h, opcodeOf_and, hop, BitVec.and_allOnes]
  · intro hc
    specialize hf3 hc
    rw [← h, f3Of_and, hf3, BitVec.and_allOnes]
  · intro hc
    specialize hf7 hc
    rw [← h, f7Of_and, hf7, BitVec.and_allOnes]

/-- A word of a row decodes to an instruction of that row (R111). -/
theorem decode_of_row {r : OpcodeRow} (hr : r ∈ opcodeTable) {w : Word} (h : w &&& r.mask = r.pattern) :
    ∃ i, decode w = some i ∧ mnemonicOf i = r.mnemonic := by
  have hmnemonic : (decode w).map mnemonicOf = some r.mnemonic :=
    (mnemonic_decode_congr (sameCodes_of_row hr h)).trans (mnemonic_decode_pattern r hr)
  exact Option.map_eq_some_iff.mp hmnemonic

theorem disassemble_of_decode {w : Word} {i : Instr} (h : decode w = some i) : disassemble w = mnemonicOf i := by
  rw [disassemble, h]

/-- The decoder is a function and the rows have different names, so a word has one row (R111). -/
theorem row_unique {r r' : OpcodeRow} (hr : r ∈ opcodeTable) (hr' : r' ∈ opcodeTable) {w : Word} (h : w &&& r.mask = r.pattern)
    (h' : w &&& r'.mask = r'.pattern) : r = r' := by
  obtain ⟨i, hi, hname⟩ := decode_of_row hr h
  obtain ⟨i', hi', hname'⟩ := decode_of_row hr' h'
  obtain rfl : i = i' := Option.some.inj (hi.symm.trans hi')
  exact List.inj_on_of_nodup_map opcodeTable_mnemonics_nodup hr hr' (hname.symm.trans hname')

open Laws.EncodingFitsRow in
/-- Every instruction's encoding is a word of its row (R111). -/
theorem encode_fits_row : ∀ i : Instr, Laws.EncodingFitsRow.Statement i
  | .lui .. => lui _ _ | .auipc .. => auipc _ _ | .jal .. => jal _ _ | .jalr .. => jalr _ _ _
  | .beq .. => beq _ _ _ | .bne .. => bne _ _ _ | .blt .. => blt _ _ _ | .bge .. => bge _ _ _ | .bltu .. => bltu _ _ _
  | .bgeu .. => bgeu _ _ _
  | .lb .. => lb _ _ _ | .lh .. => lh _ _ _ | .lw .. => lw _ _ _ | .lbu .. => lbu _ _ _ | .lhu .. => lhu _ _ _
  | .sb .. => sb _ _ _ | .sh .. => sh _ _ _ | .sw .. => sw _ _ _
  | .addi .. => addi _ _ _ | .slti .. => slti _ _ _ | .sltiu .. => sltiu _ _ _ | .xori .. => xori _ _ _ | .ori .. => ori _ _ _
  | .andi .. => andi _ _ _ | .slli .. => slli _ _ _ | .srli .. => srli _ _ _ | .srai .. => srai _ _ _
  | .add .. => add _ _ _ | .sub .. => sub _ _ _ | .sll .. => sll _ _ _ | .slt .. => slt _ _ _ | .sltu .. => sltu _ _ _
  | .xor .. => xor _ _ _ | .srl .. => srl _ _ _ | .sra .. => sra _ _ _ | .or .. => or _ _ _ | .and .. => and _ _ _
  | .mul .. => mul _ _ _ | .div .. => div _ _ _ | .divu .. => divu _ _ _ | .rem .. => rem _ _ _ | .remu .. => remu _ _ _

/-- JALR's row reads none of the bits its canonical form clears (R106). -/
theorem jalr_mask_canonical : ∀ r ∈ opcodeTable, opcodeOf r.pattern = 0x67#7 → 0xFFFF8FFF#32 &&& r.mask = r.mask := by decide

theorem row_of_decode {w : Word} {i : Instr} (h : decode w = some i) :
    ∃ r ∈ opcodeTable, r.mnemonic = mnemonicOf i ∧ w &&& r.mask = r.pattern := by
  obtain ⟨r, hr, hname, hrow⟩ := encode_fits_row i
  refine ⟨r, hr, hname, ?_⟩
  rw [encode_of_decode h] at hrow
  split_ifs at hrow with hjalr
  · have hop : opcodeOf r.pattern = 0x67#7 := by
      rw [← (sameCodes_of_row hr hrow).opcode, opcodeOf_and, hjalr]
      decide
    rw [← hrow, BitVec.and_assoc, jalr_mask_canonical r hr hop]
  · exact hrow

/-! ## The statements -/

/-- Settles O1: class by class, each field of an encoded word is the operand or code it was built from. -/
theorem decodeEncodeRoundTrip : Obligations.DecodeEncodeRoundTrip :=
  fun _ h => decode_encode h

/-- Settles O2: a word is made of its fields, and the decoder hands every field but JALR's f3 on. -/
theorem decodedWordIsItsEncoding : Obligations.DecodedWordIsItsEncoding :=
  fun _ _ h => ⟨wellFormed_of_decode h, encode_of_decode h⟩

/-- Settles O3: a row's mask keeps the codes the decoder chooses by, and an encoded instruction is a word of its own row. -/
theorem decoderIsTheOpcodeTable : Obligations.DecoderIsTheOpcodeTable := by
  intro w
  refine ⟨?decodes, fun _ => row_of_decode, fun _ hr _ hr' => row_unique hr hr'⟩
  intro r hr h
  obtain ⟨i, hi, hname⟩ := decode_of_row hr h
  exact ⟨⟨i, hi, hname⟩, (disassemble_of_decode hi).trans hname⟩

/-- Settles O4: a field at the top of the word needs no remainder, and the scattered immediates are sums of fields. -/
theorem immediatesAreTheWordsDigits : Obligations.ImmediatesAreTheWordsDigits := by
  intro w n
  have hn : n < 2 ^ 32 := w.isLt
  refine ⟨?immI, ?immU, ?immS, immBOf_toNat w, immJOf_toNat w⟩
  case immI => exact (immIOf_toNat w).trans (Nat.mod_eq_of_lt (by omega))
  case immU => exact (immUOf_toNat w).trans (Nat.mod_eq_of_lt (by omega))
  case immS =>
    rw [immSOf_toNat, f7Of_toNat, rdOf_toNat]
    omega

/-- Settles O5: the opcode chooses the class, and each class says what it rejects. -/
theorem unrecognisedSpace : Obligations.UnrecognisedSpace := by
  intro w
  have hclass := decode_class w
  generalize decode w = d at hclass ⊢
  cases hclass with
  | lui hop | auipc hop | jal hop | jalr hop => simp [hop]
  | branch hop => simp [hop, decodeBranch_eq_none_iff]
  | load hop => simp [hop, decodeLoad_eq_none_iff]
  | store hop => simp [hop, decodeStore_eq_none_iff]
  | opImm hop => simp [hop, decodeOpImm_eq_none_iff]
  | op hop => simp [hop, decodeOp_eq_none_iff]
  | unlisted hop => exact iff_of_true rfl (.inl hop)

namespace Machine

theorem cpuStep_of_decode_none {s : State} (h : decode s.fetch = none) : cpuStep s = .next s.advance := by
  unfold cpuStep
  rw [h]
  rfl

/-- Settles O9: the no-op advances the pc, at a step of the CPU and at a listed `step()` alike. -/
theorem unrecognisedWordIsNoOp : Obligations.UnrecognisedWordIsNoOp :=
  fun s hs => ⟨fun h => (step_of_agenda_nil h).trans (cpuStep_of_decode_none hs),
    fun rest h => (step_of_agenda_cpu h).trans (cpuStep_of_decode_none (s := { s with agenda := rest }) hs),
    State.reg_zero _⟩

end Machine

end Sys2Proof
end

section
/-! SUPPORT. The statements of 40_upper_immediate.md: a register result as completion, LUI's and AUIPC's results, and the words the spec's
examples write out. -/

namespace Sys2Proof

/-! ## The spec's words -/

/-- O1 for a word that is given as a number. -/
theorem decode_of_encode_eq {i : Instr} {w : Word} (hword : encode i = w) (h : i.wellFormed = true) : decode w = some i :=
  hword ▸ decode_encode h

/-- Settles O6: each listed word is its instruction's encoding, and each of the last two has an opcode that is no class's (R121 (a)). -/
theorem specWordsDecode : Obligations.SpecWordsDecode := by
  refine ⟨decode_of_encode_eq ?_ rfl, decode_of_encode_eq ?_ rfl, decode_of_encode_eq ?_ rfl, decode_of_encode_eq ?_ rfl,
    decode_of_encode_eq ?_ rfl, decode_of_encode_eq ?_ rfl, decode_of_encode_eq ?_ rfl, decode_of_encode_eq ?_ rfl,
    decode_of_encode_eq ?_ rfl, decode_of_encode_eq ?_ rfl, decode_of_encode_eq ?_ rfl, (unrecognisedSpace _).mpr (.inl ?_),
    (unrecognisedSpace _).mpr (.inl ?_)⟩
  all_goals decide

namespace Machine

/-! ## A register result as completion -/

/-- An instruction that ends in a register result completes: the pc goes to the next instruction, `x[rd]` takes the value, and nothing
else changes. -/
theorem writesRegister_of_writeBack {i : Instr} {s : State} {rd : RegIdx} {v : Word} (h : exec i s = .next (s.writeBack rd v)) :
    WritesRegister i s rd v (s.pc + 4#32) :=
  ⟨_, h, State.writeBack_pc s rd v, State.reg_setReg_same s rd v, fun _ hr => State.reg_setReg_other s v hr,
    State.read8_writeBack s rd v, sameBeyondCpu_writeBack s rd v⟩

/-! ## The upper immediate as a number -/

theorem upperImmediate_eq_ofNat (imm : BitVec 20) : upperImmediate imm = BitVec.ofNat 32 (imm.toNat * 4096) := by
  have hnum : (upperImmediate imm).toNat = imm.toNat * 4096 := (toNat_append_eq imm 0#12).trans (Nat.add_zero _)
  rw [← hnum, BitVec.ofNat_toNat, BitVec.setWidth_eq]

/-- A sum of words is the sum of their numbers modulo 2^32 (D5). -/
theorem add_upperImmediate (a : Word) (imm : BitVec 20) : a + upperImmediate imm = BitVec.ofNat 32 (a.toNat + imm.toNat * 4096) := by
  rw [BitVec.ofNat_add, BitVec.ofNat_toNat, BitVec.setWidth_eq, upperImmediate_eq_ofNat]

/-! ## The statements -/

/-- Settles O20: both end in a register result, of the upper immediate or of its sum with the pc. -/
theorem upperImmediateResults : Obligations.UpperImmediateResults := by
  intro s rd imm
  rw [← upperImmediate_eq_ofNat, ← add_upperImmediate]
  exact ⟨writesRegister_of_writeBack rfl, writesRegister_of_writeBack rfl⟩

end Machine

end Sys2Proof
end

section
/-! SUPPORT. The statements of 41_jumps.md: a jump with a link as completion, sums with a sign-extended immediate and the clearing of
bit 0 as numbers, and the targets of JAL and JALR. -/

namespace Sys2Proof.Machine

/-! ## A jump with a link as completion -/

/-- An instruction that ends in a link completes: the pc goes to the target, `x[rd]` takes the return address, and nothing else changes. -/
theorem writesRegister_of_linkTo {i : Instr} {s : State} {rd : RegIdx} {target : Word} (h : exec i s = .next (s.linkTo rd target)) :
    WritesRegister i s rd (s.pc + 4#32) target :=
  ⟨_, h, State.linkTo_pc s rd target, State.reg_setReg_same s rd s.pc4, fun _ hr => State.reg_setReg_other s s.pc4 hr,
    State.read8_linkTo s rd target, sameBeyondCpu_linkTo s rd target⟩

/-! ## Targets as numbers -/

/-- A word plus a sign-extended immediate of any width is the sum of the unsigned and the signed number modulo 2^32 (D5). -/
theorem add_signExtend {w : Nat} (a : Word) (x : BitVec w) : a + x.signExtend 32 = BitVec.ofInt 32 (a.toNat + x.toInt) := by
  rw [BitVec.ofInt_add, BitVec.ofInt_natCast, BitVec.ofNat_toNat, BitVec.setWidth_eq, BitVec.signExtend]

/-- Bit 0 cleared is a shift down and up again: half of the number, doubled (R141). -/
theorem clearBitZero_eq_ofNat (w : Word) : w &&& 0xFFFFFFFE#32 = BitVec.ofNat 32 (w.toNat / 2 * 2) := by
  have hmask : 0xFFFFFFFE#32 = BitVec.allOnes 32 <<< 1 := by decide
  rw [hmask, ← BitVec.shiftLeft_ushiftRight, ← BitVec.toNat_inj, BitVec.toNat_shiftLeft, BitVec.toNat_ushiftRight,
    Nat.shiftRight_eq_div_pow, Nat.shiftLeft_eq, BitVec.toNat_ofNat]

theorem State.jumpTarget_eq_ofInt (s : State) (offset : BitVec 21) :
    s.jumpTarget offset = BitVec.ofInt 32 (s.pc.toNat + offset.toInt) := add_signExtend s.pc offset

theorem State.indirectTarget_eq_ofNat (s : State) (rs1 : RegIdx) (imm : BitVec 12) :
    s.indirectTarget rs1 imm = BitVec.ofNat 32 ((((s.reg rs1).toNat + imm.toInt) % 2 ^ 32).toNat / 2 * 2) := by
  rw [State.indirectTarget, clearBitZero_eq_ofNat, signExtended, add_signExtend, BitVec.toNat_ofInt]
  rfl

/-! ## The statements -/

/-- Settles O21: JAL ends in a link, to its own address plus the offset. -/
theorem jumpAndLinkResult : Obligations.JumpAndLinkResult := by
  intro s rd offset
  rw [← State.jumpTarget_eq_ofInt]
  exact writesRegister_of_linkTo rfl

/-- Settles O22: JALR ends in a link, and its target is read from the state before the link is written. -/
theorem jumpAndLinkRegisterResult : Obligations.JumpAndLinkRegisterResult := by
  intro s rd rs1 imm
  rw [← State.indirectTarget_eq_ofNat]
  exact writesRegister_of_linkTo rfl

end Sys2Proof.Machine
end

section
/-! SUPPORT. The statements of 42_branches.md: a branch as completion, the comparisons as relations between numbers, and the target of a
branch. -/

namespace Sys2Proof.Machine

/-! ## A branch as completion -/

/-- An instruction that ends in a branch changes the pc alone; `taken` decides the condition P. -/
theorem onlyGoesTo_of_branchIf {i : Instr} {s : State} {taken : Bool} {target : Word} {P : Prop} [Decidable P]
    (h : exec i s = .next (s.branchIf taken target)) (htaken : taken = true ↔ P) :
    OnlyGoesTo i s (if P then target else s.pc + 4#32) :=
  have hpc : (s.branchIf taken target).pc = if P then target else s.pc + 4#32 :=
    (State.branchIf_pc s taken target).trans (if_congr htaken rfl rfl)
  ⟨_, h, hpc, State.reg_branchIf s taken target, State.read8_branchIf s taken target, sameBeyondCpu_branchIf s taken target⟩

/-! ## The comparisons -/

theorem isEqual_iff {a b : Word} : isEqual a b = true ↔ a = b := decide_eq_true_iff

theorem not_isEqual_iff {a b : Word} : (!isEqual a b) = true ↔ ¬a = b := by
  rw [Bool.not_eq_true', ← Bool.not_eq_true, isEqual_iff]

theorem isLessSigned_iff {a b : Word} : isLessSigned a b = true ↔ a.toInt < b.toInt := decide_eq_true_iff

/-- Not less is greater or equal, on signed values (R154). -/
theorem not_isLessSigned_iff {a b : Word} : (!isLessSigned a b) = true ↔ a.toInt ≥ b.toInt := by
  rw [Bool.not_eq_true', ← Bool.not_eq_true, isLessSigned_iff, Int.not_lt]

theorem isLessUnsigned_iff {a b : Word} : isLessUnsigned a b = true ↔ a.toNat < b.toNat := decide_eq_true_iff

/-- Not less is greater or equal, on unsigned values (R156). -/
theorem not_isLessUnsigned_iff {a b : Word} : (!isLessUnsigned a b) = true ↔ a.toNat ≥ b.toNat := by
  rw [Bool.not_eq_true', ← Bool.not_eq_true, isLessUnsigned_iff, Nat.not_lt]

/-! ## The target as a number -/

theorem State.branchTarget_eq_ofInt (s : State) (offset : BitVec 13) :
    s.branchTarget offset = BitVec.ofInt 32 (s.pc.toNat + offset.toInt) := add_signExtend s.pc offset

/-! ## The statements -/

/-- Settles O23: BEQ branches on equality, and BNE on its negation, so its two ends stand the other way round. -/
theorem equalityBranches : Obligations.EqualityBranches := by
  intro s rs1 rs2 offset
  rw [← State.branchTarget_eq_ofInt]
  refine ⟨onlyGoesTo_of_branchIf rfl isEqual_iff, ?bne⟩
  rw [← ite_not]
  exact onlyGoesTo_of_branchIf rfl not_isEqual_iff

/-- Settles O24: the branches end by the signed and the unsigned order and by their negations. -/
theorem orderBranches : Obligations.OrderBranches := by
  intro s rs1 rs2 offset
  rw [← State.branchTarget_eq_ofInt]
  exact ⟨onlyGoesTo_of_branchIf rfl isLessSigned_iff, onlyGoesTo_of_branchIf rfl not_isLessSigned_iff,
    onlyGoesTo_of_branchIf rfl isLessUnsigned_iff, onlyGoesTo_of_branchIf rfl not_isLessUnsigned_iff⟩

end Sys2Proof.Machine
end

section
/-! SUPPORT. The statements of 43_loads.md: the effective address, and the widened bytes and halfwords, as numbers. -/

namespace Sys2Proof.Machine

/-! ## The effective address as a number -/

theorem State.effectiveAddress_eq_ofInt (s : State) (rs1 : RegIdx) (imm : BitVec 12) :
    s.effectiveAddress rs1 imm = BitVec.ofInt 32 ((s.reg rs1).toNat + imm.toInt) := add_signExtend (s.reg rs1) imm

/-- A word made of an integer holds the integer's remainder modulo 2^32 (D5). -/
theorem toNat_ofInt_emod (z : Int) : ((BitVec.ofInt 32 z).toNat : Int) = z % 2 ^ 32 := by
  rw [BitVec.toNat_ofInt, Int.toNat_of_nonneg (Int.emod_nonneg z (by decide))]
  rfl

/-! ## Widened values as numbers -/

/-- Sign extension reads the upper half of the range as negative (R161, R162). -/
theorem signExtend_eq_ofInt {w : Nat} (x : BitVec (w + 1)) :
    x.signExtend 32 = BitVec.ofInt 32 (if x.toNat < 2 ^ w then (x.toNat : Int) else x.toNat - 2 ^ (w + 1)) := by
  have hhalf : 2 * x.toNat < 2 ^ (w + 1) ↔ x.toNat < 2 ^ w := by
    rw [Nat.pow_succ']
    exact Nat.mul_lt_mul_left (by decide)
  rw [BitVec.signExtend, BitVec.toInt_eq_toNat_cond, if_congr hhalf rfl rfl, Nat.cast_pow]
  rfl

/-! ## The statements -/

/-- Settles O25: the sum with the displacement is taken modulo 2^32. -/
theorem effectiveAddressWraps : Obligations.EffectiveAddressWraps := by
  intro s rs1 imm
  rw [State.effectiveAddress_eq_ofInt]
  exact toNat_ofInt_emod _

/-- Settles O26: each of the four ends in a register result, of the byte or of the two bytes as one number, widened. -/
theorem narrowLoads : Obligations.NarrowLoads := by
  intro s rd rs1 imm a b h
  have hhalf : (s.read16 a).toNat = h := State.read16_toNat s a
  refine ⟨?lb, ?lbu, ?lh, ?lhu⟩
  case lb =>
    have hval : (s.read8 a).signExtend 32 = BitVec.ofInt 32 (if b < 128 then (b : Int) else b - 256) := signExtend_eq_ofInt _
    rw [← hval]
    exact writesRegister_of_writeBack rfl
  case lbu =>
    rw [BitVec.ofNat_toNat]
    exact writesRegister_of_writeBack rfl
  case lh =>
    have hval : (s.read16 a).signExtend 32 = BitVec.ofInt 32 (if h < 32768 then (h : Int) else h - 65536) :=
      hhalf ▸ signExtend_eq_ofInt (s.read16 a)
    rw [← hval]
    exact writesRegister_of_writeBack rfl
  case lhu =>
    rw [← hhalf, BitVec.ofNat_toNat]
    exact writesRegister_of_writeBack rfl

/-- Settles O27: LW ends in a register result, of the word whose number the four bytes make. -/
theorem wordLoad : Obligations.WordLoad := by
  intro s rd rs1 imm a
  rw [← State.read32_toNat, BitVec.ofNat_toNat, BitVec.setWidth_eq]
  exact writesRegister_of_writeBack rfl

end Sys2Proof.Machine
end

section
/-! SUPPORT. The statements of 44_stores.md: a store as ascending byte writes, and a channel's sub-block written as one word. -/

namespace Sys2Proof.Machine

/-! ## A store as completion -/

/-- SB is a store of one byte of the register (R171). -/
theorem State.write8_eq (s : State) (a v : Word) :
    s.write8 a (v.extractLsb' 0 8) = s.writeFrom a (fun k => v.extractLsb' (8 * k) 8) 1 := by
  simp [State.writeFrom, List.range_succ]

/-- SH is a store of two bytes of the register: they are the bytes of its low half (R172). -/
theorem State.write16_low_eq (s : State) (a v : Word) :
    s.write16 a (v.extractLsb' 0 16) = s.writeFrom a (fun k => v.extractLsb' (8 * k) 8) 2 := by
  have hbyte (k : Nat) (hk : 8 * k + 8 ≤ 16) : (v.extractLsb' 0 16).extractLsb' (8 * k) 8 = v.extractLsb' (8 * k) 8 :=
    BitVec.extractLsb'_extractLsb'_of_le hk
  rw [State.write16_eq]
  simp only [State.writeFrom_succ, hbyte 0 (by decide), hbyte 1 (by decide)]
  rfl

/-- An instruction that ends in up to four ascending byte writes completes as a store; in the APU window the writes are the APU's own. -/
theorem storesBytes_of_writeFrom {i : Instr} {s : State} {a v : Word} {n : Nat} (hs : s.Inv) (hn : n ≤ 4)
    (h : exec i s = .next (s.writeFrom a (fun k => v.extractLsb' (8 * k) 8) n).advance) : StoresBytes i s a n v := by
  obtain ⟨-, hstored, hother, ⟨hcfg, hrom, hfb, hagenda, hregs, hpc⟩, haudio⟩ :=
    State.writeFrom_law hs a (fun k => v.extractLsb' (8 * k) 8) n hn
  have hnext : (s.writeFrom a (fun k => v.extractLsb' (8 * k) 8) n).pc4 = s.pc + 4#32 := by rw [State.pc4, hpc]
  have hstate : (s.writeFrom a (fun k => v.extractLsb' (8 * k) 8) n).advance =
      { s.writeFrom a (fun k => v.extractLsb' (8 * k) 8) n with pc := s.pc + 4#32 } := by
    rw [State.advance, hnext, State.setPc]
  refine ⟨_, h, hnext, State.reg_congr hregs, hother, hstored, hcfg, hrom, hfb, hagenda, haudio, hstate, fun o hapu => ?_⟩
  rw [hstate, State.writeFrom_apu _ hapu]

/-- A store whose bytes all fall in the APU window ends in the APU's own writes (R64). -/
theorem StoresBytes.exec_of_apu {i : Instr} {s : State} {a v : Word} {n o : Nat} (h : StoresBytes i s a n v)
    (hapu : ∀ k < n, s.region (a + BitVec.ofNat 32 k) = .apu (o + k)) :
    exec i s = .next { s.apuWriteFrom o (fun k => v.extractLsb' (8 * k) 8) n with pc := s.pc + 4#32 } := by
  obtain ⟨t, hexec, -, -, -, -, -, -, -, -, -, -, hdelegated⟩ := h
  rw [hexec, hdelegated o hapu]

section Stores
variable {s : State} (rs2 rs1 : RegIdx) (imm : BitVec 12) (hs : s.Inv)
include hs

theorem storesBytes_sb : StoresBytes (.sb rs2 rs1 imm) s (s.effectiveAddress rs1 imm) 1 (s.reg rs2) :=
  storesBytes_of_writeFrom hs (by decide) (by rw [← State.write8_eq]; rfl)

theorem storesBytes_sh : StoresBytes (.sh rs2 rs1 imm) s (s.effectiveAddress rs1 imm) 2 (s.reg rs2) :=
  storesBytes_of_writeFrom hs (by decide) (by rw [← State.write16_low_eq]; rfl)

theorem storesBytes_sw : StoresBytes (.sw rs2 rs1 imm) s (s.effectiveAddress rs1 imm) 4 (s.reg rs2) :=
  storesBytes_of_writeFrom hs (by decide) (by rw [← State.write32_eq]; rfl)

end Stores

/-! ## The APU window's addresses -/

/-- An address that lies k bytes above an offset o of the APU window leads to offset o + k, while that is in the window (R11, R60). -/
theorem State.region_apu_add {s : State} (hc : s.cfg.Valid) {a : Word} {o k : Nat} (ha : a.toNat = s.cfg.joyBase + 0x100 + o)
    (hk : o + k < 0x100) : s.region (a + BitVec.ofNat 32 k) = .apu (o + k) := by
  have ⟨_, hbound, _⟩ := hc
  have htop : s.cfg.joyBase + 0x100 + 0x100 ≤ 2 ^ 32 := hbound (s.cfg.apuBase, ioBytes) (by simp [Config.windows])
  have haddr : (a + BitVec.ofNat 32 k).toNat = s.cfg.joyBase + 0x100 + (o + k) := by
    rw [BitVec.toNat_add, BitVec.toNat_ofNat]
    omega
  obtain ⟨-, -, -, -, hapu, -⟩ := regionAt_of_valid hc (s.cfg.joyBase + 0x100 + (o + k))
  rw [State.region, haddr, hapu (by omega) (by omega), Nat.add_sub_cancel_left]

/-! ## A channel's registers written in order -/

/-- The channel after writes of its registers 0 to n - 1 in that order, register r taking `f r` (R300). -/
def Channel.writeRegs (ch : Channel) (f : Nat → Byte) : Nat → Channel
  | 0 => ch
  | n + 1 => (ch.writeRegs f n).writeReg n (f n)

/-- The channel records with channel c's registers 0 to n - 1 written. -/
def apuWriteRegs (apu : Vector Channel 4) (c : Nat) (f : Nat → Byte) (n : Nat) : Vector Channel 4 :=
  onChannels (fun d ch => if d = c then ch.writeRegs f n else ch) apu

theorem apuWriteRegs_get (apu : Vector Channel 4) (c : Nat) (f : Nat → Byte) (n d : Nat) (hd : d < 4) :
    (apuWriteRegs apu c f n)[d] = if d = c then apu[d].writeRegs f n else apu[d] :=
  onChannels_get _ apu d hd

theorem apuWriteRegs_zero (apu : Vector Channel 4) (c : Nat) (f : Nat → Byte) : apuWriteRegs apu c f 0 = apu := by
  ext1 d hd
  rw [apuWriteRegs_get]
  exact ite_self _

/-- The register write at offset 4 c + n is channel c's next one. -/
theorem apuWriteRegs_succ (apu : Vector Channel 4) (c : Nat) (f : Nat → Byte) {n : Nat} (hn : n < 4) :
    apuWriteRegs apu c f (n + 1) = apuSet (apuWriteRegs apu c f n) (4 * c + n) (f n) := by
  have hchannel : (4 * c + n) / 4 = c := by omega
  have hreg : (4 * c + n) % 4 = n := by omega
  ext1 d hd
  rw [apuSet_get, apuWriteRegs_get, apuWriteRegs_get, hchannel, hreg]
  split <;> rfl

/-- With no sample pass waiting, up to four ascending writes from a channel's first offset on are the writes of its registers in order
(R300). -/
theorem State.apuWriteFrom_channel {s : State} (h : s.audioTurns = []) {c : Nat} (hc : c < 4) (f : Nat → Byte) {n : Nat} (hn : n ≤ 4) :
    s.apuWriteFrom (4 * c) f n = { s with apu := apuWriteRegs s.apu c f n } := by
  induction n with
  | zero => rw [apuWriteRegs_zero]; rfl
  | succ n ih =>
    rw [State.apuWriteFrom_succ, ih (by omega), apuWriteRegs_succ _ _ _ hn]
    exact State.apuWrite8_eq _ (by omega) h

/-- A waveform by its selector's number (R302). -/
theorem waveformOf_eq_getD (v : BitVec 2) :
    waveformOf v = [Waveform.square, .sine, .triangle, .noise].getD v.toNat .square := by
  revert v
  decide

/-- A channel whose four registers take the bytes of a word, least significant first, holds the word's fields (R300 to R303). -/
theorem Channel.writeRegs_word (ch : Channel) (v : Word) :
    ch.writeRegs (fun k => v.extractLsb' (8 * k) 8) 4 =
      ⟨v.getLsbD 16, [Waveform.square, .sine, .triangle, .noise].getD (v.toNat / 131072 % 4) .square, v.extractLsb' 0 16,
        v.extractLsb' 24 8, if v.getLsbD 16 then 0 else ch.phase⟩ := by
  have hfreq : withHighByte (withLowByte ch.freq (v.extractLsb' 0 8)) (v.extractLsb' 8 8) = v.extractLsb' 0 16 := by
    rw [withHighByte, withLowByte, BitVec.extractLsb'_append_eq_right]
    exact BitVec.extractLsb'_append_extractLsb'_eq_extractLsb' rfl
  have henable : (v.extractLsb' 16 8).getLsbD 0 = v.getLsbD 16 := by simp
  have hwave : ((v.extractLsb' 16 8).extractLsb' 1 2).toNat = v.toNat / 131072 % 4 := by
    rw [toNat_field, toNat_field]
    omega
  rw [← hfreq, ← henable, ← hwave, ← waveformOf_eq_getD]
  rfl

/-! ## The statements -/

/-- Settles O28: each of the three ends in as many ascending byte writes as it stores bytes. -/
theorem stores : Obligations.Stores :=
  fun _ rs2 rs1 imm hs => ⟨storesBytes_sb rs2 rs1 imm hs, storesBytes_sh rs2 rs1 imm hs, storesBytes_sw rs2 rs1 imm hs⟩

/-- Settles O55: the word's four bytes all fall in the APU window, on the channel's four registers in order. -/
theorem storeWordProgramsAChannel : Obligations.StoreWordProgramsAChannel := by
  intro s rs2 rs1 imm c hc hs hturns haddr v
  have hregion (k : Nat) (hk : k < 4) : s.region (s.effectiveAddress rs1 imm + BitVec.ofNat 32 k) = .apu (4 * c + k) :=
    State.region_apu_add hs.cfg haddr (by omega)
  have hexec := (storesBytes_sw rs2 rs1 imm hs).exec_of_apu hregion
  rw [State.apuWriteFrom_channel hturns hc _ (Nat.le_refl 4)] at hexec
  refine ⟨_, hexec, ?programmed, ?others, rfl⟩
  case programmed =>
    rw [apuWriteRegs_get, if_pos rfl]
    exact Channel.writeRegs_word s.apu[c] v
  case others =>
    intro d hd hdc
    rw [apuWriteRegs_get, if_neg hdc]

end Sys2Proof.Machine
end

section
/-! SUPPORT. The statements of 45_op_imm.md, with the register forms of the same operations (46_op.md): sums, differences and shifts as
numbers, a comparison as 1 or 0, the sign-extended immediate as a number and by its bits, and bitwise combination. -/

namespace Sys2Proof.Machine

/-! ## Sums and differences as numbers -/

theorem sub_eq_ofInt (a b : Word) : a - b = BitVec.ofInt 32 (a.toInt - b.toInt) := by
  rw [Int.sub_eq_add_neg, BitVec.ofInt_add, BitVec.ofInt_neg, BitVec.ofInt_toInt, BitVec.ofInt_toInt, BitVec.sub_eq_add_neg]

/-- The sum of the two signed numbers; `add_signExtend` reads the word as unsigned, which is the same modulo 2^32 (R181). -/
theorem add_signExtended (a : Word) (imm : BitVec 12) : a + signExtended imm = BitVec.ofInt 32 (a.toInt + imm.toInt) := by
  rw [BitVec.ofInt_add, BitVec.ofInt_toInt, signExtended, BitVec.signExtend]

/-! ## The sign-extended immediate -/

theorem toInt_signExtended (imm : BitVec 12) : (signExtended imm).toInt = imm.toInt :=
  BitVec.toInt_signExtend_of_le (by decide)

/-- Read as unsigned, a sign-extended immediate of the upper half lies in the topmost 2^11 words (R183). -/
theorem toNat_signExtended (imm : BitVec 12) :
    (signExtended imm).toNat = if imm.toNat < 2048 then imm.toNat else imm.toNat + 4294963200 := by
  have hmsb : imm.msb = decide (2048 ≤ imm.toNat) := BitVec.msb_eq_decide imm
  rw [signExtended, BitVec.toNat_signExtend, BitVec.toNat_setWidth_of_le (by decide), hmsb]
  by_cases hsmall : imm.toNat < 2048
  · simp [hsmall]
  · simp [hsmall, Nat.le_of_not_lt hsmall]

/-! ## A comparison as a word -/

theorem boolWord_eq_ite {b : Bool} {P : Prop} [Decidable P] (h : b = true ↔ P) : boolWord b = if P then 1#32 else 0#32 :=
  if_congr h rfl rfl

/-- An instruction that ends in the word of a comparison completes with 1 or 0, as the condition P it decides holds or not. -/
theorem writesRegister_of_boolWord {i : Instr} {s : State} {rd : RegIdx} {b : Bool} {P : Prop} [Decidable P]
    (h : exec i s = .next (s.writeBack rd (boolWord b))) (hb : b = true ↔ P) :
    WritesRegister i s rd (if P then 1#32 else 0#32) (s.pc + 4#32) :=
  boolWord_eq_ite hb ▸ writesRegister_of_writeBack h

/-! ## Bits -/

theorem hasBits_getLsbD (a : Word) : HasBits a a.getLsbD := fun _ _ => rfl

/-- From bit 11 on every bit of the sign-extended immediate is the immediate's bit 11 (R102). -/
theorem hasBits_signExtended (imm : BitVec 12) : HasBits (signExtended imm) fun k => imm.getLsbD (min k 11) := by
  intro k hk
  change (signExtended imm).getLsbD k = imm.getLsbD (min k 11)
  rw [signExtended, BitVec.getLsbD_signExtend, decide_eq_true hk, Bool.true_and]
  by_cases hlow : k < 12
  · rw [if_pos hlow, Nat.min_eq_left (Nat.le_of_lt_succ hlow)]
  · rw [if_neg hlow, Nat.min_eq_right (Nat.le_of_succ_le (Nat.le_of_not_lt hlow)), BitVec.msb_eq_getLsbD_last]

section Combination
variable {a b : Word} {f g : Nat → Bool}

theorem HasBits.xor (ha : HasBits a f) (hb : HasBits b g) : HasBits (a ^^^ b) fun k => f k ^^ g k := fun k hk => by
  rw [BitVec.getLsbD_xor, ha k hk, hb k hk]

theorem HasBits.or (ha : HasBits a f) (hb : HasBits b g) : HasBits (a ||| b) fun k => f k || g k := fun k hk => by
  rw [BitVec.getLsbD_or, ha k hk, hb k hk]

theorem HasBits.and (ha : HasBits a f) (hb : HasBits b g) : HasBits (a &&& b) fun k => f k && g k := fun k hk => by
  rw [BitVec.getLsbD_and, ha k hk, hb k hk]

end Combination

/-! ## Shifts as numbers -/

theorem shiftLeft_eq_ofNat (a : Word) (k : Nat) : a <<< k = BitVec.ofNat 32 (a.toNat * 2 ^ k) := by
  rw [← BitVec.toNat_inj, BitVec.toNat_shiftLeft, Nat.shiftLeft_eq, BitVec.toNat_ofNat]

theorem ushiftRight_eq_ofNat (a : Word) (k : Nat) : a >>> k = BitVec.ofNat 32 (a.toNat / 2 ^ k) := by
  rw [← Nat.shiftRight_eq_div_pow, ← BitVec.toNat_ushiftRight, BitVec.ofNat_toNat, BitVec.setWidth_eq]

/-- Division by a power of two rounds down, also below zero (R189). -/
theorem sshiftRight_eq_ofInt (a : Word) (k : Nat) : a.sshiftRight k = BitVec.ofInt 32 (a.toInt / 2 ^ k) := by
  rw [BitVec.sshiftRight, Int.shiftRight_eq_div_pow, Nat.cast_pow, Nat.cast_ofNat]

/-! ## The statements -/

/-- Settles O29: each of the three ends in a register result, of the word the sum or the difference makes. -/
theorem addAndSubtract : Obligations.AddAndSubtract := by
  intro s rd rs1 rs2 imm
  rw [← add_signExtended, ← BitVec.add_def, ← sub_eq_ofInt]
  exact ⟨writesRegister_of_writeBack rfl, writesRegister_of_writeBack rfl, writesRegister_of_writeBack rfl⟩

/-- Settles O30: each of the four ends in the word of a comparison, by the signed or the unsigned order, and the immediate is the number
of its sign extension. -/
theorem setLessThan : Obligations.SetLessThan := by
  intro s rd rs1 rs2 imm
  rw [← toInt_signExtended, ← toNat_signExtended]
  exact ⟨writesRegister_of_boolWord rfl isLessSigned_iff, writesRegister_of_boolWord rfl isLessUnsigned_iff,
    writesRegister_of_boolWord rfl isLessSigned_iff, writesRegister_of_boolWord rfl isLessUnsigned_iff⟩

/-- Settles O31: each of the six ends in a register result, whose bits are those of its operands combined. -/
theorem bitwiseLogic : Obligations.BitwiseLogic := by
  intro s rd rs1 rs2 imm a b m
  have ha : HasBits (s.reg rs1) a := hasBits_getLsbD _
  have hb : HasBits (s.reg rs2) b := hasBits_getLsbD _
  have hm : HasBits (signExtended imm) m := hasBits_signExtended imm
  exact ⟨⟨_, ha.xor hm, writesRegister_of_writeBack rfl⟩, ⟨_, ha.or hm, writesRegister_of_writeBack rfl⟩,
    ⟨_, ha.and hm, writesRegister_of_writeBack rfl⟩, ⟨_, ha.xor hb, writesRegister_of_writeBack rfl⟩,
    ⟨_, ha.or hb, writesRegister_of_writeBack rfl⟩, ⟨_, ha.and hb, writesRegister_of_writeBack rfl⟩⟩

/-- Settles O32: each of the three ends in a register result, of the shifted word, which is the product or the quotient. -/
theorem immediateShifts : Obligations.ImmediateShifts := by
  intro s rd rs1 shamt k
  rw [← shiftLeft_eq_ofNat, ← ushiftRight_eq_ofNat, ← sshiftRight_eq_ofInt]
  exact ⟨writesRegister_of_writeBack rfl, writesRegister_of_writeBack rfl, writesRegister_of_writeBack rfl⟩

end Sys2Proof.Machine
end

section
/-! SUPPORT. The register shifts of 46_op.md: their amount as a number (R200), and their statement by the words of 45_op_imm.md. -/

namespace Sys2Proof.Machine

/-! ## The shift amount as a number -/

/-- The low five bits of a word are its number modulo 32 (R200). -/
theorem shiftAmount_eq_mod (b : Word) : shiftAmount b = b.toNat % 32 := by
  simp only [shiftAmount, toNat_field, Nat.pow_zero, Nat.div_one, Nat.reducePow]

/-! ## The statement -/

/-- Settles O33: each of the three ends in a register result, of the word shifted by the amount, which is the product or the quotient. -/
theorem registerShifts : Obligations.RegisterShifts := by
  intro s rd rs1 rs2 k
  have hk : k = shiftAmount (s.reg rs2) := (shiftAmount_eq_mod _).symm
  rw [hk, ← shiftLeft_eq_ofNat, ← ushiftRight_eq_ofNat, ← sshiftRight_eq_ofInt]
  exact ⟨writesRegister_of_writeBack rfl, writesRegister_of_writeBack rfl, writesRegister_of_writeBack rfl⟩

end Sys2Proof.Machine
end

section
/-! SUPPORT. The statements of 47_muldiv.md: the truncated quotient and remainder by sign and magnitude, and the four division results as
numbers, the overflow case among them. -/

namespace Sys2Proof.Machine

/-! ## Sign and magnitude -/

/-- The quotient rounded toward zero (R222, D9): the signs' product times the quotient of the magnitudes. -/
theorem tdiv_eq_sign_mul_natAbs_div (a b : Int) : a.tdiv b = a.sign * b.sign * (a.natAbs / b.natAbs : Nat) := by
  have hmag : (a.tdiv b).natAbs = a.natAbs / b.natAbs := Int.natAbs_tdiv a b
  rw [← Int.sign_mul_natAbs (a.tdiv b), hmag, Int.sign_tdiv]
  split
  next hlt => simp [Nat.div_eq_of_lt hlt]
  next => rfl

/-- The remainder (R224): the dividend's sign times the remainder of the magnitudes. -/
theorem tmod_eq_sign_mul_natAbs_mod (a b : Int) : a.tmod b = a.sign * (a.natAbs % b.natAbs : Nat) := by
  rw [← Int.sign_mul_natAbs (a.tmod b), Int.natAbs_tmod, Int.sign_tmod]
  split
  next hdvd => simp [Nat.mod_eq_zero_of_dvd (Int.natAbs_dvd_natAbs.mpr hdvd)]
  next => rfl

/-! ## The results as numbers -/

/-- The overflow case (D8) needs no clause of its own: 2^31 is the word of -2^31. -/
theorem divSigned_of_ne_zero {a b : Word} (hb : b ≠ 0#32) : divSigned a b = BitVec.ofInt 32 (a.toInt.tdiv b.toInt) := by
  rw [divSigned, if_neg hb]
  split
  next hover => rw [hover.1, hover.2]; rfl
  next => rfl

/-- The overflow case (D8) needs no clause of its own: -2^31 is -1 times 2^31 exactly. -/
theorem remSigned_of_ne_zero {a b : Word} (hb : b ≠ 0#32) : remSigned a b = BitVec.ofInt 32 (a.toInt.tmod b.toInt) := by
  rw [remSigned, if_neg hb, Int.tmod_def]
  split
  next hover => rw [hover.1, hover.2]; rfl
  next => rfl

theorem divSigned_zero (a : Word) : divSigned a 0#32 = 0xFFFFFFFF#32 := if_pos rfl

theorem remSigned_zero (a : Word) : remSigned a 0#32 = a := if_pos rfl

theorem divSigned_eq_ite (a b : Word) : divSigned a b =
    if b = 0#32 then 0xFFFFFFFF#32 else BitVec.ofInt 32 (a.toInt.sign * b.toInt.sign * (a.toInt.natAbs / b.toInt.natAbs : Nat)) := by
  split
  next hb => rw [hb, divSigned_zero]
  next hb => rw [divSigned_of_ne_zero hb, tdiv_eq_sign_mul_natAbs_div]

theorem remSigned_eq_ite (a b : Word) : remSigned a b =
    if b = 0#32 then a else BitVec.ofInt 32 (a.toInt.sign * (a.toInt.natAbs % b.toInt.natAbs : Nat)) := by
  split
  next hb => rw [hb, remSigned_zero]
  next hb => rw [remSigned_of_ne_zero hb, tmod_eq_sign_mul_natAbs_mod]

/-! ## Dividend, divisor, quotient and remainder -/

/-- The dividend is the divisor times the quotient plus the remainder, on signed values (R224, D7, D8). -/
theorem mul_divSigned_add_remSigned (a b : Word) : b * divSigned a b + remSigned a b = a := by
  by_cases hb : b = 0#32
  · rw [hb, remSigned_zero, BitVec.zero_mul, BitVec.zero_add]
  · have hnum : b * divSigned a b + remSigned a b = BitVec.ofInt 32 (b.toInt * a.toInt.tdiv b.toInt + a.toInt.tmod b.toInt) := by
      rw [divSigned_of_ne_zero hb, remSigned_of_ne_zero hb, BitVec.ofInt_add, BitVec.ofInt_mul, BitVec.ofInt_toInt]
    rw [hnum, Int.mul_tdiv_add_tmod, BitVec.ofInt_toInt]

/-- The dividend is the divisor times the quotient plus the remainder, on unsigned values (R225, D7). -/
theorem mul_divUnsigned_add_remUnsigned (a b : Word) : b * divUnsigned a b + remUnsigned a b = a := by
  by_cases hb : b = 0#32
  · rw [hb, BitVec.zero_mul, BitVec.zero_add, remUnsigned, if_pos rfl]
  · have hnum : b * divUnsigned a b + remUnsigned a b = BitVec.ofNat 32 (b.toNat * (a.toNat / b.toNat) + a.toNat % b.toNat) := by
      rw [divUnsigned, remUnsigned, if_neg hb, if_neg hb, BitVec.ofNat_add, BitVec.ofNat_mul, BitVec.ofNat_toNat, BitVec.setWidth_eq]
    rw [hnum, Nat.div_add_mod, BitVec.ofNat_toNat, BitVec.setWidth_eq]

/-! ## The product -/

/-- The low 32 bits of the product are those of the signed operands' (R221). -/
theorem mul_eq_ofInt (a b : Word) : a * b = BitVec.ofInt 32 (a.toInt * b.toInt) := by
  rw [BitVec.ofInt_mul, BitVec.ofInt_toInt, BitVec.ofInt_toInt]

/-- The low 32 bits of the product are those of the unsigned operands' (R221). -/
theorem mul_eq_ofNat (a b : Word) : a * b = BitVec.ofNat 32 (a.toNat * b.toNat) := by
  rw [BitVec.ofNat_mul, BitVec.ofNat_toNat, BitVec.ofNat_toNat, BitVec.setWidth_eq, BitVec.setWidth_eq]

/-! ## The statements -/

/-- Settles O35: both end in a register result, which is the model's quotient or remainder by sign and magnitude. -/
theorem signedDivision : Obligations.SignedDivision := by
  intro s rd rs1 rs2 a b
  rw [← divSigned_eq_ite, ← remSigned_eq_ite]
  exact ⟨writesRegister_of_writeBack rfl, writesRegister_of_writeBack rfl⟩

/-- Settles O37: signed and unsigned, a zero divisor leaves the dividend as the remainder, and any other divides. -/
theorem divisionIdentity : Obligations.DivisionIdentity :=
  fun a b => ⟨(mul_divSigned_add_remSigned a b).symm, (mul_divUnsigned_add_remUnsigned a b).symm⟩

/-- Settles O34: the product ends in a register result, and is the same word from signed and from unsigned operands. -/
theorem multiply : Obligations.Multiply := by
  intro s rd rs1 rs2
  rw [← mul_eq_ofInt, ← mul_eq_ofNat]
  exact ⟨writesRegister_of_writeBack rfl, writesRegister_of_writeBack rfl⟩

/-- Settles O36: both end in a register result, and the model's quotient and remainder are stated as they are defined. -/
theorem unsignedDivision : Obligations.UnsignedDivision :=
  fun _ _ _ _ => ⟨writesRegister_of_writeBack rfl, writesRegister_of_writeBack rfl⟩

end Sys2Proof.Machine
end

section
/-! SUPPORT. The render pass of 48_gpu.md: the strategy each MODE selects, what it leaves in the framebuffer and in video memory, and what
is handed to the host. -/

namespace Sys2Proof.Machine

/-! ## The strategy MODE selects (R240, R244) -/

section Mode
variable {s : State}

theorem State.render_of_framebufferMode (h : s.modeField = 0#32) : s.render = s.renderFramebuffer.present := by
  rw [State.render, if_pos h]

theorem State.render_of_tilemapMode (h : s.modeField = 1#32) : s.render = s.renderTilemap.present := by
  rw [State.render, h, if_neg (by decide), if_pos rfl]

theorem State.render_of_commandMode (h : s.modeField = 2#32) : s.render = s.renderCommand.present := by
  rw [State.render, h, if_neg (by decide), if_neg (by decide), if_pos rfl]

/-- A MODE above 2 selects no strategy (R244, D27). -/
theorem State.render_of_mode_gt_two (h : s.modeField.toNat > 2) : s.render = s.present := by
  have hne (m : Word) (hm : m.toNat ≤ 2) : s.modeField ≠ m := fun he => by rw [he] at h; omega
  rw [State.render, if_neg (hne 0#32 (by decide)), if_neg (hne 1#32 (by decide)), if_neg (hne 2#32 (by decide))]

end Mode

/-! ## What is handed over (R243) -/

theorem State.present_out (s : State) : s.present.out = s.out ++ [.present (pixelBuffer s.fb) screenWidth screenHeight] := rfl

/-- Whatever the mode, the buffer handed over is that of the framebuffer as the pass leaves it. -/
theorem State.render_out (s : State) : s.render.out = s.out ++ [.present (pixelBuffer s.render.fb) screenWidth screenHeight] := by
  rcases s.render_cases with ⟨-, h⟩ | ⟨-, h⟩ | ⟨-, h⟩ | ⟨-, -, -, h⟩ <;> rw [h, State.present_out, State.present_fb]
  · rw [State.renderFramebuffer_out]
  · rw [State.renderTilemap_out]
  · rw [State.renderCommand_out]

theorem pixelBuffer_length (fb : Memory 32) : (pixelBuffer fb).length = screenPixels := by
  rw [pixelBuffer, List.length_map, List.length_range]

/-! ## Video memory after a pass (R262) -/

theorem State.renderCommand_of_cmd_zero {s : State} (h : s.cmdField = 0#32) : s.renderCommand = s := if_pos h

theorem State.renderCommand_of_cmd_ne_zero {s : State} (h : s.cmdField ≠ 0#32) :
    s.renderCommand = { s with fb := s.primitive, vram := s.clearedCmd } := if_neg h

/-- Only an armed command writes video memory. -/
theorem State.render_vram_of_idle {s : State} (h : s.modeField ≠ 2#32 ∨ s.cmdField = 0#32) : s.render.vram = s.vram := by
  rcases s.render_cases with ⟨-, hr⟩ | ⟨-, hr⟩ | ⟨hmode, hr⟩ | ⟨-, -, -, hr⟩ <;> rw [hr, State.present_vram]
  · rw [State.renderFramebuffer_vram]
  · rw [State.renderTilemap_vram]
  · rw [State.renderCommand_of_cmd_zero (h.resolve_left (not_not_intro hmode))]

theorem State.render_vram_of_command {s : State} (hmode : s.modeField = 2#32) (hcmd : s.cmdField ≠ 0#32) :
    s.render.vram = s.clearedCmd := by
  rw [State.render_of_commandMode hmode, State.present_vram, State.renderCommand_of_cmd_ne_zero hcmd]

/-- Cleared, CMD reads as the word 0. -/
theorem read32_clearedCmd {s : State} (h : s.Inv) : s.clearedCmd.read32 s.cfg.cmdOff = 0#32 := by
  have hbyte (k : Nat) (hk : k < 4) : s.clearedCmd.read (s.cfg.cmdOff + k) = 0#8 := by
    rw [read_clearedCmd h, if_pos (by omega)]
  have hfirst : s.clearedCmd.read s.cfg.cmdOff = 0#8 := hbyte 0 (by decide)
  rw [Memory.read32, hbyte 3 (by decide), hbyte 2 (by decide), hbyte 1 (by decide), hfirst]
  rfl

/-- A pass that leaves video memory alone changes the framebuffer and the log only. -/
theorem State.render_eq_of_vram {s : State} (h : s.render.vram = s.vram) :
    s.render = { s with fb := s.render.fb, out := s.render.out } :=
  s.render_eq.trans (by rw [h])

/-! ## The framebuffer after a pass -/

/-- A picture's pixel (x, y) is its function at 160 y + x (R40). -/
theorem read_picture_screen (f : Nat → Word) {x y : Nat} (hx : x < 160) (hy : y < 144) :
    (picture f).read (160 * y + x) = f (160 * y + x) := by
  have hindex : 160 * y + x < screenPixels := by simp only [screenPixels]; omega
  rw [read_picture, if_pos hindex]

theorem State.render_fb_of_framebufferMode {s : State} (h : s.modeField = 0#32) : s.render.fb = picture s.framebufferPixel := by
  rw [State.render_of_framebufferMode h, State.present_fb, State.renderFramebuffer]

theorem State.render_fb_of_tilemapMode {s : State} (h : s.modeField = 1#32) : s.render.fb = picture s.tilemapPixel := by
  rw [State.render_of_tilemapMode h, State.present_fb, State.renderTilemap]

/-- The tilemap's pixel at screen position (x, y) is the plane's at the wrapped scrolled position (R250, D25). -/
theorem State.tilemapPixel_screen (s : State) {x y px py : Nat} (hx : x < 160) (hpx : (px : Int) = (x + s.scrollX) % 320)
    (hpy : (py : Int) = (y + s.scrollY) % 240) : s.tilemapPixel (160 * y + x) = s.planePixel px py := by
  have hcol : (160 * y + x) % screenWidth = x := by simp only [screenWidth]; omega
  have hrow : (160 * y + x) / screenWidth = y := by simp only [screenWidth]; omega
  rw [State.tilemapPixel, hcol, hrow, ← hpx, ← hpy, Int.toNat_natCast, Int.toNat_natCast]

/-- A pass in mode 2 leaves what the armed primitive drew; CMD 0 arms none (R260). -/
theorem State.render_fb_of_commandMode {s : State} (h : s.modeField = 2#32) : s.render.fb = s.primitive := by
  rw [State.render_of_commandMode h, State.present_fb]
  by_cases hcmd : s.cmdField = 0#32
  · rw [State.renderCommand_of_cmd_zero hcmd, State.primitive, hcmd, if_neg (by decide), if_neg (by decide)]
  · rw [State.renderCommand_of_cmd_ne_zero hcmd]

/-! ## The statements -/

/-- Settles O45: mode 0 leaves the picture of the words of video memory, and video memory as it was. -/
theorem framebufferModeCopiesVideoMemory : Obligations.FramebufferModeCopiesVideoMemory := by
  intro s (hmode : s.modeField = 0#32)
  have hidle : s.modeField ≠ 2#32 := by rw [hmode]; decide
  refine ⟨fun x y hx hy => ?_, State.render_eq_of_vram (State.render_vram_of_idle (.inl hidle))⟩
  rw [State.render_fb_of_framebufferMode hmode, read_picture_screen _ hx hy, State.framebufferPixel]

/-- Settles O46: mode 1 leaves the picture of the scrolled plane, and video memory as it was. -/
theorem tilemapModeShowsThePlane : Obligations.TilemapModeShowsThePlane := by
  intro s (hmode : s.modeField = 1#32)
  have hidle : s.modeField ≠ 2#32 := by rw [hmode]; decide
  refine ⟨fun x y hx hy px py hpx hpy => ?_, State.render_eq_of_vram (State.render_vram_of_idle (.inl hidle))⟩
  rw [State.render_fb_of_tilemapMode hmode, read_picture_screen _ hx hy, State.tilemapPixel_screen s hx hpx hpy]
  rfl

/-- Settles O47: mode 2 leaves the armed primitive, whose code decides what it draws. -/
theorem commandModeDrawsOnePrimitive : Obligations.CommandModeDrawsOnePrimitive := by
  intro s (hmode : s.modeField = 2#32) cmd col p
  rw [State.render_fb_of_commandMode hmode]
  refine ⟨fun (hline : s.cmdField = 1#32) => ?line, fun (htriangle : s.cmdField = 2#32) => ?triangle,
    fun (h1 : s.cmdField ≠ 1#32) (h2 : s.cmdField ≠ 2#32) => ?none⟩
  case line => rw [State.primitive, if_pos hline]; rfl
  case triangle => rw [State.primitive, htriangle, if_neg (by decide), if_pos rfl]; rfl
  case none => rw [State.primitive, if_neg h1, if_neg h2]

/-- Settles O48: an armed command clears the four bytes of CMD, which the Bus reads too, and no other pass writes video memory. -/
theorem commandIsAcknowledged : Obligations.CommandIsAcknowledged := by
  intro s hs
  refine ⟨fun hmode hcmd => ?acknowledged, State.render_vram_of_idle⟩
  case acknowledged =>
    have hfit : s.cfg.cmdOff + 4 ≤ arrayBytes := by
      obtain ⟨-, -, -, hfields, -⟩ := hs.cfg
      exact hfields (s.cfg.cmdOff, 4) (by simp [Config.controlFields])
    have hvram := State.render_vram_of_command hmode hcmd
    have hbus := controlFieldsAreVideoMemory s.render s.cfg.cmdOff (by rw [State.render_cfg]; exact hs.cfg) hfit
    rw [State.render_cfg, hvram, read32_clearedCmd hs] at hbus
    rw [hvram]
    exact ⟨read32_clearedCmd hs, hbus, fun o ho => by rw [read_clearedCmd hs, if_neg (by omega)]⟩

/-- Settles O49: every strategy is followed by the one hand-over, and a MODE above 2 by nothing else. -/
theorem everyPassPresentsTheFramebuffer : Obligations.EveryPassPresentsTheFramebuffer := by
  intro s
  refine ⟨⟨pixelBuffer s.render.fb, s.render_out, pixelBuffer_length _, fun x y hx hy => ?pixel⟩, s.render_eq,
    fun (hmode : s.modeField.toNat > 2) => ?other⟩
  case pixel => exact pixelBuffer_get _ _ (by simp only [screenPixels]; omega)
  case other =>
    rw [State.render_of_mode_gt_two hmode]
    exact ⟨State.present_fb s, State.present_vram s⟩

end Sys2Proof.Machine
end

section
/-! SUPPORT. The line of 48_gpu.md R271: its trace, measured in steps made along each axis, and the pixels it writes. -/

namespace Sys2Proof.Machine

/-! ## Steps along an axis -/

/-- The sign of a step of the trace from a to b along one axis, as `linePoints` takes it. -/
def stepSign (a b : Int) : Int := if a < b then 1 else -1

/-- Steps made from a towards b, not past it, are the difference's sign times their number. -/
theorem stepSign_mul {a b : Int} {i : Nat} (hi : i ≤ (b - a).natAbs) : stepSign a b * i = (b - a).sign * i := by
  rw [stepSign]
  rcases lt_trichotomy a b with h | h | h
  · rw [if_pos h, Int.sign_eq_one_of_pos (Int.sub_pos.mpr h)]
  · obtain rfl : i = 0 := by omega
    simp
  · rw [if_neg (by omega), Int.sign_eq_neg_one_of_neg (by omega)]

/-- The steps reach b when there are as many as the two differ by, and not before. -/
theorem add_stepSign_mul_eq_iff (a b : Int) (i : Nat) : a + stepSign a b * i = b ↔ i = (b - a).natAbs := by
  rw [stepSign]
  split <;> omega

/-! ## Where a trace is after k steps -/

/-- i steps in x and j in y are where a Bresenham trace of extents dx and dy may be after k steps: k steps along the longer axis, and
within half a pixel of the ideal line along the other. -/
structure OnTrace (dx dy k i j : Nat) : Prop where
  xMajor : dy ≤ dx → i = k
  yMajor : dx ≤ dy → j = k
  near : 2 * ((j : Int) * dx - i * dy).natAbs ≤ max dx dy
  iLe : i ≤ dx
  jLe : j ≤ dy

theorem OnTrace.start (dx dy : Nat) : OnTrace dx dy 0 0 0 :=
  ⟨fun _ => rfl, fun _ => rfl, by simp, Nat.zero_le _, Nat.zero_le _⟩

/-- With at most a steps made along the longer axis, at most b of the shorter axis are within half a pixel. -/
theorem minor_le {a b i j : Nat} (ha : 0 < a) (hi : i ≤ a) (hnear : 2 * ((j : Int) * a - i * b).natAbs ≤ a) : j ≤ b := by
  by_contra hlt
  have hj : (b + 1) * a ≤ j * a := Nat.mul_le_mul_right a (by omega)
  have hib : i * b ≤ a * b := Nat.mul_le_mul_right b hi
  rw [Nat.add_mul, Nat.mul_comm b a] at hj
  zify at hj hib
  omega

/-- Neither axis is past its end while the longer one is not and the other is within half a pixel. -/
theorem le_of_near {dx dy k i j : Nat} (hpos : 0 < k) (hk : k ≤ max dx dy) (hx : dy ≤ dx → i = k) (hy : dx ≤ dy → j = k)
    (hnear : 2 * ((j : Int) * dx - i * dy).natAbs ≤ max dx dy) : i ≤ dx ∧ j ≤ dy := by
  wlog hmajor : dy ≤ dx generalizing dx dy i j
  · rw [Nat.max_comm] at hk hnear
    rw [← Int.natAbs_neg, neg_sub] at hnear
    exact (this hk hy hx hnear (by omega)).symm
  · rw [Nat.max_eq_left hmajor] at hk hnear
    have hi : i ≤ dx := (hx hmajor).trans_le hk
    exact ⟨hi, minor_le (hpos.trans_le hk) hi hnear⟩

/-- With all a steps made along the longer axis, all b of the shorter axis are. -/
theorem minor_eq {a b j : Nat} (ha : 0 < a) (hnear : 2 * ((j : Int) * a - a * b).natAbs ≤ a) : j = b := by
  refine Nat.le_antisymm (minor_le ha (Nat.le_refl a) hnear) (Nat.le_of_not_lt fun hlt => ?_)
  have hj : (j + 1) * a ≤ b * a := Nat.mul_le_mul_right a hlt
  rw [Nat.add_mul, Nat.mul_comm b a] at hj
  zify at hj
  omega

/-- `OnTrace` reads the same with the axes exchanged. -/
theorem OnTrace.swap {dx dy k i j : Nat} (h : OnTrace dx dy k i j) : OnTrace dy dx k j i :=
  ⟨h.yMajor, h.xMajor, by rw [Nat.max_comm, ← Int.natAbs_neg, neg_sub]; exact h.near, h.jLe, h.iLe⟩

/-- A trace is at its first point only when no step has been made. -/
theorem OnTrace.eq_zero {dx dy i j : Nat} (h : OnTrace dx dy 0 i j) : i = 0 ∧ j = 0 := by
  wlog hmajor : dy ≤ dx generalizing dx dy i j
  · exact (this h.swap (by omega)).symm
  obtain rfl := h.xMajor hmajor
  refine ⟨rfl, ?_⟩
  rcases Nat.eq_zero_or_pos dx with h0 | hpos
  · have := h.jLe; omega
  · have hnear := h.near
    rw [Nat.max_eq_left hmajor] at hnear
    exact Nat.le_zero.mp (minor_le (b := 0) (i := 0) hpos (Nat.zero_le _) (by simpa using hnear))

/-- After as many steps as the longer extent the trace has reached the end of both axes. -/
theorem OnTrace.eq_end {dx dy i j : Nat} (h : OnTrace dx dy (max dx dy) i j) : i = dx ∧ j = dy := by
  wlog hmajor : dy ≤ dx generalizing dx dy i j
  · exact (this (by rw [Nat.max_comm]; exact h.swap) (by omega)).symm
  have hnear := h.near
  rw [Nat.max_eq_left hmajor] at hnear h
  obtain rfl := h.xMajor hmajor
  refine ⟨rfl, ?_⟩
  rcases Nat.eq_zero_or_pos i with h0 | hpos
  · have := h.jLe; omega
  · exact minor_eq hpos hnear

/-- Before that it has not. -/
theorem OnTrace.not_end {dx dy k i j : Nat} (h : OnTrace dx dy k i j) (hk : k < max dx dy) : ¬(i = dx ∧ j = dy) := by
  have hx := h.xMajor
  have hy := h.yMajor
  omega

/-! ## One step of the trace -/

/-- The error term of R271 when i steps in x and j in y have been made. -/
def lineErr (dx dy i j : Nat) : Int := dx * (j + 1) - dy * (i + 1)

/-- The steps made in x after the next step, whose condition is R271's. -/
def nextX (dx dy i j : Nat) : Nat := if 2 * lineErr dx dy i j ≥ -(dy : Int) then i + 1 else i

/-- The steps made in y after the next step. -/
def nextY (dx dy i j : Nat) : Nat := if 2 * lineErr dx dy i j ≤ (dx : Int) then j + 1 else j

theorem lineErr_eq (dx dy i j : Nat) : lineErr dx dy i j = ((j : Int) * dx - i * dy) + dx - dy := by
  rw [lineErr]; ring

/-- A step adds -dy to the error term for a step in x and dx for one in y. -/
theorem lineErr_next (dx dy i j : Nat) : lineErr dx dy (nextX dx dy i j) (nextY dx dy i j) =
    lineErr dx dy i j + (if 2 * lineErr dx dy i j ≥ -(dy : Int) then -(dy : Int) else 0) +
      (if 2 * lineErr dx dy i j ≤ (dx : Int) then (dx : Int) else 0) := by
  unfold nextX nextY
  split_ifs <;> simp only [lineErr] <;> push_cast <;> ring

/-- A step keeps the trace within half a pixel: the longer axis always steps, and the other when the error would else exceed the
half. -/
theorem OnTrace.next {dx dy k i j : Nat} (h : OnTrace dx dy k i j) (hk : k < max dx dy) :
    OnTrace dx dy (k + 1) (nextX dx dy i j) (nextY dx dy i j) := by
  obtain ⟨hx, hy, hnear, hi, hj⟩ := h
  have herr := lineErr_eq dx dy i j
  have hxMajor : dy ≤ dx → nextX dx dy i j = k + 1 := by
    intro hmajor
    rw [nextX, if_pos (by omega), hx hmajor]
  have hyMajor : dx ≤ dy → nextY dx dy i j = k + 1 := by
    intro hmajor
    rw [nextY, if_pos (by omega), hy hmajor]
  have hnear' : 2 * ((nextY dx dy i j : Int) * dx - nextX dx dy i j * dy).natAbs ≤ max dx dy := by
    have hoff := lineErr_next dx dy i j
    rw [lineErr_eq dx dy (nextX dx dy i j)] at hoff
    generalize (nextY dx dy i j : Int) * dx - nextX dx dy i j * dy = offNext at hoff ⊢
    generalize (j : Int) * dx - i * dy = off at herr hnear
    clear hxMajor hyMajor hx hy hi hj
    split_ifs at hoff <;> omega
  obtain ⟨hi', hj'⟩ := le_of_near (Nat.succ_pos k) hk hxMajor hyMajor hnear'
  exact ⟨hxMajor, hyMajor, hnear', hi', hj'⟩

/-! ## The model's trace -/

/-- The point of the line from p to q after i steps in x and j in y. -/
def stepPoint (p q : Point) (i j : Nat) : Point := (p.1 + stepSign p.1 q.1 * i, p.2 + stepSign p.2 q.2 * j)

/-- The model's trace from the point after i steps in x and j in y on. -/
def traceFrom (p q : Point) (fuel i j : Nat) : List Point :=
  lineLoop q.1 q.2 (q.1 - p.1).natAbs (-(q.2 - p.2).natAbs) (stepSign p.1 q.1) (stepSign p.2 q.2) fuel (stepPoint p q i j).1
    (stepPoint p q i j).2 (lineErr (q.1 - p.1).natAbs (q.2 - p.2).natAbs i j)

theorem linePoints_eq_traceFrom (p q : Point) : linePoints p q = traceFrom p q (lineSteps p q) 0 0 := by
  simp [linePoints, traceFrom, stepPoint, stepSign, lineErr, Int.sub_eq_add_neg]

theorem traceFrom_zero (p q : Point) (i j : Nat) : traceFrom p q 0 i j = [stepPoint p q i j] := rfl

/-- While the end is not reached, the trace goes on with the next step. -/
theorem traceFrom_succ {p q : Point} {fuel i j : Nat} (h : ¬(i = (q.1 - p.1).natAbs ∧ j = (q.2 - p.2).natAbs)) :
    traceFrom p q (fuel + 1) i j = stepPoint p q i j :: traceFrom p q fuel
      (nextX (q.1 - p.1).natAbs (q.2 - p.2).natAbs i j) (nextY (q.1 - p.1).natAbs (q.2 - p.2).natAbs i j) := by
  have hend : ¬((stepPoint p q i j).1 = q.1 ∧ (stepPoint p q i j).2 = q.2) := by
    rw [stepPoint, add_stepSign_mul_eq_iff, add_stepSign_mul_eq_iff]
    exact h
  rw [traceFrom, lineLoop, if_neg hend, traceFrom, lineErr_next]
  simp only [decide_eq_true_eq, stepPoint, nextX, nextY]
  congr 2 <;> split_ifs <;> push_cast <;> ring

/-- The trace from a point on it: as many points more as steps are left, each where a Bresenham trace may be. -/
theorem traceFrom_onTrace {p q : Point} (fuel : Nat) {k i j : Nat} (h : OnTrace (q.1 - p.1).natAbs (q.2 - p.2).natAbs k i j)
    (hfuel : k + fuel = lineSteps p q) :
    (traceFrom p q fuel i j).length = fuel + 1 ∧
    ∀ (m : Nat) (pt : Point), (traceFrom p q fuel i j)[m]? = some pt →
      ∃ i' j', OnTrace (q.1 - p.1).natAbs (q.2 - p.2).natAbs (k + m) i' j' ∧ pt = stepPoint p q i' j' := by
  induction fuel generalizing k i j with
  | zero =>
    rw [traceFrom_zero]
    refine ⟨rfl, fun m pt hm => ?_⟩
    obtain ⟨rfl, rfl⟩ : m = 0 ∧ stepPoint p q i j = pt := by simpa [List.getElem?_singleton] using hm
    exact ⟨i, j, h, rfl⟩
  | succ fuel ih =>
    have hk : k < max (q.1 - p.1).natAbs (q.2 - p.2).natAbs := by rw [lineSteps] at hfuel; omega
    obtain ⟨hlength, hpoints⟩ := ih (h.next hk) (by omega)
    rw [traceFrom_succ (h.not_end hk)]
    refine ⟨by rw [List.length_cons, hlength], fun m pt hm => ?_⟩
    cases m with
    | zero => exact ⟨i, j, h, (Option.some.inj hm).symm⟩
    | succ m =>
      obtain ⟨i', j', hon, hpt⟩ := hpoints m pt hm
      exact ⟨i', j', by rwa [Nat.add_right_comm] at hon, hpt⟩

/-! ## The points of a line -/

theorem linePoints_length (p q : Point) : (linePoints p q).length = lineSteps p q + 1 := by
  rw [linePoints_eq_traceFrom]
  exact (traceFrom_onTrace _ (OnTrace.start _ _) (Nat.zero_add _)).1

/-- The k-th point of a line is one a Bresenham trace may be at after k steps. -/
theorem linePoints_get {p q : Point} {k : Nat} {pt : Point} (h : (linePoints p q)[k]? = some pt) :
    ∃ i j, OnTrace (q.1 - p.1).natAbs (q.2 - p.2).natAbs k i j ∧ pt = stepPoint p q i j := by
  rw [linePoints_eq_traceFrom] at h
  obtain ⟨i, j, hon, hpt⟩ := (traceFrom_onTrace _ (OnTrace.start _ _) (Nat.zero_add _)).2 k pt h
  exact ⟨i, j, by rwa [Nat.zero_add] at hon, hpt⟩

/-- There is a k-th point for every k up to the number of steps. -/
theorem exists_linePoints_get (p q : Point) {k : Nat} (hk : k ≤ lineSteps p q) : ∃ pt, (linePoints p q)[k]? = some pt :=
  ⟨_, List.getElem?_eq_getElem (by rw [linePoints_length]; omega)⟩

theorem stepPoint_zero (p q : Point) : stepPoint p q 0 0 = p := by simp [stepPoint]

theorem stepPoint_end (p q : Point) : stepPoint p q (q.1 - p.1).natAbs (q.2 - p.2).natAbs = q :=
  Prod.ext ((add_stepSign_mul_eq_iff _ _ _).mpr rfl) ((add_stepSign_mul_eq_iff _ _ _).mpr rfl)

theorem linePoints_first (p q : Point) : (linePoints p q)[0]? = some p := by
  obtain ⟨pt, hpt⟩ := exists_linePoints_get p q (Nat.zero_le _)
  obtain ⟨i, j, hon, rfl⟩ := linePoints_get hpt
  obtain ⟨rfl, rfl⟩ := hon.eq_zero
  rw [hpt, stepPoint_zero]

theorem linePoints_last (p q : Point) : (linePoints p q)[lineSteps p q]? = some q := by
  obtain ⟨pt, hpt⟩ := exists_linePoints_get p q (Nat.le_refl _)
  obtain ⟨i, j, hon, rfl⟩ := linePoints_get hpt
  obtain ⟨rfl, rfl⟩ := hon.eq_end
  rw [hpt, stepPoint_end]

/-! ## The statements -/

/-- Settles O50: by induction over the trace every point is where a Bresenham trace may be, and where the longer axis has no step or
all its steps that is p or q. -/
theorem lineTraceIsBresenham : Obligations.LineTraceIsBresenham := by
  intro p q dx dy
  refine ⟨linePoints_length p q, linePoints_first p q, linePoints_last p q, fun k pt hk => ?_⟩
  obtain ⟨i, j, hon, rfl⟩ := linePoints_get hk
  refine ⟨i, j, hon.iLe, hon.jLe, ?_, hon.xMajor, hon.yMajor, hon.near⟩
  rw [stepPoint, stepSign_mul hon.iLe, stepSign_mul hon.jLe]

/-- Settles O51: a line is a plot of each point of its trace. -/
theorem lineWritesItsTrace : Obligations.LineWritesItsTrace := by
  intro fb p q col hfb x y hx hy
  rw [drawLine, read_plotAll hfb _ col hx hy]
  exact ⟨fun hon => if_pos hon, fun hoff => if_neg hoff⟩

end Sys2Proof.Machine
end

section
/-! SUPPORT. The filled triangle of 48_gpu.md R272 and R273: the pixels of a span, the spans of a triangle, and the x of an edge. -/

namespace Sys2Proof.Machine

/-! ## The pixels of a span -/

/-- A horizontal line covers both its ends and every point between them. -/
theorem mem_horizontal_linePoints {xl xs y : Int} {pt : Point} :
    pt ∈ linePoints (xl, y) (xs, y) ↔ pt.2 = y ∧ min xl xs ≤ pt.1 ∧ pt.1 ≤ max xl xs := by
  have hflat : (y - y).natAbs = 0 := by omega
  constructor
  · intro h
    obtain ⟨k, hk⟩ := List.mem_iff_getElem?.mp h
    obtain ⟨i, j, hon, rfl⟩ := linePoints_get hk
    have hi := hon.iLe
    obtain rfl : j = 0 := Nat.le_zero.mp (hon.jLe.trans_eq hflat)
    simp only [stepPoint, stepSign, Nat.cast_zero, Int.mul_zero, Int.add_zero, true_and] at hi ⊢
    split <;> omega
  · obtain ⟨x, y'⟩ := pt
    rintro ⟨rfl, hlo, hhi⟩
    obtain ⟨pt, hpt⟩ := exists_linePoints_get (xl, y') (xs, y') (k := (x - xl).natAbs)
      (by simp only [lineSteps]; omega)
    obtain ⟨i, j, hon, rfl⟩ := linePoints_get hpt
    obtain rfl := hon.xMajor (by simp only [hflat, Nat.zero_le])
    obtain rfl : j = 0 := Nat.le_zero.mp (hon.jLe.trans_eq hflat)
    have hpoint : stepPoint (xl, y') (xs, y') (x - xl).natAbs 0 = (x, y') := by
      simp only [stepPoint, stepSign, Nat.cast_zero, Int.mul_zero, Int.add_zero, Prod.mk.injEq, and_true]
      split <;> omega
    rw [hpoint] at hpt
    exact List.mem_of_getElem? hpt

/-- The points a span is drawn through (R272). -/
def Span.points (sp : Span) : List Point := linePoints (sp.xl, sp.y) (sp.xs, sp.y)

theorem Span.mem_points {sp : Span} {pt : Point} :
    pt ∈ sp.points ↔ pt.2 = sp.y ∧ min sp.xl sp.xs ≤ pt.1 ∧ pt.1 ≤ max sp.xl sp.xs := mem_horizontal_linePoints

/-- Drawing spans one after the other plots all their points. -/
theorem foldl_drawSpan (sps : List Span) (fb : Memory 32) (col : Word) :
    sps.foldl (fun f sp => drawSpan f sp col) fb = plotAll fb (sps.flatMap Span.points) col := by
  rw [plotAll, List.foldl_flatMap]
  rfl

/-! ## The vertices in order of y -/

/-- At three different heights there is one order by y, whatever order the vertices are given in. -/
theorem sortByY_of_perm {a b c v0 v1 v2 : Point} (h01 : v0.2 < v1.2) (h12 : v1.2 < v2.2) (h : List.Perm [a, b, c] [v0, v1, v2]) :
    sortByY [a, b, c] = [v0, v1, v2] := by
  have hsorted : [v0, v1, v2].Pairwise (fun p q : Point => p.2 ≤ q.2) := by
    simp only [List.pairwise_cons, List.mem_cons, List.not_mem_nil, or_false, forall_eq_or_imp, forall_eq]
    refine ⟨⟨h01.le, (h01.trans h12).le⟩, h12.le, nofun, List.Pairwise.nil⟩
  have hone : ∀ p ∈ [v0, v1, v2], ∀ q ∈ [v0, v1, v2], p.2 ≤ q.2 → q.2 ≤ p.2 → p = q := by
    simp only [List.mem_cons, List.not_mem_nil, or_false]
    rintro p (rfl | rfl | rfl) q (rfl | rfl | rfl) hpq hqp <;> first | rfl | omega
  rw [sortByY_eq]
  have hperm := (List.perm_insertionSort (fun p q : Point => p.2 ≤ q.2) [a, b, c]).trans h
  exact hperm.eq_of_pairwise (fun p q hp hq => hone p (hperm.mem_iff.mp hp) q hq)
    (List.pairwise_insertionSort _ _) hsorted

/-! ## The spans -/

theorem triangleSpans_of_sorted {a b c v0 v1 v2 : Point} (h : sortByY [a, b, c] = [v0, v1, v2]) :
    triangleSpans a b c = spansSorted v0 v1 v2 := by
  rw [triangleSpans, h]

/-- Sorted vertices rise. -/
theorem le_of_sortByY {a b c v0 v1 v2 : Point} (h : sortByY [a, b, c] = [v0, v1, v2]) : v0.2 ≤ v2.2 := by
  have hsorted := List.pairwise_insertionSort (fun p q : Point => p.2 ≤ q.2) [a, b, c]
  rw [← sortByY_eq, h] at hsorted
  exact List.rel_of_pairwise_cons hsorted (by simp)

section Spans
variable {v0 v1 v2 : Point}

theorem spansSorted_flat (h : v0.2 = v2.2) :
    spansSorted v0 v1 v2 = [⟨min v0.1 (min v1.1 v2.1), max v0.1 (max v1.1 v2.1), v0.2⟩] := if_pos h

theorem spansSorted_tall (h : v0.2 ≠ v2.2) : spansSorted v0 v1 v2 =
    (List.range ((v2.2 - v0.2).toNat + 1)).map fun (k : Nat) => spanAt v0 v1 v2 (v0.2 + (k : Int)) := if_neg h

/-- One span follows the other downward. -/
theorem spansSorted_pairwise (h : v0.2 ≠ v2.2) : (spansSorted v0 v1 v2).Pairwise (fun sp sp' => sp.y < sp'.y) := by
  rw [spansSorted_tall h, List.pairwise_map]
  exact List.pairwise_lt_range.imp fun hlt => Int.add_lt_add_left (Int.ofNat_lt.mpr hlt) _

/-- The spans are those of the scanlines from the top vertex to the bottom one. -/
theorem mem_spansSorted (h : v0.2 ≠ v2.2) (hle : v0.2 ≤ v2.2) (sp : Span) :
    sp ∈ spansSorted v0 v1 v2 ↔ v0.2 ≤ sp.y ∧ sp.y ≤ v2.2 ∧ sp = spanAt v0 v1 v2 sp.y := by
  rw [spansSorted_tall h, List.mem_map]
  constructor
  · rintro ⟨k, hk, rfl⟩
    have hk := List.mem_range.mp hk
    refine ⟨?_, ?_, rfl⟩ <;> simp only [spanAt] <;> omega
  · rintro ⟨hlo, hhi, hsp⟩
    refine ⟨(sp.y - v0.2).toNat, List.mem_range.mpr (by omega), ?_⟩
    rw [Int.toNat_of_nonneg (by omega), add_sub_cancel, ← hsp]

theorem eq_spanAt_iff (sp : Span) : sp = spanAt v0 v1 v2 sp.y ↔
    sp.xl = edgeX v0 v2 sp.y ∧ sp.xs = if sp.y ≤ v1.2 ∧ v0.2 < v1.2 then edgeX v0 v1 sp.y else edgeX v1 v2 sp.y := by
  obtain ⟨xl, xs, y⟩ := sp
  simp [spanAt]

end Spans

/-! ## The x of an edge (R272, D32) -/

/-- The x of an edge is within one of the exact interpolation: what rounding drops is less than the divisor. -/
theorem edgeX_error_lt {p q : Point} (h : p.2 ≠ q.2) (y : Int) :
    (p.1 * (q.2 - p.2) + (y - p.2) * (q.1 - p.1) - edgeX p q y * (q.2 - p.2)).natAbs < (q.2 - p.2).natAbs := by
  rw [edgeX, Int.mul_comm (Int.tdiv _ _), ← Int.tmod_def, Int.natAbs_tmod]
  exact Nat.mod_lt _ (by omega)

/-- The x of an edge is no farther from 0 than the exact interpolation. -/
theorem edgeX_mul_natAbs_le (p q : Point) (y : Int) :
    (edgeX p q y * (q.2 - p.2)).natAbs ≤ (p.1 * (q.2 - p.2) + (y - p.2) * (q.1 - p.1)).natAbs := by
  rw [edgeX, Int.natAbs_mul, Int.natAbs_tdiv]
  exact Nat.div_mul_le_self _ _

/-! ## The statements -/

/-- Settles O52: the triangle plots the points of its spans, and a span's points are those between its ends. -/
theorem triangleFillsItsSpans : Obligations.TriangleFillsItsSpans := by
  intro fb a b c col hfb x y hx hy covered
  have hcovered : ((x : Int), (y : Int)) ∈ (triangleSpans a b c).flatMap Span.points ↔ covered := by
    rw [List.mem_flatMap]
    exact exists_congr fun sp => and_congr_right fun _ => Span.mem_points.trans (and_congr_left fun _ => eq_comm)
  rw [drawTriangle, foldl_drawSpan, read_plotAll hfb _ col hx hy]
  exact ⟨fun h => if_pos (hcovered.mpr h), fun h => if_neg (mt hcovered.mp h)⟩

/-- Settles O53: the sort fixes the three vertices, the spans are listed by scanline, and an edge's x is a truncated quotient. -/
theorem triangleSpansFollowTheEdges : Obligations.TriangleSpansFollowTheEdges := by
  refine ⟨fun v0 v1 v2 h01 h12 => ?threeHeights, fun a b c v0 v1 v2 hsort => ?anyVertices,
    fun p q y hpq => ⟨edgeX_error_lt hpq y, edgeX_mul_natAbs_le p q y⟩⟩
  case threeHeights =>
    have hspans (a b c : Point) (h : List.Perm [a, b, c] [v0, v1, v2]) : triangleSpans a b c = spansSorted v0 v1 v2 :=
      triangleSpans_of_sorted (sortByY_of_perm h01 h12 h)
    have hself := hspans v0 v1 v2 (List.Perm.refl _)
    have h02 : v0.2 < v2.2 := h01.trans h12
    refine ⟨fun a b c h => (hspans a b c h).trans hself.symm, fun sp => ?_⟩
    rw [hself, mem_spansSorted h02.ne h02.le, eq_spanAt_iff]
    simp only [h01, and_true]
  case anyVertices =>
    rw [← sortByY_eq] at hsort
    rw [triangleSpans_of_sorted hsort]
    refine ⟨spansSorted_flat, fun htall => ⟨spansSorted_pairwise htall, fun sp => ?_⟩⟩
    rw [mem_spansSorted htall (le_of_sortByY hsort), eq_spanAt_iff]

end Sys2Proof.Machine
end

section
/-! SUPPORT. The statements of 49_apu.md: the sixteen registers, the phases and samples of a pass, and the real number a sample is. -/

namespace Sys2Proof.Machine

/-! ## A register's write on a channel (R301 to R303), as numbers -/

section Register
variable (ch : Channel) (v : Byte)

theorem withLowByte_eq_ofNat (f : BitVec 16) : withLowByte f v = BitVec.ofNat 16 (f.toNat / 256 * 256 + v.toNat) := by
  have hnum : (withLowByte f v).toNat = f.toNat / 256 * 256 + v.toNat := by
    rw [withLowByte, toNat_append_eq, toNat_field, Nat.mod_eq_of_lt (by have := f.isLt; omega)]
    rfl
  rw [← hnum, BitVec.ofNat_toNat, BitVec.setWidth_eq]

theorem withHighByte_eq_ofNat (f : BitVec 16) : withHighByte f v = BitVec.ofNat 16 (v.toNat * 256 + f.toNat % 256) := by
  have hnum : (withHighByte f v).toNat = v.toNat * 256 + f.toNat % 256 := by
    rw [withHighByte, toNat_append_eq, toNat_field, Nat.pow_zero, Nat.div_one]
    rfl
  rw [← hnum, BitVec.ofNat_toNat, BitVec.setWidth_eq]

theorem Channel.writeReg_freqLo :
    ch.writeReg 0 v = { ch with freq := BitVec.ofNat 16 (ch.freq.toNat / 256 * 256 + v.toNat) } := by
  rw [← withLowByte_eq_ofNat]; rfl

theorem Channel.writeReg_freqHi :
    ch.writeReg 1 v = { ch with freq := BitVec.ofNat 16 (v.toNat * 256 + ch.freq.toNat % 256) } := by
  rw [← withHighByte_eq_ofNat]; rfl

/-- CTRL by the byte's number: bit 0 enables and resets the phase, bits 2:1 select the waveform (R302). -/
theorem Channel.writeReg_ctrl : ch.writeReg 2 v =
    { ch with
      en := v.getLsbD 0
      wave := [Waveform.square, .sine, .triangle, .noise].getD (v.toNat / 2 % 4) .square
      phase := if v.toNat % 2 = 1 then 0 else ch.phase } := by
  have hwave : (v.extractLsb' 1 2).toNat = v.toNat / 2 % 4 := toNat_field v 1 2
  have henable : v.getLsbD 0 = true ↔ v.toNat % 2 = 1 := by
    rw [BitVec.getLsbD, Nat.testBit_zero, decide_eq_true_iff]
  rw [← hwave, ← waveformOf_eq_getD, ← if_congr henable rfl rfl]
  rfl

theorem Channel.writeReg_vol : ch.writeReg 3 v = { ch with vol := v } := rfl

end Register

/-! ## A register's write on the APU (R300, R304) -/

/-- A write at a register's offset acts on the channels as the waiting sample passes leave them. -/
theorem State.apuWrite8_of_lt (s : State) {o : Nat} (ho : o < 16) (v : Byte) :
    s.apuWrite8 o v = { s.audioTurn with apu := apuSet s.audioTurn.apu o v } := if_pos ho

theorem State.apuWrite8_of_ge (s : State) {o : Nat} (ho : 16 ≤ o) (v : Byte) : s.apuWrite8 o v = s := if_neg (Nat.not_lt.mpr ho)

/-- The offset 4 c + r is register r of channel c. -/
theorem apuSet_channel_get (apu : Vector Channel 4) {c r : Nat} (hr : r < 4) (v : Byte) (d : Nat) (hd : d < 4) :
    (apuSet apu (4 * c + r) v)[d] = if d = c then apu[d].writeReg r v else apu[d] := by
  have hchannel : (4 * c + r) / 4 = c := by omega
  have hreg : (4 * c + r) % 4 = r := by omega
  rw [apuSet_get, hchannel, hreg]

/-! ## Phases over samples (R310) -/

theorem State.generate_apu_get (s : State) (n c : Nat) (hc : c < 4) : (s.generate n).apu[c] = Channel.tick^[n] s.apu[c] :=
  apuAfter_get n s.apu c hc

/-- A numerator taken modulo 48000 is the fraction of the phase. -/
theorem phaseValue_mod (m : Nat) (h : m % sampleRate < sampleRate) : phaseValue ⟨m % sampleRate, h⟩ = Int.fract ((m : ℚ) / 48000) :=
  (Int.fract_div_natCast_eq_div_natCast_mod (k := ℚ) (m := m) (n := sampleRate)).symm

theorem Channel.tick_iterate_of_sounding {ch : Channel} (h : ch.sounding = true) (n : Nat) : Channel.tick^[n] ch =
    { ch with phase := ⟨(ch.phase.val + n * ch.freq.toNat) % sampleRate, Nat.mod_lt _ (by decide)⟩ } := by
  rw [Channel.tick_iterate, if_pos h]

theorem Channel.tick_iterate_of_silent {ch : Channel} (h : ¬ch.sounding = true) (n : Nat) : Channel.tick^[n] ch = ch := by
  rw [Channel.tick_iterate, if_neg h]

/-! ## The waveforms as functions of the phase (R311) -/

theorem phaseValue_cast (p : Phase) : ((phaseValue p : ℚ) : ℝ) = (p.val : ℝ) / 48000 := by
  simp [phaseValue]

theorem phaseValue_lt_half_iff (p : Phase) : phaseValue p < 1 / 2 ↔ (p.val : ℝ) / 48000 < 1 / 2 := by
  rw [← phaseValue_cast, ← Rat.cast_lt (K := ℝ)]
  norm_num

/-- The phase's number lies in [0, 1) (R38). -/
theorem phase_real_mem (p : Phase) : 0 ≤ (p.val : ℝ) / 48000 ∧ (p.val : ℝ) / 48000 < 1 := by
  obtain ⟨hlo, hhi⟩ := phaseValue_mem p
  rw [← phaseValue_cast]
  exact ⟨by exact_mod_cast hlo, by exact_mod_cast hhi⟩

section Waves
variable (p : Phase)

theorem waveValue_square : waveValue .square p = if (p.val : ℝ) / 48000 < 1 / 2 then 1 else -1 :=
  if_congr (phaseValue_lt_half_iff p) rfl rfl

theorem waveValue_sine : waveValue .sine p = Real.sin (2 * Real.pi * ((p.val : ℝ) / 48000)) := by
  rw [waveValue, phaseValue_cast]

theorem waveValue_triangle : waveValue .triangle p =
    if (p.val : ℝ) / 48000 < 1 / 2 then 4 * ((p.val : ℝ) / 48000) - 1 else 3 - 4 * ((p.val : ℝ) / 48000) := by
  rw [waveValue, phaseValue_cast]
  exact if_congr (phaseValue_lt_half_iff p) rfl rfl

/-- The noise is held to [-1, 1], whatever the free function is (D36). -/
theorem abs_waveValue_noise_le : |waveValue .noise p| ≤ 1 :=
  abs_le.mpr ⟨le_max_left _ _, max_le (by norm_num) (min_le_left _ _)⟩

/-- Every waveform's value lies in [-1, 1]. -/
theorem abs_waveValue_le (k : Waveform) : |waveValue k p| ≤ 1 := by
  obtain ⟨hlo, hhi⟩ := phase_real_mem p
  cases k with
  | square => rw [waveValue_square]; split <;> norm_num
  | sine => rw [waveValue_sine]; exact Real.abs_sin_le_one _
  | triangle => rw [waveValue_triangle, abs_le]; split <;> constructor <;> linarith
  | noise => exact abs_waveValue_noise_le p

end Waves

/-! ## The mix (R310) -/

/-- A channel's term of the sum; 0 where it does not sound. -/
noncomputable def channelValue (ch : Channel) : ℝ :=
  if ch.en = true ∧ 0 < ch.freq.toNat then waveValue ch.wave ch.phase * ((ch.vol.toNat : ℝ) / 255) * (1 / 4) else 0

/-- A channel's term is its voice's, or 0 without one. -/
theorem channelValue_eq (ch : Channel) : channelValue ch = (ch.voice.map voiceValue).getD 0 := by
  rw [channelValue, Channel.voice]
  by_cases h : ch.sounding = true
  · rw [if_pos h, if_pos (ch.sounding_iff.mp h)]; rfl
  · rw [if_neg h, if_neg (mt ch.sounding_iff.mpr h)]; rfl

/-- Channels without a voice may be left in the sum, as zeros. -/
theorem sampleValue_filterMap_voice (chs : List Channel) : sampleValue (chs.filterMap Channel.voice) = (chs.map channelValue).sum := by
  induction chs with
  | nil => rfl
  | cons ch chs ih =>
    rw [List.map_cons, List.sum_cons, ← ih, channelValue_eq]
    cases h : ch.voice with
    | none => rw [List.filterMap_cons_none h]; exact (zero_add _).symm
    | some v => rw [List.filterMap_cons_some h]; rfl

/-- A sample is the sum of the four channels' terms. -/
theorem sampleValue_sampleNow (apu : Vector Channel 4) : sampleValue (sampleNow apu) = ∑ c : Fin 4, channelValue apu[c] := by
  have hlist : apu.toList = List.ofFn fun c : Fin 4 => apu[c] := by
    refine List.ext_getElem (by rw [Vector.length_toList, List.length_ofFn]) fun i h1 h2 => ?_
    rw [List.getElem_ofFn, Vector.getElem_toList]
    rfl
  rw [sampleNow, sampleValue_filterMap_voice, hlist, List.map_ofFn, List.sum_ofFn]
  rfl

/-- One channel puts at most a quarter into the sum, the mix's attenuation. -/
theorem abs_channelValue_le (ch : Channel) : |channelValue ch| ≤ 1 / 4 := by
  have hvol : |(ch.vol.toNat : ℝ) / 255| ≤ 1 := by
    have hbyte : ((ch.vol.toNat : ℕ) : ℝ) ≤ 255 := by exact_mod_cast Nat.le_of_lt_succ ch.vol.isLt
    rw [abs_of_nonneg (by positivity), div_le_one (by norm_num)]
    exact hbyte
  rw [channelValue]
  split
  · rw [abs_mul, abs_mul, abs_of_pos (by norm_num : (0 : ℝ) < 1 / 4)]
    have := mul_le_one₀ (abs_waveValue_le ch.phase ch.wave) (abs_nonneg _) hvol
    linarith
  · norm_num

/-! ## The statements -/

/-- Settles O54: the offset names the channel and the register, and the waiting passes run first. -/
theorem apuRegisterWrites : Obligations.ApuRegisterWrites := by
  intro s v
  refine ⟨fun c r hc hr => ?register, fun o ho => s.apuWrite8_of_ge ho v, State.audioTurn_of_nil, fun ns rest =>
    State.audioTurn_of_cons⟩
  case register =>
    rw [State.apuWrite8_of_lt s (by omega)]
    refine ⟨?written, fun d hd hdc => ?others, rfl⟩
    case others => rw [apuSet_channel_get _ hr, if_neg hdc]
    case written =>
      rw [apuSet_channel_get _ hr, if_pos rfl]
      match r, hr with
      | 0, _ => exact Channel.writeReg_freqLo _ v
      | 1, _ => exact Channel.writeReg_freqHi _ v
      | 2, _ => exact Channel.writeReg_ctrl _ v
      | 3, _ => exact Channel.writeReg_vol _ v

/-- Settles O56: a channel after n samples in closed form, whose phase is a numerator modulo 48000. -/
theorem phaseAfterSamples : Obligations.PhaseAfterSamples := by
  intro s n c hc ch ch'
  have hafter : ch' = Channel.tick^[n] ch := s.generate_apu_get n c hc
  by_cases h : ch.sounding = true
  · rw [Channel.tick_iterate_of_sounding h] at hafter
    have hon := ch.sounding_iff.mp h
    refine ⟨fun _ _ => ?phase, fun hoff => ?silent, by rw [hafter]⟩
    case phase =>
      rw [hafter, phaseValue_mod, phaseValue]
      congr 1
      push_cast
      ring
    case silent =>
      rcases hoff with hen | hfreq
      · rw [hon.1] at hen; contradiction
      · omega
  · rw [Channel.tick_iterate_of_silent h] at hafter
    exact ⟨fun hen hfreq => absurd (ch.sounding_iff.mpr ⟨hen, hfreq⟩) h, fun _ => hafter, by rw [hafter]⟩

/-- Settles O57: the buffer of a pass, sample by sample. -/
theorem generatePassMakesSamples : Obligations.GeneratePassMakesSamples :=
  fun s n => ⟨samplesOf n s.apu, s.generate_out n, samplesOf_length n s.apu, fun k hk => samplesOf_get n s.apu k hk, rfl⟩

/-- Settles O58: the sum over voices is the sum over channels, and each waveform is stated at the phase's real number. -/
theorem sampleIsTheMix : Obligations.SampleIsTheMix :=
  ⟨sampleValue_sampleNow, fun p => ⟨waveValue_square p, waveValue_sine p, waveValue_triangle p, abs_waveValue_noise_le p⟩⟩

/-- Settles O59: four terms of at most a quarter each. -/
theorem samplesStayInRange : Obligations.SamplesStayInRange := by
  intro apu
  rw [sampleValue_sampleNow]
  calc |∑ c : Fin 4, channelValue apu[c]| ≤ ∑ c : Fin 4, |channelValue apu[c]| := Finset.abs_sum_le_sum_abs _ _
    _ ≤ ∑ _c : Fin 4, (1 / 4 : ℝ) := Finset.sum_le_sum fun c _ => abs_channelValue_le apu[c]
    _ = 1 := by norm_num

end Sys2Proof.Machine
end

section
/-! SUPPORT. The statements of 70_reset_and_hazards.md: the cartridge in ROM, and one turn of the driving loop. -/

namespace Sys2Proof.Machine

/-! ## The input byte (R32, R386) -/

section InputByte
variable {s : State} (hc : s.cfg.Valid)
include hc

/-- The input byte's address does not wrap. -/
theorem State.inputAddr_toNat : s.inputAddr.toNat = s.cfg.joyBase + s.cfg.joyInputOff := by
  obtain ⟨-, hbound, -, -, hinput, -⟩ := hc
  have htop : s.cfg.joyBase + ioBytes ≤ 2 ^ 32 := hbound (s.cfg.joyBase, ioBytes) (by simp [Config.windows])
  rw [State.inputAddr, BitVec.toNat_ofNat, Nat.mod_eq_of_lt (by omega)]

/-- The input byte lies in the joypad window (D17). -/
theorem State.region_inputAddr : s.region s.inputAddr = .joy s.cfg.joyInputOff := by
  have ⟨_, _, _, _, hinput, _⟩ := hc
  obtain ⟨-, -, -, hjoy, -⟩ := regionAt_of_valid hc (s.cfg.joyBase + s.cfg.joyInputOff)
  rw [State.region, State.inputAddr_toNat hc, hjoy (Nat.le_add_right _ _) (Nat.add_lt_add_left hinput _), Nat.add_sub_cancel_left]

end InputByte

/-! ## A turn of the driving loop (R386) -/

theorem State.perform_frame (s : State) (input : Byte) :
    s.perform (.frame input) = { s.write8 s.inputAddr input with agenda := s.frameRest ++ (s.write8 s.inputAddr input).agenda } := rfl

theorem State.perform_frame_agenda (s : State) (input : Byte) :
    (s.perform (.frame input)).agenda = List.replicate s.cfg.stepsPerFrame .cpu ++ .render :: s.agenda := by
  rw [State.perform_frame, State.write8_agenda, State.frameRest, List.append_assoc, List.singleton_append]

/-- What a turn of the loop leaves beside the schedule: the input byte is written, and nothing else changes but its own cell. -/
theorem State.perform_frame_law {s : State} (hs : s.Inv) (input : Byte) :
    (s.perform (.frame input)).read8 s.inputAddr = input ∧
    (∀ a, a ≠ s.inputAddr → (s.perform (.frame input)).read8 a = s.read8 a) ∧
    (s.perform (.frame input)).pc = s.pc ∧ (s.perform (.frame input)).regs = s.regs ∧
    (s.perform (.frame input)).apu = s.apu ∧ (s.perform (.frame input)).fb = s.fb ∧ (s.perform (.frame input)).out = s.out := by
  have hregion := State.region_inputAddr hs.cfg
  obtain ⟨hapu, -, hout⟩ := s.write8_audio input (a := s.inputAddr) (by rw [hregion]; rfl)
  exact ⟨State.read8_write8_same hs input (by rw [hregion]; rfl), fun a => State.read8_write8_other s input,
    State.write8_pc s _ input, State.write8_regs s _ input, hapu, State.write8_fb s _ input, hout⟩

/-! ## The statements -/

/-- Settles O19: the image is cut and placed at offset 0, and what ROM does not list reads 0. -/
theorem loadRomPlacesTheImage : Obligations.LoadRomPlacesTheImage := by
  intro s image k
  rw [State.loadRom, Memory.read_ofList, if_pos (Nat.zero_le k), Nat.sub_zero]
  simp only [List.getD_eq_getElem?_getD, List.getElem?_take]
  split <;> rfl

/-- Settles O60: the turn is performed on the state without it, where it writes the input byte and puts the loop's calls in front. -/
theorem frameIsInputStepsRender : Obligations.FrameIsInputStepsRender := by
  intro s input rest hs hagenda
  obtain ⟨hinput, hother, hkept⟩ := State.perform_frame_law (hs.withAgenda rest) input
  have hne (a : Word) (ha : a.toNat ≠ s.cfg.joyBase + s.cfg.joyInputOff) : a ≠ s.inputAddr :=
    fun he => ha (he ▸ State.inputAddr_toNat hs.cfg)
  exact ⟨_, step_of_hostCall hagenda nofun, State.perform_frame_agenda _ input, hinput, fun a ha => hother a (hne a ha), hkept⟩

end Sys2Proof.Machine
end
